-- ==== Sys2Proof/Word.lean ====
section
/-! DEFINITION. The widths the spec gives to values (spec/00_scope.md R8, R14). -/

namespace Sys2Proof

/-- A register and a command word: 32 bits (R8). -/
abbrev Word := BitVec 32

/-- A byte of DIN, DOUT, MT or of a container (R8). -/
abbrev Byte := BitVec 8

/-- One passphrase code unit, `CU_WIDTH` = 16 bits (R7, R8). -/
abbrev CodeUnit := BitVec 16

/-- A symbol is its 2-bit group: S0 = 0, S1 = 1, S2 = 2, S3 = 3 (R14). -/
abbrev Symbol := BitVec 2

end Sys2Proof
end

