-- ==== Sys2Proof/Config.lean ====
section
/-! DEFINITION. What an instance of the block fixes (the parameters of spec/00_scope.md R7), the constants of the
identification registers, and the free values: constants without a body, so that no proof can know what they are. -/

namespace Sys2Proof

/-- The substitution table: row `k` (key symbol), column `d` (data symbol) (R180). -/
abbrev SubstTable := Vector (Vector Symbol 4) 4

/-- The parameters of one block (R7). They stand in the state as data that no step writes, so that a statement about
every state is a statement about every legal set of parameters (R9; DESIGN CHOICE, safe, log 4). -/
structure Params where
  /-- `P_DIN`: capacity of DIN in bytes. -/
  pDin : Nat
  /-- `P_DOUT`: capacity of DOUT in bytes. -/
  pDout : Nat
  /-- `P_KEY`: capacity of KEY in code units. -/
  pKey : Nat
  /-- `P_MT`: capacity of MT in bytes. -/
  pMt : Nat
  /-- `P_SYM`: capacity of SYM and of KS in symbols. -/
  pSym : Nat
  /-- `BASE`: host byte address of block offset 0 (R70). -/
  base : Nat
  /-- `SUBST_TABLE`. -/
  table : SubstTable
deriving DecidableEq, Repr

namespace Config

/-- The table of the GCX block: `T[k][d] = k XOR d` (R180). -/
def xorTable : SubstTable :=
  #v[#v[0, 1, 2, 3], #v[1, 0, 3, 2], #v[2, 3, 0, 1], #v[3, 2, 1, 0]]

/-- The parameters the model starts with: the default column of R7. `BASE` is OPEN there; 0 is a legal value.
DESIGN CHOICE (log 4), unsafe for a claim that rests on `base = 0`: no statement does. -/
def defaultParams : Params where
  pDin := 65536
  pDout := 1048576
  pKey := 256
  pMt := 256
  pSym := 262144
  base := 0
  table := xorTable

/-- `KEY_MIN`: least passphrase length of ENCRYPT and DECRYPT, in code units (R7). -/
def keyMin : Nat := 8

/-- The constant of register ID (R33). -/
def idValue : Word := 0x47435831

/-- The constant of register VERSION (R34). -/
def versionValue : Word := 0x00010000

/-- FREE VALUE: the byte at a block offset that nothing has written since the power-on numbered by the first argument
(R57, R290, I8; log 6). -/
opaque powerOnByte : Nat → Nat → Byte

/-- FREE VALUE: what a read of a data register or of a window word returns while the block is busy (R301, I9; log 8).
The argument is the value of the counter `fresh` at the read. -/
opaque busyWord : Nat → Word

/-- FREE VALUE: a byte of DOUT or MT that an abandoned command would have written (R291, I10; log 9). The arguments are
the counter `fresh` at the soft reset, the window's first offset and the element's index. -/
opaque abandonedByte : Nat → Nat → Nat → Byte

/-- FREE VALUE: a symbol of SYM or KS that an abandoned command would have written (R291, I10; log 9). The arguments
are as for `abandonedByte`. -/
opaque abandonedSymbol : Nat → Nat → Nat → Symbol

end Config
end Sys2Proof
end

