-- ==== Sys2Proof/Machine/State.lean ====
section
/-! DEFINITION. The state of one GCX block as plain data (spec/10_state.md), with the events still to come from outside,
the reasons a step can stop, and the state after power-on reset. -/

namespace Sys2Proof.Machine

/-- The registers by name (spec/10_state.md R32). -/
inductive Reg where
  | id | version | ctrl | status | cmd | errpos
  | dinLen | keyLen | mtLen | doutLen | symLen | ksLen | ksReq
  | hash | lcg
  | capDin | capDout | capKey | capMt | capSym
deriving DecidableEq, Repr

/-- The named fields of STATUS (R36). Its other bits read 0 and cannot be written, so they are not stored (log 18). -/
structure Status where
  busy : Bool
  done : Bool
  err : Bool
  wib : Bool
  aerr : Bool
  errcode : Byte
deriving DecidableEq, Repr

/-- The registers that hold a value (R35 to R47). ID, VERSION and CAP_* are constants and are read from the
configuration. -/
structure Regs where
  /-- CTRL.IE (R35). -/
  ie : Bool
  /-- STATUS (R36). -/
  status : Status
  /-- CMD; while BUSY = 1 also the command in flight (R37, R59). -/
  cmd : Word
  /-- ERRPOS (R38). -/
  errpos : Word
  /-- DIN_LEN (R39). -/
  dinLen : Word
  /-- KEY_LEN (R40). -/
  keyLen : Word
  /-- MT_LEN (R41). -/
  mtLen : Word
  /-- DOUT_LEN (R42). -/
  doutLen : Word
  /-- SYM_LEN (R43). -/
  symLen : Word
  /-- KS_LEN (R44). -/
  ksLen : Word
  /-- KS_REQ (R45). -/
  ksReq : Word
  /-- HASH (R46). -/
  hash : Word
  /-- LCG (R47). -/
  lcg : Word
deriving DecidableEq, Repr

/-- The six buffers, held as bytes of the block offset space (spec/20_memory.md R71 to R74; log 12). A cell is a block
offset and its byte; offsets strictly rise. An offset that is not listed has not been written since power-on number
`gen`, and reads as a free value (R57; log 6). -/
structure Memory where
  gen : Nat
  cells : List Host.Cell
deriving DecidableEq, Repr

/-- One host access: a byte address on the host's bus, a width in bits, and for a write the word written
(spec/20_memory.md R70, R75; log 22). -/
inductive Access where
  | read (addr : Nat) (width : Nat)
  | write (addr : Nat) (width : Nat) (value : Word)
deriving DecidableEq, Repr

/-- What happens next to the block (DESIGN CHOICE, safe, log 1 and log 2): a host access reaches its interface, the
engine takes its turn (it completes the command in flight, if there is one), or power is lost and returns. -/
inductive Event where
  | host (a : Access)
  | engine
  | powerOn
deriving DecidableEq, Repr

/-- The whole state. -/
structure State where
  /-- The parameters of the instance (R7); no step writes them. -/
  params : Params
  /-- The registers. -/
  regs : Regs
  /-- The buffers DIN, DOUT, KEY, MT, SYM and KS. -/
  mem : Memory
  /-- The model's own: the word the last performed host read returned, the read-data output of R60 (log 10). -/
  rdata : Option Word
  /-- The model's own: the events still to come, in the order in which they are performed (log 1). -/
  pending : List Event
  /-- The model's own: the number of free values drawn so far (log 11). -/
  fresh : Nat
deriving DecidableEq, Repr

/-- The model has no fault: every command completes and every access completes (spec/93_implementation_defined.md,
"No behaviour of the block is stuck"; log 17). No constructor, so nothing raises one, which is safe. -/
inductive Fault where
deriving DecidableEq, Repr

/-- The reasons the model gives no next state. -/
inductive Refusal where
  /-- Raised by `exec` for an instruction without a meaning. Safe: no claim can be proved about its effect. No arm
  raises it now. -/
  | notModelled (mnemonic : String)
  /-- Raised by `step` when the parameters are not legal values of R7, the Latin-square condition of R181 among
  them ("A model refuses a table that fails the condition"; I3, log 5). Safe: no legal block has such parameters. -/
  | illegalParams
deriving DecidableEq, Repr

/-- STATUS after a reset: 0 (R36). -/
def Status.reset : Status where
  busy := false
  done := false
  err := false
  wib := false
  aerr := false
  errcode := 0

/-- Every register after a power-on reset and after a soft reset (R61, R290). -/
def Regs.reset : Regs where
  ie := false
  status := Status.reset
  cmd := 0
  errpos := 0
  dinLen := 0
  keyLen := 0
  mtLen := 0
  doutLen := 0
  symLen := 0
  ksLen := 0
  ksReq := 0
  hash := 0
  lcg := 0

/-- The machine right after power-on reset (R290): registers at their reset values, every buffer element an arbitrary
value, no command issued. The parameters are the defaults of R7 (log 4); no event is pending (log 15). -/
def State.reset : State where
  params := Config.defaultParams
  regs := Regs.reset
  mem := { gen := 0, cells := [] }
  rdata := none
  pending := []
  fresh := 0

end Sys2Proof.Machine
end

