-- ==== Sys2Proof/Machine/Flags.lean ====
section
/-! DEFINITION. The STATUS flags, the error codes and the IRQ output (spec/10_state.md R36, R58, R60;
spec/60_exceptions.md R260, R272). -/

namespace Sys2Proof.Machine

/-- The errors a command can report (spec/60_exceptions.md R260). -/
inductive ErrCode where
  | keyTooShort
  | missingInput
  | containerDecode
  | unsupportedKind
  | symbolDecode
  | illegalCmd
  | lenRange
  | capacity
  | badMediaType
deriving DecidableEq, Repr

/-- The value ERRCODE takes (R260). -/
def ErrCode.toByte : ErrCode → Byte
  | .keyTooShort => 0x01
  | .missingInput => 0x02
  | .containerDecode => 0x03
  | .unsupportedKind => 0x04
  | .symbolDecode => 0x05
  | .illegalCmd => 0x10
  | .lenRange => 0x11
  | .capacity => 0x12
  | .badMediaType => 0x13

/-- STATUS as the host reads it (R36): BUSY bit 0, DONE bit 1, ERR bit 2, WIB bit 3, AERR bit 4, ERRCODE bits [15:8],
the rest 0. -/
def Status.toWord (st : Status) : Word :=
  (BitVec.ofBool st.busy).setWidth 32
    ||| ((BitVec.ofBool st.done).setWidth 32 <<< 1)
    ||| ((BitVec.ofBool st.err).setWidth 32 <<< 2)
    ||| ((BitVec.ofBool st.wib).setWidth 32 <<< 3)
    ||| ((BitVec.ofBool st.aerr).setWidth 32 <<< 4)
    ||| (st.errcode.setWidth 32 <<< 8)

/-- STATUS at the issue of a command (spec/40_command_execution.md R121). -/
def Status.issued (st : Status) : Status :=
  { st with busy := true, done := false, err := false, errcode := 0 }

/-- STATUS at a completion without error (R123). -/
def Status.succeeded (st : Status) : Status :=
  { st with busy := false, done := true }

/-- STATUS at a completion with an error (R123). -/
def Status.failed (st : Status) (code : ErrCode) : Status :=
  { st with busy := false, done := true, err := true, errcode := code.toByte }

/-- A host write of `v` to STATUS: a written 1 clears DONE (bit 1), ERR with ERRCODE (bit 2), WIB (bit 3) and
AERR (bit 4); nothing else changes (R36). -/
def Status.acknowledged (st : Status) (v : Word) : Status :=
  { st with
    done := st.done && !v.getLsbD 1
    err := st.err && !v.getLsbD 2
    errcode := if v.getLsbD 2 then 0 else st.errcode
    wib := st.wib && !v.getLsbD 3
    aerr := st.aerr && !v.getLsbD 4 }

/-- A host write was ignored because the block was busy (spec/70_reset_and_hazards.md R300). -/
def State.setWib (s : State) : State :=
  { s with regs := { s.regs with status := { s.regs.status with wib := true } } }

/-- The interface did not accept an access (spec/20_memory.md R76). -/
def State.setAerr (s : State) : State :=
  { s with regs := { s.regs with status := { s.regs.status with aerr := true } } }

/-- CTRL as the host reads it: IE in bit 0, the rest 0 (R35). -/
def ctrlWord (ie : Bool) : Word := (BitVec.ofBool ie).setWidth 32

/-- The interrupt output `IRQ = CTRL.IE AND STATUS.DONE` (R60, R272). -/
def State.irq (s : State) : Bool := s.regs.ie && s.regs.status.done

end Sys2Proof.Machine
end

