-- ==== Sys2Proof/Machine/Ops.lean ====
section
/-! DEFINITION. The named operations over the buffers, and the issue and completion of a command: the one operation
that applies a command's results and the one that reports its error (spec/20_memory.md R71 to R74;
spec/40_command_execution.md R121 to R124). -/

namespace Sys2Proof.Machine

/-! ### Cells -/

/-- The byte listed at offset `a`. -/
def findCell (a : Nat) : List Host.Cell → Option Byte
  | [] => none
  | c :: rest => if c.1 = a then some c.2 else findCell a rest

/-- List the byte `b` at offset `a`, keeping offsets strictly rising. -/
def insertCell (a : Nat) (b : Byte) : List Host.Cell → List Host.Cell
  | [] => [(a, b)]
  | c :: rest =>
    if a < c.1 then (a, b) :: c :: rest
    else if a = c.1 then (a, b) :: rest
    else c :: insertCell a b rest

/-- Offsets strictly rise. -/
def cellsRise : List Host.Cell → Bool
  | [] => true
  | [_] => true
  | c :: d :: rest => decide (c.1 < d.1) && cellsRise (d :: rest)

/-- The canonical form of the memory: offsets strictly rise. An unlisted offset reads as no fixed byte (R57), so no
listed byte can repeat what an unlisted offset reads as (log 6). -/
def Memory.wf (m : Memory) : Bool := cellsRise m.cells

/-! ### Bytes -/

/-- The byte at a block offset: the byte last written there, else the free value of the last power-on (R57). -/
def Memory.byte (m : Memory) (a : Nat) : Byte :=
  match findCell a m.cells with
  | some b => b
  | none => Config.powerOnByte m.gen a

/-- Write one byte. -/
def Memory.set (m : Memory) (a : Nat) (b : Byte) : Memory :=
  { m with cells := insertCell a b m.cells }

/-- Write bytes to rising offsets from `a`. -/
def Memory.storeBytes (m : Memory) (a : Nat) : List Byte → Memory
  | [] => m
  | b :: rest => (m.set a b).storeBytes (a + 1) rest

/-- The 32-bit word at a block offset, low byte first (R72, R80). One rule serves every window: a KEY word (R73) and a
symbol word (R74) are the same four bytes (log 12). -/
def Memory.word (m : Memory) (a : Nat) : Word :=
  m.byte (a + 3) ++ m.byte (a + 2) ++ m.byte (a + 1) ++ m.byte a

/-- Write a 32-bit word at a block offset, low byte first (R72 to R74). -/
def Memory.storeWord (m : Memory) (a : Nat) (v : Word) : Memory :=
  m.storeBytes a [v.extractLsb' 0 8, v.extractLsb' 8 8, v.extractLsb' 16 8, v.extractLsb' 24 8]

/-! ### Code units -/

/-- Code unit `i` of the window at `win`: two bytes, low byte first (R73). -/
def Memory.unit (m : Memory) (win i : Nat) : CodeUnit :=
  m.byte (win + 2 * i + 1) ++ m.byte (win + 2 * i)

/-! ### Symbols -/

/-- Symbol `q` (0 to 3) of a byte lane; symbol 0 stands in the two most significant bits (R74). -/
def laneSymbol (b : Byte) (q : Nat) : Symbol := b.extractLsb' (6 - 2 * q) 2

/-- A byte lane with its symbol `q` replaced (R74). -/
def laneWith (b : Byte) (q : Nat) (v : Symbol) : Byte :=
  (b &&& ~~~((3 : Byte) <<< (6 - 2 * q))) ||| (v.setWidth 8 <<< (6 - 2 * q))

/-- Symbol `i` of the window at `win`: four symbols to a byte (R74). -/
def Memory.sym (m : Memory) (win i : Nat) : Symbol :=
  laneSymbol (m.byte (win + i / 4)) (i % 4)

/-- Write symbol `i` of the window at `win`; the other three symbols of its byte stay. -/
def Memory.setSym (m : Memory) (win i : Nat) (v : Symbol) : Memory :=
  m.set (win + i / 4) (laneWith (m.byte (win + i / 4)) (i % 4) v)

/-- Write symbols to rising indices from `i` of the window at `win`. -/
def Memory.storeSyms (m : Memory) (win i : Nat) : List Symbol → Memory
  | [] => m
  | v :: rest => (m.setSym win i v).storeSyms win (i + 1) rest

/-! ### The windows (R71) -/

def mtWin : Nat := 0x001000
def keyWin : Nat := 0x002000
def dinWin : Nat := 0x400000
def doutWin : Nat := 0x800000
def symWin : Nat := 0xC00000
def ksWin : Nat := 0xE00000

/-! ### Results of a command -/

/-- `Err(code, pos)` of spec/40_command_execution.md R122. -/
structure CmdError where
  code : ErrCode
  pos : Word
deriving DecidableEq, Repr

/-- `Ok(U)` of R122: the writes of a command. A list is written to the buffer's first elements (R56); `none` leaves a
register as it is. -/
structure Update where
  sym : List Symbol := []
  ks : List Symbol := []
  dout : List Byte := []
  mt : List Byte := []
  symLen : Option Word := none
  ksLen : Option Word := none
  doutLen : Option Word := none
  mtLen : Option Word := none
  hash : Option Word := none
  lcg : Option Word := none
deriving DecidableEq, Repr

/-- The buffer writes of a command (R106). -/
def Memory.applyUpdate (m : Memory) (u : Update) : Memory :=
  (((m.storeSyms symWin 0 u.sym).storeSyms ksWin 0 u.ks).storeBytes doutWin u.dout).storeBytes mtWin u.mt

/-- The register writes of a command (R106). -/
def Regs.applyUpdate (r : Regs) (u : Update) : Regs :=
  { r with
    symLen := u.symLen.getD r.symLen
    ksLen := u.ksLen.getD r.ksLen
    doutLen := u.doutLen.getD r.doutLen
    mtLen := u.mtLen.getD r.mtLen
    hash := u.hash.getD r.hash
    lcg := u.lcg.getD r.lcg }

/-- Completion without error: every write of the command, BUSY clear, DONE set, at one instant (R123, R85). -/
def State.succeed (s : State) (u : Update) : State :=
  { s with
    regs := { s.regs.applyUpdate u with status := s.regs.status.succeeded }
    mem := s.mem.applyUpdate u }

/-- TAKING AN ERROR: completion with an error. STATUS and ERRPOS record it, nothing else changes
(R123, R124; spec/60_exceptions.md R265). There is no vector, saved pc or mode (R265). -/
def State.takeError (s : State) (e : CmdError) : State :=
  { s with regs := { s.regs with status := s.regs.status.failed e.code, errpos := e.pos } }

/-- CONSUMING AN ERROR REPORT: the host's write to STATUS (R36, spec/60_exceptions.md R266). There is no
return-from-trap instruction. -/
def State.acknowledge (s : State) (v : Word) : State :=
  { s with regs := { s.regs with status := s.regs.status.acknowledged v } }

/-- Completion of a command whose evaluation gave `r` (R123). -/
def State.complete (s : State) (r : Except CmdError Update) : State :=
  match r with
  | .ok u => s.succeed u
  | .error e => s.takeError e

/-- Issue of the command word `v` to an idle engine (R121). -/
def State.issue (s : State) (v : Word) : State :=
  { s with regs := { s.regs with cmd := v, errpos := 0, status := s.regs.status.issued } }

end Sys2Proof.Machine
end

