-- ==== Sys2Proof/Syntax.lean ====
section
/-! DEFINITION. The commands of spec/opcode_table.json, one constructor per row (spec/30_encoding.md R101). -/

namespace Sys2Proof

/-- The two payload kinds the block implements (R102). -/
inductive PayloadKind where
  | text
  | binary
deriving DecidableEq, Repr

/-- The KIND field of a command that uses it: an implemented kind, or a field value 2 to 15 that the block does not
implement (R102). -/
inductive Kind where
  | supported (p : PayloadKind)
  | other (n : Nat)
deriving DecidableEq, Repr

/-- The ten commands. `untag` is the UNTAG bit, `kind` the KIND field, on the opcodes that use them (R101). -/
inductive Instr where
  | nop
  | pack
  | unpack
  | derive
  | subst
  | unsubst
  | frame (untag : Bool)
  | unframe (kind : Kind)
  | encrypt (kind : Kind) (untag : Bool)
  | decrypt (kind : Kind)
deriving DecidableEq, Repr

end Sys2Proof
end

