-- ==== Sys2Proof/Machine/Operands.lean ====
section
/-! DEFINITION. The operands of the commands: the register map, the buffer prefixes a command reads, and the checks
that the commands share (spec/10_state.md R32; spec/40_command_execution.md R126 to R128). -/

namespace Sys2Proof.Machine

/-! ### Registers -/

/-- The block offset of a register (R32). -/
def Reg.offset : Reg → Nat
  | .id => 0x000
  | .version => 0x004
  | .ctrl => 0x008
  | .status => 0x00C
  | .cmd => 0x010
  | .errpos => 0x014
  | .dinLen => 0x018
  | .keyLen => 0x01C
  | .mtLen => 0x020
  | .doutLen => 0x024
  | .symLen => 0x028
  | .ksLen => 0x02C
  | .ksReq => 0x030
  | .hash => 0x034
  | .lcg => 0x038
  | .capDin => 0x03C
  | .capDout => 0x040
  | .capKey => 0x044
  | .capMt => 0x048
  | .capSym => 0x04C

/-- The register at a block offset; none at a reserved offset (R32, R49). -/
def Reg.ofOffset : Nat → Option Reg
  | 0x000 => some .id
  | 0x004 => some .version
  | 0x008 => some .ctrl
  | 0x00C => some .status
  | 0x010 => some .cmd
  | 0x014 => some .errpos
  | 0x018 => some .dinLen
  | 0x01C => some .keyLen
  | 0x020 => some .mtLen
  | 0x024 => some .doutLen
  | 0x028 => some .symLen
  | 0x02C => some .ksLen
  | 0x030 => some .ksReq
  | 0x034 => some .hash
  | 0x038 => some .lcg
  | 0x03C => some .capDin
  | 0x040 => some .capDout
  | 0x044 => some .capKey
  | 0x048 => some .capMt
  | 0x04C => some .capSym
  | _ => none

/-- The value of a register, as a read of the idle block returns it (R33 to R48). -/
def State.readReg (s : State) : Reg → Word
  | .id => Config.idValue
  | .version => Config.versionValue
  | .ctrl => ctrlWord s.regs.ie
  | .status => s.regs.status.toWord
  | .cmd => s.regs.cmd
  | .errpos => s.regs.errpos
  | .dinLen => s.regs.dinLen
  | .keyLen => s.regs.keyLen
  | .mtLen => s.regs.mtLen
  | .doutLen => s.regs.doutLen
  | .symLen => s.regs.symLen
  | .ksLen => s.regs.ksLen
  | .ksReq => s.regs.ksReq
  | .hash => s.regs.hash
  | .lcg => s.regs.lcg
  | .capDin => BitVec.ofNat 32 s.params.pDin
  | .capDout => BitVec.ofNat 32 s.params.pDout
  | .capKey => BitVec.ofNat 32 s.params.pKey
  | .capMt => BitVec.ofNat 32 s.params.pMt
  | .capSym => BitVec.ofNat 32 s.params.pSym

/-! ### Buffer prefixes -/

/-- `DIN[0..n)` (R50). -/
def State.dinPrefix (s : State) (n : Nat) : List Byte :=
  (List.range n).map fun i => s.mem.byte (dinWin + i)

/-- `MT[0..n)` (R53). -/
def State.mtPrefix (s : State) (n : Nat) : List Byte :=
  (List.range n).map fun i => s.mem.byte (mtWin + i)

/-- `KEY[0..n)` (R52). -/
def State.keyPrefix (s : State) (n : Nat) : List CodeUnit :=
  (List.range n).map fun i => s.mem.unit keyWin i

/-- `SYM[0..n)` (R54). -/
def State.symPrefix (s : State) (n : Nat) : List Symbol :=
  (List.range n).map fun i => s.mem.sym symWin i

/-- `KS[0..n)` (R55). -/
def State.ksPrefix (s : State) (n : Nat) : List Symbol :=
  (List.range n).map fun i => s.mem.sym ksWin i

/-- The payload or container: `DIN[0..DIN_LEN)` (R39). -/
def State.din (s : State) : List Byte := s.dinPrefix s.regs.dinLen.toNat

/-- The media type: `MT[0..MT_LEN)` (R41). -/
def State.mt (s : State) : List Byte := s.mtPrefix s.regs.mtLen.toNat

/-- The passphrase: `KEY[0..KEY_LEN)` (R40). -/
def State.key (s : State) : List CodeUnit := s.keyPrefix s.regs.keyLen.toNat

/-- The symbol sequence: `SYM[0..SYM_LEN)` (R43). -/
def State.symbols (s : State) : List Symbol := s.symPrefix s.regs.symLen.toNat

/-- The key stream: `KS[0..KS_LEN)` (R44). -/
def State.keyStream (s : State) : List Symbol := s.ksPrefix s.regs.ksLen.toNat

/-! ### Checks -/

/-- `check_len(REG, CAP)` (R127): the position is the register's offset. -/
def State.checkLen (s : State) (r : Reg) (cap : Nat) : Except CmdError Unit :=
  if (s.readReg r).toNat > cap then .error ⟨.lenRange, BitVec.ofNat 32 r.offset⟩ else .ok ()

/-- `check_cap(n, CAP)` (R128): the position is `n mod 2^32`. -/
def checkCap (n cap : Nat) : Except CmdError Unit :=
  if n > cap then .error ⟨.capacity, BitVec.ofNat 32 n⟩ else .ok ()

/-- Check X2 of R126: a kind that is not implemented is reported with its field value (R102). -/
def checkKind : Kind → Except CmdError PayloadKind
  | .supported p => .ok p
  | .other n => .error ⟨.unsupportedKind, BitVec.ofNat 32 n⟩

/-- The passphrase is absent when KEY_LEN = 0 (spec/42_keystream.md R164, spec/45_pipeline.md R240). -/
def State.checkKeyPresent (s : State) : Except CmdError Unit :=
  if s.regs.keyLen = 0 then .error ⟨.missingInput, BitVec.ofNat 32 Reg.keyLen.offset⟩ else .ok ()

/-- The passphrase has at least KEY_MIN code units (R240, R241). -/
def State.checkKeyLong (s : State) : Except CmdError Unit :=
  if s.regs.keyLen.toNat < Config.keyMin then .error ⟨.keyTooShort, 0⟩ else .ok ()

end Sys2Proof.Machine
end

