-- ==== Sys2Proof/Machine/Control.lean ====
section
/-! DEFINITION. NOP (spec/40_command_execution.md R129). -/

namespace Sys2Proof.Machine

/-- `Exec` of NOP: after the decode check, `Ok` with no writes (R129). -/
def evalNop : Except CmdError Update := .ok {}

/-- NOP: no data effect; its completion sets DONE (R129). -/
def execNop (s : State) : Host.Outcome State Fault Refusal :=
  .next (s.complete evalNop)

end Sys2Proof.Machine
end

