-- ==== Sys2Proof/Machine/Codec.lean ====
section
/-! DEFINITION. The symbol-to-bit codec: its four functions, PACK and UNPACK (spec/41_codec.md). -/

namespace Sys2Proof.Machine

/-- The bits of a byte, most significant first (spec/20_memory.md R81). -/
def byteBits (b : Byte) : List Bool :=
  [b.getLsbD 7, b.getLsbD 6, b.getLsbD 5, b.getLsbD 4, b.getLsbD 3, b.getLsbD 2, b.getLsbD 1, b.getLsbD 0]

/-- `bytesToBits` (R141). -/
def bytesToBits : List Byte → List Bool
  | [] => []
  | b :: rest => byteBits b ++ bytesToBits rest

/-- A group of two bits, the first the more significant (R140). -/
def symbolOfBits (hi lo : Bool) : Symbol := BitVec.ofBool hi ++ BitVec.ofBool lo

/-- `bitsToSymbols` (R142): an odd last bit is padded with a 0 bit on the right. -/
def bitsToSymbols : List Bool → List Symbol
  | [] => []
  | [hi] => [symbolOfBits hi false]
  | hi :: lo :: rest => symbolOfBits hi lo :: bitsToSymbols rest

/-- `symbolsToBits` (R143). -/
def symbolsToBits : List Symbol → List Bool
  | [] => []
  | q :: rest => q.getLsbD 1 :: q.getLsbD 0 :: symbolsToBits rest

/-- Eight bits as a byte, most significant first (R144). -/
def byteOfBits (b7 b6 b5 b4 b3 b2 b1 b0 : Bool) : Byte :=
  BitVec.ofBool b7 ++ BitVec.ofBool b6 ++ BitVec.ofBool b5 ++ BitVec.ofBool b4
    ++ BitVec.ofBool b3 ++ BitVec.ofBool b2 ++ BitVec.ofBool b1 ++ BitVec.ofBool b0

/-- `bitsToBytes` (R144): a last group of fewer than 8 bits is dropped. -/
def bitsToBytes : List Bool → List Byte
  | b7 :: b6 :: b5 :: b4 :: b3 :: b2 :: b1 :: b0 :: rest =>
    byteOfBits b7 b6 b5 b4 b3 b2 b1 b0 :: bitsToBytes rest
  | _ => []

/-- The symbols of a byte sequence: four to a byte (R145, R146). -/
def symbolsOfBytes (bs : List Byte) : List Symbol := bitsToSymbols (bytesToBits bs)

/-- The bytes of a symbol sequence: one for every four symbols, the rest dropped (R145, R146). -/
def bytesOfSymbols (qs : List Symbol) : List Byte := bitsToBytes (symbolsToBits qs)

/-- `Exec` of PACK (R147). -/
def evalPack (s : State) : Except CmdError Update := do
  s.checkLen .dinLen s.params.pDin
  let n := s.regs.dinLen.toNat
  checkCap (4 * n) s.params.pSym
  return { sym := symbolsOfBytes s.din, symLen := some (BitVec.ofNat 32 (4 * n)) }

/-- PACK: the bytes of DIN as symbols in SYM (R147). -/
def execPack (s : State) : Host.Outcome State Fault Refusal :=
  .next (s.complete (evalPack s))

/-- `Exec` of UNPACK (R148). -/
def evalUnpack (s : State) : Except CmdError Update := do
  s.checkLen .symLen s.params.pSym
  let m := s.regs.symLen.toNat
  checkCap (m / 4) s.params.pDout
  return { dout := bytesOfSymbols s.symbols, doutLen := some (BitVec.ofNat 32 (m / 4)) }

/-- UNPACK: the symbols of SYM as bytes in DOUT (R148). -/
def execUnpack (s : State) : Host.Outcome State Fault Refusal :=
  .next (s.complete (evalUnpack s))

end Sys2Proof.Machine
end

