-- ==== Sys2Proof/Machine/Framer.lean ====
section
/-! DEFINITION. The container framer: symbol characters, base64, metadata, containers, FRAME and UNFRAME
(spec/44_framer.md). -/

namespace Sys2Proof.Machine

/-! ### Symbol characters -/

/-- The character of a symbol: A, G, C, T (R200). -/
def symbolChar (q : Symbol) : Byte :=
  if q = 0 then 0x41 else if q = 1 then 0x47 else if q = 2 then 0x43 else 0x54

/-- The symbol of a character, if it is a symbol character (R201). -/
def charSymbol (c : Byte) : Option Symbol :=
  if c = 0x41 then some 0
  else if c = 0x47 then some 1
  else if c = 0x43 then some 2
  else if c = 0x54 then some 3
  else none

/-- `charsOf(seq)` (R200). -/
def charsOf (seq : List Symbol) : List Byte := seq.map symbolChar

/-- `symbolsOfChars(r)`, counting positions from `j`: the symbols, or the least position whose byte is not a symbol
character (R201). -/
def symbolsOfCharsFrom (j : Nat) : List Byte → Except Nat (List Symbol)
  | [] => .ok []
  | c :: rest =>
    match charSymbol c with
    | none => .error j
    | some q =>
      match symbolsOfCharsFrom (j + 1) rest with
      | .error e => .error e
      | .ok qs => .ok (q :: qs)

/-- `symbolsOfChars(r)` (R201). -/
def symbolsOfChars (r : List Byte) : Except Nat (List Symbol) := symbolsOfCharsFrom 0 r

/-! ### Base64 -/

/-- The pad character `=` (R202). -/
def padChar : Byte := 0x3D

/-- The character of a 6-bit value (R202). -/
def b64Char (v : BitVec 6) : Byte :=
  if v.toNat < 26 then BitVec.ofNat 8 (0x41 + v.toNat)
  else if v.toNat < 52 then BitVec.ofNat 8 (0x61 + (v.toNat - 26))
  else if v.toNat < 62 then BitVec.ofNat 8 (0x30 + (v.toNat - 52))
  else if v.toNat = 62 then 0x2B
  else 0x2F

/-- The 6-bit value of an alphabet character (R202). -/
def b64Value (c : Byte) : Option (BitVec 6) :=
  if 0x41 ≤ c.toNat ∧ c.toNat ≤ 0x5A then some (BitVec.ofNat 6 (c.toNat - 0x41))
  else if 0x61 ≤ c.toNat ∧ c.toNat ≤ 0x7A then some (BitVec.ofNat 6 (c.toNat - 0x61 + 26))
  else if 0x30 ≤ c.toNat ∧ c.toNat ≤ 0x39 then some (BitVec.ofNat 6 (c.toNat - 0x30 + 52))
  else if c = 0x2B then some 62
  else if c = 0x2F then some 63
  else none

/-- The four characters of three bytes, before padding (R203). -/
def b64Quad (x y z : Byte) : List Byte :=
  let v : BitVec 24 := x ++ y ++ z
  [b64Char (v.extractLsb' 18 6), b64Char (v.extractLsb' 12 6), b64Char (v.extractLsb' 6 6), b64Char (v.extractLsb' 0 6)]

/-- `b64enc(b)`: three bytes to four characters, a short last group padded (R203). -/
def b64enc : List Byte → List Byte
  | [] => []
  | [x] => (b64Quad x 0 0).take 2 ++ [padChar, padChar]
  | [x, y] => (b64Quad x y 0).take 3 ++ [padChar]
  | x :: y :: z :: rest => b64Quad x y z ++ b64enc rest

/-- The value of a character in a quartet, the pad character counting as 0 (R204). -/
def b64ValueOrZero (c : Byte) : BitVec 6 := (b64Value c).getD 0

/-- The bytes of the quartets of a payload, before the padding is dropped (R204, check 4). -/
def b64Quartets : List Byte → List Byte
  | a :: b :: c :: d :: rest =>
    let v : BitVec 24 := b64ValueOrZero a ++ b64ValueOrZero b ++ b64ValueOrZero c ++ b64ValueOrZero d
    v.extractLsb' 16 8 :: v.extractLsb' 8 8 :: v.extractLsb' 0 8 :: b64Quartets rest
  | _ => []

/-- A character of a base64 payload: of the alphabet, or the pad character (R204, check 1). -/
def b64Legal (c : Byte) : Bool := (b64Value c).isSome || c == padChar

/-- The number of pad characters at the end (R204, check 3). -/
def padCount (p : List Byte) : Nat := (p.reverse.takeWhile (· == padChar)).length

/-- `b64dec(p)`: the bytes, or the failing position; the checks in the order of R204. -/
def b64dec (p : List Byte) : Except Nat (List Byte) :=
  match p.findIdx? (fun c => !b64Legal c) with
  | some i => .error i
  | none =>
    if p.length % 4 ≠ 0 then .error p.length
    else
      let q := padCount p
      if q > 2 ∨ (p.take (p.length - q)).any (· == padChar) then .error (p.findIdx (· == padChar))
      else .ok ((b64Quartets p).take ((b64Quartets p).length - q))

/-! ### Media types and metadata -/

/-- A valid media-type byte: printable ASCII but for the double quote and the backslash (R205). -/
def mediaByteOk (c : Byte) : Bool :=
  decide (0x20 ≤ c.toNat) && decide (c.toNat ≤ 0x7E) && c != 0x22 && c != 0x5C

/-- The first nine bytes of the metadata (R205). -/
def metaPrefix : List Byte := [0x7B, 0x22, 0x74, 0x79, 0x70, 0x65, 0x22, 0x3A, 0x22]

/-- The last two bytes of the metadata (R205). -/
def metaSuffix : List Byte := [0x22, 0x7D]

/-- `META(mt)` (R205). -/
def metaBytes (mt : List Byte) : List Byte := metaPrefix ++ mt ++ metaSuffix

/-- "text/plain" (R206). -/
def textPlain : List Byte := [0x74, 0x65, 0x78, 0x74, 0x2F, 0x70, 0x6C, 0x61, 0x69, 0x6E]

/-- "application/octet-stream" (R206). -/
def octetStream : List Byte :=
  [0x61, 0x70, 0x70, 0x6C, 0x69, 0x63, 0x61, 0x74, 0x69, 0x6F, 0x6E, 0x2F,
   0x6F, 0x63, 0x74, 0x65, 0x74, 0x2D, 0x73, 0x74, 0x72, 0x65, 0x61, 0x6D]

/-- `default(kind)` (R206). -/
def defaultMediaType : PayloadKind → List Byte
  | .text => textPlain
  | .binary => octetStream

/-- The media type an encoding command writes: "text/plain" for an empty one (R206, R208). -/
def mediaTypeOr (mt : List Byte) : List Byte := if mt.length > 0 then mt else textPlain

/-- `recognizeMeta(L)` (R207). -/
def recognizeMeta (l : List Byte) : Option (List Byte) :=
  match b64dec l with
  | .error _ => none
  | .ok r =>
    let mt := (r.drop 9).take (r.length - 11)
    if r.length ≥ 11 ∧ r.take 9 = metaPrefix ∧ r.drop (r.length - 2) = metaSuffix ∧ mt.all mediaByteOk then some mt
    else none

/-! ### Containers -/

/-- The separator ":" (R208). -/
def colonChar : Byte := 0x3A

/-- `encodeContainer(seq, mt, untag)` (R208). -/
def encodeContainer (seq : List Symbol) (mt : List Byte) (untag : Bool) : List Byte :=
  let payload := b64enc (charsOf seq)
  if untag then payload
  else b64enc (metaBytes (mediaTypeOr mt)) ++ [colonChar] ++ payload

/-- What a container holds. -/
structure Parsed where
  seq : List Symbol
  mt : List Byte
deriving DecidableEq, Repr

/-- The payload segment `r`, which starts at position `base` of the container, with media type `mt` (R209). -/
def parsePayload (r : List Byte) (base : Nat) (mt : List Byte) : Except CmdError Parsed :=
  match b64dec r with
  | .error e => .error ⟨.containerDecode, BitVec.ofNat 32 (base + e)⟩
  | .ok bytes =>
    match symbolsOfChars bytes with
    | .error j => .error ⟨.symbolDecode, BitVec.ofNat 32 j⟩
    | .ok seq => .ok ⟨seq, mt⟩

/-- `parseContainer(s, kind)`: split at the first ":", if there is one (R209). -/
def parseContainer (c : List Byte) (kind : PayloadKind) : Except CmdError Parsed :=
  match c.findIdx? (· == colonChar) with
  | some p =>
    parsePayload (c.drop (p + 1)) (p + 1) ((recognizeMeta (c.take p)).getD (defaultMediaType kind))
  | none => parsePayload c 0 (defaultMediaType kind)

/-! ### Commands -/

/-- The length of the media type is checked when the container is tagged (R211, R240). -/
def State.checkMediaLen (s : State) (untag : Bool) : Except CmdError Unit :=
  if untag then .ok () else s.checkLen .mtLen s.params.pMt

/-- The bytes of the media type are checked when the container is tagged; the least invalid index is reported
(R211, R240). -/
def State.checkMediaBytes (s : State) (untag : Bool) : Except CmdError Unit :=
  if untag then .ok ()
  else match s.mt.findIdx? (fun c => !mediaByteOk c) with
    | some i => .error ⟨.badMediaType, BitVec.ofNat 32 i⟩
    | none => .ok ()

/-- `Exec` of FRAME (R211). With UNTAG = 1 the container does not depend on MT. -/
def evalFrame (untag : Bool) (s : State) : Except CmdError Update := do
  s.checkLen .symLen s.params.pSym
  s.checkMediaLen untag
  s.checkMediaBytes untag
  let c := encodeContainer s.symbols s.mt untag
  checkCap c.length s.params.pDout
  return { dout := c, doutLen := some (BitVec.ofNat 32 c.length) }

/-- FRAME: the container of the symbols in SYM, to DOUT (R211). -/
def execFrame (untag : Bool) (s : State) : Host.Outcome State Fault Refusal :=
  .next (s.complete (evalFrame untag s))

/-- `Exec` of UNFRAME (R212). -/
def evalUnframe (kind : Kind) (s : State) : Except CmdError Update := do
  let k ← checkKind kind
  s.checkLen .dinLen s.params.pDin
  let p ← parseContainer s.din k
  checkCap p.seq.length s.params.pSym
  checkCap p.mt.length s.params.pMt
  return {
    sym := p.seq
    symLen := some (BitVec.ofNat 32 p.seq.length)
    mt := p.mt
    mtLen := some (BitVec.ofNat 32 p.mt.length) }

/-- UNFRAME: parse the container in DIN into SYM and MT (R212). -/
def execUnframe (kind : Kind) (s : State) : Host.Outcome State Fault Refusal :=
  .next (s.complete (evalUnframe kind s))

end Sys2Proof.Machine
end

