-- ==== Sys2Proof/Machine/Keystream.lean ====
section
/-! DEFINITION. The passphrase hash, the key-stream generator and DERIVE (spec/42_keystream.md). -/

namespace Sys2Proof.Machine

/-- One step of the rolling hash: `(h * 31 + unit) mod 2^32`, where `2^32 = 4294967296` (R160). -/
def hashStep (h : Nat) (u : CodeUnit) : Nat := (h * 31 + u.toNat) % 4294967296

/-- The hash of a passphrase, an unsigned value below 2^32 (R160). -/
def passHash (key : List CodeUnit) : Nat := key.foldl hashStep 0

/-- One step of the generator (R161). -/
def lcgNext (x : Nat) : Nat := (x * 9301 + 49297) % 233280

/-- The symbol drawn in generator state `x` (R161). -/
def lcgSymbol (x : Nat) : Symbol := BitVec.ofNat 2 (x / 58320)

/-- `n` draws from generator state `x`: the symbols in order and the state after the last draw. The state is updated
before it selects a symbol (R161, R162). -/
def drawSymbols : Nat → Nat → List Symbol × Nat
  | 0, x => ([], x)
  | n + 1, x =>
    let y := lcgNext x
    let r := drawSymbols n y
    (lcgSymbol y :: r.1, r.2)

/-- What `deriveKeyStream` returns: the key stream, the hash and the final state (R162). -/
structure Derived where
  ks : List Symbol
  hash : Nat
  state : Nat
deriving DecidableEq, Repr

/-- `deriveKeyStream(key, n)` (R162). -/
def deriveKeyStream (key : List CodeUnit) (n : Nat) : Derived :=
  let h := passHash key
  let r := drawSymbols n h
  { ks := r.1, hash := h, state := r.2 }

/-- `Exec` of DERIVE (R164). -/
def evalDerive (s : State) : Except CmdError Update := do
  s.checkLen .keyLen s.params.pKey
  s.checkLen .ksReq s.params.pSym
  s.checkKeyPresent
  let d := deriveKeyStream s.key s.regs.ksReq.toNat
  return {
    ks := d.ks
    ksLen := some s.regs.ksReq
    hash := some (BitVec.ofNat 32 d.hash)
    lcg := some (BitVec.ofNat 32 d.state) }

/-- DERIVE: a key stream of KS_REQ symbols from the passphrase in KEY (R164). -/
def execDerive (s : State) : Host.Outcome State Fault Refusal :=
  .next (s.complete (evalDerive s))

end Sys2Proof.Machine
end

