-- ==== Sys2Proof/Machine/Substitution.lean ====
section
/-! DEFINITION. The substitution engine: table lookup and its inverse, SUBST and UNSUBST (spec/43_substitution.md). -/

namespace Sys2Proof.Machine

/-- The four symbols (R14). -/
def allSymbols : List Symbol := [0, 1, 2, 3]

/-- `T[k][d]` (R180). -/
def tableAt (t : SubstTable) (k d : Symbol) : Symbol := (t.get k.toFin).get d.toFin

/-- The Latin-square condition (R181): each row and each column is a permutation of the four symbols. -/
def isLatin (t : SubstTable) : Bool :=
  allSymbols.all fun k => allSymbols.all fun d => allSymbols.all fun e =>
    d == e || (tableAt t k d != tableAt t k e && tableAt t d k != tableAt t e k)

/-- `Tinv[k][c]`: the `d` with `T[k][d] = c` (R182). It exists for every Latin square; for another table, which `step`
refuses, the value 0 stands where there is no such `d` (log 21). -/
def tableInv (t : SubstTable) (k c : Symbol) : Symbol :=
  (allSymbols.find? fun d => tableAt t k d == c).getD 0

/-- The key symbol at position `i`: the key stream is cycled (R183). With an empty key stream there is no such symbol;
the commands report MISSING_INPUT before they ask for one (R185, log 23). -/
def keySymbol (ks : List Symbol) (i : Nat) : Symbol := ks.getD (i % ks.length) 0

/-- `substitute(seq, ks)` (R183). -/
def substitute (t : SubstTable) (seq ks : List Symbol) : List Symbol :=
  seq.mapIdx fun i d => tableAt t (keySymbol ks i) d

/-- `unsubstitute(seq, ks)` (R183). -/
def unsubstitute (t : SubstTable) (seq ks : List Symbol) : List Symbol :=
  seq.mapIdx fun i c => tableInv t (keySymbol ks i) c

/-- Symbols to transform need a key stream (R185, D25). -/
def State.checkKeyStream (s : State) : Except CmdError Unit :=
  if 0 < s.regs.symLen.toNat ∧ s.regs.ksLen.toNat = 0 then
    .error ⟨.missingInput, BitVec.ofNat 32 Reg.ksLen.offset⟩
  else .ok ()

/-- `Exec` of SUBST (R185). -/
def evalSubst (s : State) : Except CmdError Update := do
  s.checkLen .symLen s.params.pSym
  s.checkLen .ksLen s.params.pSym
  s.checkKeyStream
  return { sym := substitute s.params.table s.symbols s.keyStream }

/-- SUBST: substitute the symbols in SYM under the key stream in KS, in place (R185). -/
def execSubst (s : State) : Host.Outcome State Fault Refusal :=
  .next (s.complete (evalSubst s))

/-- `Exec` of UNSUBST (R186). -/
def evalUnsubst (s : State) : Except CmdError Update := do
  s.checkLen .symLen s.params.pSym
  s.checkLen .ksLen s.params.pSym
  s.checkKeyStream
  return { sym := unsubstitute s.params.table s.symbols s.keyStream }

/-- UNSUBST: invert the substitution of SYM under KS, in place (R186). -/
def execUnsubst (s : State) : Host.Outcome State Fault Refusal :=
  .next (s.complete (evalUnsubst s))

end Sys2Proof.Machine
end

