-- ==== Sys2Proof/Machine/Pipeline.lean ====
section
/-! DEFINITION. The pipeline sequencer: ENCRYPT and DECRYPT (spec/45_pipeline.md). -/

namespace Sys2Proof.Machine

/-- `Exec` of ENCRYPT (R240). -/
def evalEncrypt (kind : Kind) (untag : Bool) (s : State) : Except CmdError Update := do
  let _k ← checkKind kind
  s.checkLen .dinLen s.params.pDin
  s.checkLen .keyLen s.params.pKey
  s.checkMediaLen untag
  s.checkKeyPresent
  s.checkKeyLong
  s.checkMediaBytes untag
  let n := s.regs.dinLen.toNat
  checkCap (4 * n) s.params.pSym
  let q := symbolsOfBytes s.din
  let d := deriveKeyStream s.key (4 * n)
  let cs := substitute s.params.table q d.ks
  let c := encodeContainer cs s.mt untag
  checkCap c.length s.params.pDout
  return {
    sym := cs
    symLen := some (BitVec.ofNat 32 (4 * n))
    ks := d.ks
    ksLen := some (BitVec.ofNat 32 (4 * n))
    hash := some (BitVec.ofNat 32 d.hash)
    lcg := some (BitVec.ofNat 32 d.state)
    dout := c
    doutLen := some (BitVec.ofNat 32 c.length) }

/-- ENCRYPT: the payload in DIN, under the passphrase in KEY, as a container in DOUT (R240). -/
def execEncrypt (kind : Kind) (untag : Bool) (s : State) : Host.Outcome State Fault Refusal :=
  .next (s.complete (evalEncrypt kind untag s))

/-- `Exec` of DECRYPT (R241). -/
def evalDecrypt (kind : Kind) (s : State) : Except CmdError Update := do
  let k ← checkKind kind
  s.checkLen .dinLen s.params.pDin
  s.checkLen .keyLen s.params.pKey
  s.checkKeyPresent
  s.checkKeyLong
  let p ← parseContainer s.din k
  let m := p.seq.length
  checkCap m s.params.pSym
  checkCap p.mt.length s.params.pMt
  let d := deriveKeyStream s.key m
  let q := unsubstitute s.params.table p.seq d.ks
  checkCap (m / 4) s.params.pDout
  return {
    sym := q
    symLen := some (BitVec.ofNat 32 m)
    ks := d.ks
    ksLen := some (BitVec.ofNat 32 m)
    hash := some (BitVec.ofNat 32 d.hash)
    lcg := some (BitVec.ofNat 32 d.state)
    dout := bytesOfSymbols q
    doutLen := some (BitVec.ofNat 32 (m / 4))
    mt := p.mt
    mtLen := some (BitVec.ofNat 32 p.mt.length) }

/-- DECRYPT: the container in DIN, under the passphrase in KEY, as bytes in DOUT and a media type in MT (R241). -/
def execDecrypt (kind : Kind) (s : State) : Host.Outcome State Fault Refusal :=
  .next (s.complete (evalDecrypt kind s))

end Sys2Proof.Machine
end

