-- ==== Sys2Proof/Machine/Dispatch.lean ====
section
/-! DEFINITION. One arm per command: the completion of the command in the state it was issued in
(spec/40_command_execution.md R122, R123). -/

namespace Sys2Proof.Machine

def exec (i : Instr) (s : State) : Host.Outcome State Fault Refusal :=
  match i with
  | .nop => Sys2Proof.Machine.execNop s
  | .pack => Sys2Proof.Machine.execPack s
  | .unpack => Sys2Proof.Machine.execUnpack s
  | .derive => Sys2Proof.Machine.execDerive s
  | .subst => Sys2Proof.Machine.execSubst s
  | .unsubst => Sys2Proof.Machine.execUnsubst s
  | .frame untag => Sys2Proof.Machine.execFrame untag s
  | .unframe kind => Sys2Proof.Machine.execUnframe kind s
  | .encrypt kind untag => Sys2Proof.Machine.execEncrypt kind untag s
  | .decrypt kind => Sys2Proof.Machine.execDecrypt kind s

end Sys2Proof.Machine
end

