-- ==== Sys2Proof/WellFormed.lean ====
section
/-! DEFINITION. Which terms of Instr a command word can stand for (spec/30_encoding.md R100, R102). -/

namespace Sys2Proof

/-- A kind that is not implemented is a value of the 4-bit field KIND other than 0 and 1 (R102). -/
def Kind.wellFormed : Kind → Bool
  | .supported _ => true
  | .other n => decide (2 ≤ n) && decide (n ≤ 15)

/-- Every operand fits its field of the command word (R100). -/
def Instr.wellFormed : Instr → Bool
  | .nop => true
  | .pack => true
  | .unpack => true
  | .derive => true
  | .subst => true
  | .unsubst => true
  | .frame _ => true
  | .unframe kind => kind.wellFormed
  | .encrypt kind _ => kind.wellFormed
  | .decrypt kind => kind.wellFormed

end Sys2Proof
end

