-- ==== Sys2Proof/Decode.lean ====
section
/-! DEFINITION. The command word: decoder, encoder, and the host's entry point (spec/30_encoding.md R100 to R109). -/

namespace Sys2Proof

/-- Why a command word is illegal (R105). -/
inductive DecodeError where
  /-- OP is in 0x0A to 0xFF. -/
  | reservedOpcode (op : Nat)
  /-- RSV is not 0 (R104). -/
  | reservedBits
  /-- KIND is not 0 and the opcode does not use KIND. -/
  | kindNotUsed
  /-- UNTAG is 1 and the opcode does not use UNTAG. -/
  | untagNotUsed
deriving DecidableEq, Repr

/-- Field OP, bits [7:0] (R100). -/
def fieldOp (w : Word) : Byte := w.extractLsb' 0 8

/-- Field KIND, bits [11:8] (R100). -/
def fieldKind (w : Word) : BitVec 4 := w.extractLsb' 8 4

/-- Field UNTAG, bit 12 (R100). -/
def fieldUntag (w : Word) : Bool := w.getLsbD 12

/-- Field RSV, bits [31:13] (R100). -/
def fieldRsv (w : Word) : BitVec 19 := w.extractLsb' 13 19

/-- The kind a value of the field KIND stands for (R102). -/
def decodeKind (k : BitVec 4) : Kind :=
  if k = 0 then .supported .text
  else if k = 1 then .supported .binary
  else .other k.toNat

/-- An opcode that uses neither KIND nor UNTAG (R105). -/
def decodePlain (w : Word) (i : Instr) : Except DecodeError Instr :=
  if fieldKind w ≠ 0 then .error .kindNotUsed
  else if fieldUntag w then .error .untagNotUsed
  else .ok i

/-- An opcode that uses UNTAG only (R105). -/
def decodeUntagged (w : Word) (f : Bool → Instr) : Except DecodeError Instr :=
  if fieldKind w ≠ 0 then .error .kindNotUsed
  else .ok (f (fieldUntag w))

/-- An opcode that uses KIND only (R105). -/
def decodeKinded (w : Word) (f : Kind → Instr) : Except DecodeError Instr :=
  if fieldUntag w then .error .untagNotUsed
  else .ok (f (decodeKind (fieldKind w)))

/-- An opcode that uses KIND and UNTAG (R105). -/
def decodeBoth (w : Word) (f : Kind → Bool → Instr) : Except DecodeError Instr :=
  .ok (f (decodeKind (fieldKind w)) (fieldUntag w))

/-- The decoder: OP selects the command, then the other fields are checked (R101, R105, R107). Every 32-bit word is
either a command or refused by name. -/
def decode (w : Word) : Except DecodeError Instr :=
  if fieldRsv w ≠ 0 then .error .reservedBits
  else match (fieldOp w).toNat with
    | 0x00 => decodePlain w .nop
    | 0x01 => decodePlain w .pack
    | 0x02 => decodePlain w .unpack
    | 0x03 => decodePlain w .derive
    | 0x04 => decodePlain w .subst
    | 0x05 => decodePlain w .unsubst
    | 0x06 => decodeUntagged w .frame
    | 0x07 => decodeKinded w .unframe
    | 0x08 => decodeBoth w .encrypt
    | 0x09 => decodeKinded w .decrypt
    | op => .error (.reservedOpcode op)

/-- The opcode numbers (R101). -/
def opcode : Instr → Byte
  | .nop => 0x00
  | .pack => 0x01
  | .unpack => 0x02
  | .derive => 0x03
  | .subst => 0x04
  | .unsubst => 0x05
  | .frame _ => 0x06
  | .unframe _ => 0x07
  | .encrypt _ _ => 0x08
  | .decrypt _ => 0x09

/-- The field KIND of a kind (R102). -/
def encodeKind : Kind → BitVec 4
  | .supported .text => 0
  | .supported .binary => 1
  | .other n => BitVec.ofNat 4 n

/-- The KIND field of a command: 0 where the opcode does not use it (R100). -/
def kindField : Instr → BitVec 4
  | .nop => 0
  | .pack => 0
  | .unpack => 0
  | .derive => 0
  | .subst => 0
  | .unsubst => 0
  | .frame _ => 0
  | .unframe kind => encodeKind kind
  | .encrypt kind _ => encodeKind kind
  | .decrypt kind => encodeKind kind

/-- The UNTAG bit of a command: 0 where the opcode does not use it (R100). -/
def untagField : Instr → Bool
  | .nop => false
  | .pack => false
  | .unpack => false
  | .derive => false
  | .subst => false
  | .unsubst => false
  | .frame untag => untag
  | .unframe _ => false
  | .encrypt _ untag => untag
  | .decrypt _ => false

/-- The encoder: `word = OP | KIND << 8 | UNTAG << 12` (R109). -/
def encode (i : Instr) : Word :=
  (opcode i).setWidth 32 ||| ((kindField i).setWidth 32 <<< 8)
    ||| ((BitVec.ofBool (untagField i)).setWidth 32 <<< 12)

/-- The host's entry point: the command the decoder reads from a row's bits. A command word is one 32-bit word
(R107), so bits the table leaves out are 0 and a longer row is no command. -/
def decodeTableWord (nbits w : Nat) : Option Instr :=
  if nbits ≤ 32 then
    match decode (BitVec.ofNat 32 (w % 2 ^ nbits)) with
    | .ok i => some i
    | .error _ => none
  else none

end Sys2Proof
end

