-- ==== Sys2Proof/Machine/Interface.lean ====
section
/-! DEFINITION. The register interface: the address map, host reads and writes, soft reset and power-on reset
(spec/20_memory.md; spec/10_state.md R32 to R49; spec/70_reset_and_hazards.md R290, R291, R300, R301). -/

namespace Sys2Proof.Machine

/-! ### Parameters -/

/-- The legal values of the parameters (R7; the Latin square of spec/43_substitution.md R181). -/
def paramsLegal (p : Params) : Bool :=
  decide (4 ≤ p.pDin ∧ p.pDin ≤ 4194304 ∧ p.pDin % 4 = 0
    ∧ 4 ≤ p.pDout ∧ p.pDout ≤ 4194304 ∧ p.pDout % 4 = 0
    ∧ 8 ≤ p.pKey ∧ p.pKey ≤ 4096 ∧ p.pKey % 2 = 0
    ∧ 24 ≤ p.pMt ∧ p.pMt ≤ 4096 ∧ p.pMt % 4 = 0
    ∧ 16 ≤ p.pSym ∧ p.pSym ≤ 8388608 ∧ p.pSym % 16 = 0
    ∧ p.base % 16777216 = 0
    ∧ isLatin p.table = true)

/-! ### Address map -/

/-- What stands at a block offset (R71). -/
inductive Place where
  | reg (r : Reg)
  | reserved
  | window
  | unmapped
deriving DecidableEq, Repr

/-- `off` lies in the `size` bytes from `win`. -/
abbrev InRange (win size off : Nat) : Prop := win ≤ off ∧ off < win + size

/-- `off` lies in the mapped part of a window (R71). -/
def windowMapped (p : Params) (off : Nat) : Bool :=
  decide (InRange mtWin p.pMt off ∨ InRange keyWin (2 * p.pKey) off
    ∨ InRange dinWin p.pDin off ∨ InRange doutWin p.pDout off
    ∨ InRange symWin (p.pSym / 4) off ∨ InRange ksWin (p.pSym / 4) off)

/-- The address map (R71); reserved register offsets are R49. -/
def placeAt (p : Params) (off : Nat) : Place :=
  if off < 0x001000 then
    match Reg.ofOffset off with
    | some r => .reg r
    | none => .reserved
  else if windowMapped p off then .window
  else .unmapped

/-- The block offset a byte address of the host's bus reaches: `BASE + offset` (R70). An address outside the 16 MiB
from BASE does not reach this block (log 13). -/
def offsetOf (p : Params) (addr : Nat) : Option Nat :=
  if p.base ≤ addr ∧ addr < p.base + 0x1000000 then some (addr - p.base) else none

/-- The interface accepts 32-bit accesses at multiples of 4 only (R75). -/
def accessAccepted (width off : Nat) : Bool := decide (width = 32) && decide (off % 4 = 0)

/-! ### Evaluation of the command in flight -/

/-- `Exec` of a command (R122): its evaluation, without its completion. -/
def evalInstr (i : Instr) (s : State) : Except CmdError Update :=
  match i with
  | .nop => evalNop
  | .pack => evalPack s
  | .unpack => evalUnpack s
  | .derive => evalDerive s
  | .subst => evalSubst s
  | .unsubst => evalUnsubst s
  | .frame untag => evalFrame untag s
  | .unframe kind => evalUnframe kind s
  | .encrypt kind untag => evalEncrypt kind untag s
  | .decrypt kind => evalDecrypt kind s

/-- `Exec(v, S0)` of a command word: check X1 of R126 is the decoder's refusal (R105, R122). -/
def evalWord (v : Word) (s : State) : Except CmdError Update :=
  match decode v with
  | .ok i => evalInstr i s
  | .error _ => .error ⟨.illegalCmd, 0⟩

/-! ### Resets -/

/-- How many elements at the start of each buffer a command writes. -/
structure Extent where
  sym : Nat := 0
  ks : Nat := 0
  dout : Nat := 0
  mt : Nat := 0
deriving DecidableEq, Repr

/-- The prefixes a successful evaluation writes. -/
def Update.extent (u : Update) : Extent where
  sym := u.sym.length
  ks := u.ks.length
  dout := u.dout.length
  mt := u.mt.length

/-- The length of the container of `n` symbols with a media type of `k` bytes (spec/44_framer.md R208). -/
def containerLen (n k : Nat) (untag : Bool) : Nat :=
  if untag then 4 * ((n + 2) / 3)
  else 4 * ((11 + (if k > 0 then k else 10) + 2) / 3) + 1 + 4 * ((n + 2) / 3)

/-- How many symbols and how many media-type bytes the container in DIN holds, for a command with payload kind `kind`
(spec/44_framer.md R209); none when it has no parse, or when DIN_LEN exceeds DIN. For a kind that is not implemented the
symbols are the same, and so is a recognised media type; R206 gives that kind no default, so any length up to the
buffer's stands for it (log 9). -/
def State.parsedLengths (s : State) (kind : Kind) : Option (Nat × Nat) :=
  if s.params.pDin < s.regs.dinLen.toNat then none
  else match kind with
    | .supported k =>
      match parseContainer s.din k with
      | .ok p => some (p.seq.length, p.mt.length)
      | .error _ => none
    | .other _ =>
      match parseContainer s.din .text, parseContainer s.din .binary with
      | .ok p, .ok q => some (p.seq.length, if p.mt = q.mt then p.mt.length else s.params.pMt)
      | _, _ => none

/-- The prefixes a command's rule names as written on success, taken from its operands without its checks (R106). For
UNFRAME and DECRYPT the container in DIN says how much; where it has no parse the whole destination buffers stand
(log 9). -/
def namedExtent (i : Instr) (s : State) : Extent :=
  match i with
  | .nop => {}
  | .pack => { sym := 4 * s.regs.dinLen.toNat }
  | .unpack => { dout := s.regs.symLen.toNat / 4 }
  | .derive => { ks := s.regs.ksReq.toNat }
  | .subst => { sym := s.regs.symLen.toNat }
  | .unsubst => { sym := s.regs.symLen.toNat }
  | .frame untag => { dout := containerLen s.regs.symLen.toNat s.regs.mtLen.toNat untag }
  | .unframe kind =>
    match s.parsedLengths kind with
    | some (m, k) => { sym := m, mt := k }
    | none => { sym := s.params.pSym, mt := s.params.pMt }
  | .encrypt _ untag =>
    { sym := 4 * s.regs.dinLen.toNat
      ks := 4 * s.regs.dinLen.toNat
      dout := containerLen (4 * s.regs.dinLen.toNat) s.regs.mtLen.toNat untag }
  | .decrypt kind =>
    match s.parsedLengths kind with
    | some (m, k) => { sym := m, ks := m, dout := m / 4, mt := k }
    | none => { sym := s.params.pSym, ks := s.params.pSym, dout := s.params.pDout, mt := s.params.pMt }

/-- At most the whole buffer (R291). -/
def Extent.clip (x : Extent) (p : Params) : Extent where
  sym := min x.sym p.pSym
  ks := min x.ks p.pSym
  dout := min x.dout p.pDout
  mt := min x.mt p.pMt

/-- The elements that become unspecified when the command in flight is abandoned: what it would have written; for a
command that would have ended in error, what its rule names as written on success, at most the whole buffer
(R291; DEDUCED, log 9). An illegal word has no rule and no destination. -/
def State.abandonedExtent (s : State) : Extent :=
  match decode s.regs.cmd with
  | .error _ => {}
  | .ok i =>
    match evalInstr i s with
    | .ok u => u.extent
    | .error _ => (namedExtent i s).clip s.params

/-- A free value for every element of the prefixes, numbered by `k` (R291, I10; log 9). -/
def Extent.free (x : Extent) (k : Nat) : Update where
  sym := (List.range x.sym).map fun i => Config.abandonedSymbol k symWin i
  ks := (List.range x.ks).map fun i => Config.abandonedSymbol k ksWin i
  dout := (List.range x.dout).map fun i => Config.abandonedByte k doutWin i
  mt := (List.range x.mt).map fun i => Config.abandonedByte k mtWin i

/-- The buffers after the command in flight is abandoned (R291). -/
def State.abandonedMem (s : State) : Memory :=
  s.mem.applyUpdate (s.abandonedExtent.free s.fresh)

/-- Soft reset (R291): every register at its reset value, the engine idle; a command in flight is abandoned. -/
def State.softReset (s : State) : State :=
  if s.regs.status.busy then
    { s with regs := Regs.reset, mem := s.abandonedMem, fresh := s.fresh + 1 }
  else { s with regs := Regs.reset }

/-- Power-on reset (R290): registers at their reset values, every buffer element a new arbitrary value. The parameters
belong to the instance and stay; the host's later accesses stay pending (log 16). -/
def State.powerCycle (s : State) : State where
  params := s.params
  regs := Regs.reset
  mem := { gen := s.fresh + 1, cells := [] }
  rdata := none
  pending := s.pending
  fresh := s.fresh + 1

/-! ### Reads -/

/-- A host read returns `v`. -/
def State.answer (s : State) (v : Word) : State := { s with rdata := some v }

/-- A read that returns an unspecified value (R301, I9; log 8). -/
def State.answerFree (s : State) : State :=
  { s with rdata := some (Config.busyWord s.fresh), fresh := s.fresh + 1 }

/-- Registers whose reads are exact while the block is busy (R301). -/
def Reg.exactWhileBusy : Reg → Bool
  | .id => true
  | .version => true
  | .ctrl => true
  | .status => true
  | .cmd => true
  | .errpos => true
  | .dinLen => false
  | .keyLen => false
  | .mtLen => false
  | .doutLen => false
  | .symLen => false
  | .ksLen => false
  | .ksReq => false
  | .hash => false
  | .lcg => false
  | .capDin => true
  | .capDout => true
  | .capKey => true
  | .capMt => true
  | .capSym => true

/-- A host read of `width` bits at block offset `off` (R75 to R77, R301). -/
def State.hostRead (s : State) (off width : Nat) : State :=
  if accessAccepted width off then
    match placeAt s.params off with
    | .reg r => if s.regs.status.busy && !r.exactWhileBusy then s.answerFree else s.answer (s.readReg r)
    | .reserved => s.answer 0
    | .window => if s.regs.status.busy then s.answerFree else s.answer (s.mem.word off)
    | .unmapped => s.setAerr.answer 0
  else s.setAerr.answer 0

/-! ### Writes -/

/-- A write that the busy block ignores (R300); otherwise the registers become `r`. -/
def State.writeIdle (s : State) (r : Regs) : State :=
  if s.regs.status.busy then s.setWib else { s with regs := r }

/-- An accepted host write of `v` to a register, by its access type (R32 to R48, R300). -/
def State.writeReg (s : State) (r : Reg) (v : Word) : State :=
  match r with
  | .ctrl => if v.getLsbD 1 then s.softReset else { s with regs := { s.regs with ie := v.getLsbD 0 } }
  | .status => s.acknowledge v
  | .cmd => if s.regs.status.busy then s.setWib else s.issue v
  | .dinLen => s.writeIdle { s.regs with dinLen := v }
  | .keyLen => s.writeIdle { s.regs with keyLen := v }
  | .mtLen => s.writeIdle { s.regs with mtLen := v }
  | .symLen => s.writeIdle { s.regs with symLen := v }
  | .ksLen => s.writeIdle { s.regs with ksLen := v }
  | .ksReq => s.writeIdle { s.regs with ksReq := v }
  | .id => s
  | .version => s
  | .errpos => s
  | .doutLen => s
  | .hash => s
  | .lcg => s
  | .capDin => s
  | .capDout => s
  | .capKey => s
  | .capMt => s
  | .capSym => s

/-- A host write of `v`, `width` bits wide, at block offset `off` (R75 to R77, R300). -/
def State.hostWrite (s : State) (off width : Nat) (v : Word) : State :=
  if accessAccepted width off then
    match placeAt s.params off with
    | .reg r => s.writeReg r v
    | .reserved => s
    | .window => if s.regs.status.busy then s.setWib else { s with mem := s.mem.storeWord off v }
    | .unmapped => s.setAerr
  else s.setAerr

/-- One host access at a byte address of the host's bus (R70); an access to another address is not this block's
(log 13). -/
def State.performAccess (s : State) (a : Access) : State :=
  match a with
  | .read addr width =>
    match offsetOf s.params addr with
    | some off => s.hostRead off width
    | none => s
  | .write addr width v =>
    match offsetOf s.params addr with
    | some off => s.hostWrite off width v
    | none => s

end Sys2Proof.Machine
end

