-- ==== Sys2Proof/Machine/Engine.lean ====
section
/-! DEFINITION. The command engine's turn, and what one event does (spec/40_command_execution.md R120 to R123;
spec/20_memory.md R83). -/

namespace Sys2Proof.Machine

/-- The completion of the command in flight (R123). An illegal word completes with ILLEGAL_CMD at position 0
(spec/30_encoding.md R105). -/
def runCommand (s : State) : Host.Outcome State Fault Refusal :=
  match decode s.regs.cmd with
  | .ok i => exec i s
  | .error _ => .next (s.takeError ⟨.illegalCmd, 0⟩)

/-- The engine's turn: a busy engine completes its command, an idle one does nothing (R120, R123). -/
def engineTurn (s : State) : Host.Outcome State Fault Refusal :=
  if s.regs.status.busy then runCommand s else .next s

/-- What one event does to the block. -/
def performEvent (e : Event) (s : State) : Host.Outcome State Fault Refusal :=
  match e with
  | .host a => .next (s.performAccess a)
  | .engine => engineTurn s
  | .powerOn => .next s.powerCycle

/-- The next event is performed entirely, before the one after it (R83). With no event pending the engine has its turn,
so a command in flight always completes (R309; log 2). -/
def nextEvent (s : State) : Host.Outcome State Fault Refusal :=
  match s.pending with
  | [] => engineTurn s
  | e :: rest => performEvent e { s with pending := rest }

end Sys2Proof.Machine
end

