-- ==== Sys2Proof/Machine/Step.lean ====
section
/-! DEFINITION. One step of the machine, and the host's way to make it run one command. -/

namespace Sys2Proof.Machine

/-- The command word `w` stands issued in CMD and the engine's turn is next, so that the next step completes exactly that
command. The block has no program counter and fetches nothing (spec/10_state.md R31): this stands for the host's write
to CMD (log 15). -/
def State.withFetchWord (s : State) (nbits w : Nat) : State :=
  let t := s.issue (BitVec.ofNat 32 (w % 2 ^ nbits))
  { t with pending := .engine :: s.pending }

/-- One step: the next event. A block whose parameters are not legal is refused (R7, R181, I3; log 5). -/
def step (s : State) : Host.Outcome State Fault Refusal :=
  if paramsLegal s.params then nextEvent s else .refused .illegalParams

end Sys2Proof.Machine
end

