-- ==== Sys2Proof/Safety.lean ====
section
/-! DEFINITION. What counts as a good state and a good completion, in the terms the claims use. -/

namespace Sys2Proof.Machine

/-- The error codes that can ever stand in ERRCODE (spec/60_exceptions.md R260). -/
def assignedCodes : List Byte := [0x01, 0x02, 0x03, 0x04, 0x05, 0x10, 0x11, 0x12, 0x13]

/-- What holds of the block at power-on and after every step. -/
structure State.Inv (s : State) : Prop where
  /-- The parameters are legal (R7, R181). -/
  params : paramsLegal s.params = true
  /-- The memory has its canonical form (log 6). -/
  memWf : s.mem.wf = true
  /-- Only mapped offsets of the buffer windows were ever written (R71, R76). -/
  memMapped : ∀ c ∈ s.mem.cells, windowMapped s.params c.1 = true
  /-- ERR = 0 implies ERRCODE = 0 (R36). -/
  noErrNoCode : s.regs.status.err = false → s.regs.status.errcode = 0
  /-- ERR = 1 implies an assigned ERRCODE (R36, R260). -/
  errHasCode : s.regs.status.err = true → s.regs.status.errcode ∈ assignedCodes
  /-- While a command is in flight, DONE, ERR and ERRPOS are as issue left them (R121). -/
  busyClean : s.regs.status.busy = true →
    s.regs.status.done = false ∧ s.regs.status.err = false ∧ s.regs.errpos = 0
  /-- DOUT_LEN never exceeds P_DOUT (R42). -/
  doutFits : s.regs.doutLen.toNat ≤ s.params.pDout
  /-- LCG is a generator state, or equals HASH when no symbol was drawn (R47). -/
  lcgRange : s.regs.lcg.toNat < 233280 ∨ s.regs.lcg = s.regs.hash

/-- A safe step: the machine goes on. -/
def State.SafeStep (s : State) : Prop := ∃ t, step s = .next t

/-- The command `i` completes in `s` with the error `code` at position `pos`: STATUS and ERRPOS record it and nothing
else changes (spec/60_exceptions.md R265). -/
def CompletesWithError (i : Instr) (s : State) (code : Byte) (pos : Nat) : Prop :=
  exec i s = .next { s with regs := { s.regs with
    status := { s.regs.status with busy := false, done := true, err := true, errcode := code }
    errpos := BitVec.ofNat 32 pos } }

/-- STATUS after a completion without error (spec/40_command_execution.md R123). -/
def State.doneStatus (s : State) : Status := { s.regs.status with busy := false, done := true }

/-- The bytes at offsets outside `[lo, lo + n)` are the same in both memories. -/
def SameOutside (m m' : Memory) (lo n : Nat) : Prop := ∀ a, ¬ (lo ≤ a ∧ a < lo + n) → m'.byte a = m.byte a

/-- The symbols of the window at `win` from index `n` up to its capacity are the same in both memories. -/
def SameSymbolsFrom (m m' : Memory) (win n cap : Nat) : Prop := ∀ i, n ≤ i → i < cap → m'.sym win i = m.sym win i

/-- The number of bytes that hold `n` symbols. -/
def symBytes (n : Nat) : Nat := (n + 3) / 4

/-- The rolling hash of the passphrase in KEY, written as the formula of spec/42_keystream.md R160. -/
def State.hashOfKey (s : State) : Nat := s.key.foldl (fun h u => (h * 31 + u.toNat) % 4294967296) 0

/-- The generator state after `j` draws from seed `h`, written as the formula of spec/42_keystream.md R161. -/
def stateAfter (h j : Nat) : Nat := (fun x => (x * 9301 + 49297) % 233280)^[j] h

/-- Symbol `i` of the payload in DIN: bits `[7-2q : 6-2q]` of byte `i / 4`, where `q = i mod 4`
(spec/41_codec.md R145). -/
def State.dinSymbol (s : State) (i : Nat) : Symbol := (s.mem.byte (dinWin + i / 4)).extractLsb' (6 - 2 * (i % 4)) 2

/-- `off` lies in the mapped part of a buffer window: the six ranges of spec/20_memory.md R71, written out. -/
abbrev InMappedWindow (p : Params) (off : Nat) : Prop :=
  (0x001000 ≤ off ∧ off < 0x001000 + p.pMt) ∨ (0x002000 ≤ off ∧ off < 0x002000 + 2 * p.pKey)
    ∨ (0x400000 ≤ off ∧ off < 0x400000 + p.pDin) ∨ (0x800000 ≤ off ∧ off < 0x800000 + p.pDout)
    ∨ (0xC00000 ≤ off ∧ off < 0xC00000 + p.pSym / 4) ∨ (0xE00000 ≤ off ∧ off < 0xE00000 + p.pSym / 4)

/-- The payload segment of the container `c` is `r` and starts at position `base`: what follows the first ":", or all of
`c` where there is none (spec/44_framer.md R209). -/
def PayloadSegment (c r : List Byte) (base : Nat) : Prop :=
  (∃ left : List Byte, (0x3A : Byte) ∉ left ∧ c = left ++ [0x3A] ++ r ∧ base = left.length + 1)
    ∨ ((0x3A : Byte) ∉ c ∧ r = c ∧ base = 0)

/-- The length of `b64enc` of `n` bytes (spec/44_framer.md R203). -/
def b64Length (n : Nat) : Nat := 4 * ((n + 2) / 3)

/-- The 64 characters of base64 by 6-bit value, as a table (spec/44_framer.md R202). -/
def alphabet : List Byte :=
  "ABCDEFGHIJKLMNOPQRSTUVWXYZabcdefghijklmnopqrstuvwxyz0123456789+/".toList.map fun c => BitVec.ofNat 8 c.toNat

/-- The character at position `i` has the 6-bit value `v`; the pad character counts as 0 (spec/44_framer.md R204). -/
def HasValue (p : List Byte) (i : Nat) (v : BitVec 6) : Prop :=
  p[i]? = alphabet[v.toNat]? ∨ (p[i]? = some 0x3D ∧ v = 0)

/-- The length of the container of `n` symbols (spec/44_framer.md R208). -/
def State.containerLength (s : State) (n : Nat) (untag : Bool) : Nat :=
  if untag then b64Length n
  else b64Length (11 + (if s.regs.mtLen.toNat = 0 then 10 else s.regs.mtLen.toNat)) + 1 + b64Length n

end Sys2Proof.Machine
end

