-- ==== Sys2Proof/Certificates/Slice0/Obligations.lean ====
section
/-! DEFINITION. The statements for the provers. A docstring names the rule of the spec a statement formalises. -/

open Sys2Proof Sys2Proof.Machine

/-! ### Encoding -/

/-- Decode and encode agree (R100, R101, R109): no bit of an encoding is dropped. -/
def Obligations.DecodeOfEncodeIsTheCommand : Prop :=
  ∀ i : Instr, i.wellFormed = true → decode (encode i) = .ok i

/-- Each legal word is the encoding of the command it decodes to, which is well formed (R100, R107). -/
def Obligations.EncodeOfDecodedWordIsTheWord : Prop :=
  ∀ (w : Word) (i : Instr), decode w = .ok i → i.wellFormed = true ∧ encode i = w

/-- The words the decoder refuses are exactly the illegal words of R105. -/
def Obligations.DecoderRefusesExactlyIllegalWords : Prop :=
  ∀ w : Word, (∃ e, decode w = .error e) ↔
    (0x0A ≤ (w.extractLsb' 0 8).toNat
      ∨ w.extractLsb' 13 19 ≠ 0
      ∨ (w.extractLsb' 8 4 ≠ 0 ∧ (w.extractLsb' 0 8).toNat ∉ [0x07, 0x08, 0x09])
      ∨ (w.getLsbD 12 = true ∧ (w.extractLsb' 0 8).toNat ∉ [0x06, 0x08]))

/-- The sixteen spellings of R109 and their words, both ways. -/
def Obligations.ListedSpellingsHaveTheirWords : Prop :=
  ∀ p ∈ ([(.nop, 0x00000000), (.pack, 0x00000001), (.unpack, 0x00000002), (.derive, 0x00000003),
      (.subst, 0x00000004), (.unsubst, 0x00000005), (.frame false, 0x00000006), (.frame true, 0x00001006),
      (.unframe (.supported .text), 0x00000007), (.unframe (.supported .binary), 0x00000107),
      (.encrypt (.supported .text) false, 0x00000008), (.encrypt (.supported .binary) false, 0x00000108),
      (.encrypt (.supported .text) true, 0x00001008), (.encrypt (.supported .binary) true, 0x00001108),
      (.decrypt (.supported .text), 0x00000009), (.decrypt (.supported .binary), 0x00000109)] : List (Instr × Word)),
    decode p.2 = .ok p.1 ∧ encode p.1 = p.2

/-! ### Steps -/

/-- When the engine has its turn on a busy block, the step is the decoded command's meaning in that very state; the
event that gave the engine its turn is used up (R122, R123; the event list, and the turn when it is empty, are the model's
choice, log 1 and log 2). -/
def Obligations.StepRunsTheDecodedCommand : Prop :=
  ∀ (s : State) (i : Instr), paramsLegal s.params = true → s.regs.status.busy = true → decode s.regs.cmd = .ok i →
    (s.pending = [] → step s = exec i s)
      ∧ ∀ rest, s.pending = .engine :: rest → step s = exec i { s with pending := rest }

/-- When the engine has its turn on a block with an illegal word in flight, the word completes with ILLEGAL_CMD at position
0 and changes nothing else; the event that gave the engine its turn is used up (R105, R126; that the engine has its turn
by an event, and whenever no event is left, is the model's choice, log 1 and log 2). -/
def Obligations.StepCompletesIllegalWord : Prop :=
  ∀ (s : State) (e : DecodeError), paramsLegal s.params = true → s.regs.status.busy = true →
    decode s.regs.cmd = .error e →
    ∀ rest, ((s.pending = [] ∧ rest = []) ∨ s.pending = .engine :: rest) →
      step s = .next { s with
        pending := rest
        regs := { s.regs with
          status := { s.regs.status with busy := false, done := true, err := true, errcode := 0x10 }, errpos := 0 } }

/-- Host accesses are performed one at a time in the order they arrive, an idle engine's turn changes nothing but the
event list, and parameters that are not legal are refused (R83, R120, R181; log 1, log 5). -/
def Obligations.StepPerformsTheNextEvent : Prop :=
  ∀ (s : State) (rest : List Event),
    (paramsLegal s.params = true → ∀ a, s.pending = .host a :: rest →
      step s = .next (State.performAccess { s with pending := rest } a))
    ∧ (paramsLegal s.params = true → s.regs.status.busy = false → s.pending = .engine :: rest →
      step s = .next { s with pending := rest })
    ∧ (paramsLegal s.params = true → s.regs.status.busy = false → s.pending = [] → step s = .next s)
    ∧ (paramsLegal s.params = false → step s = .refused .illegalParams)

/-- From every state with legal parameters, once the events are used up and the engine has had one more turn, the block
is idle: by then a command in flight has completed, or a soft reset or a loss of power among the events has abandoned it
(R291, R309). The turn on the empty list is the model's choice (log 2). -/
def Obligations.BlockIsIdleOnceEventsAreUsedUp : Prop :=
  ∀ s : State, paramsLegal s.params = true →
    ∃ t, Host.Core.run core (s.pending.length + 1) s = .next t ∧ t.pending = [] ∧ t.regs.status.busy = false

/-! ### Invariant -/

/-- Every step of the machine keeps the invariant, from every state that meets it. -/
def Obligations.EveryStepKeepsTheInvariant : Prop :=
  ∀ s t : State, s.Inv → step s = .next t → t.Inv

/-- The reset state meets the invariant. Its parameters are the defaults of R7; the base 0 is the model's choice of a legal
value (log 4), and so is the empty list of written cells (log 6). -/
def Obligations.ResetMeetsTheInvariant : Prop := State.reset.Inv

/-- The parameters of an instance never change (R7). -/
def Obligations.NoStepChangesTheParameters : Prop :=
  ∀ s t : State, step s = .next t → t.params = s.params

/-! ### Reset -/

/-- What the host reads right after power-on reset, register by register, and IRQ (R32, R290). The capacities are
the defaults of R7; that the list of written cells is empty is the model's form of R57 (log 6). -/
def Obligations.RegistersAtReset : Prop :=
  (∀ p ∈ ([(.id, 0x47435831), (.version, 0x00010000), (.ctrl, 0), (.status, 0), (.cmd, 0), (.errpos, 0), (.dinLen, 0),
      (.keyLen, 0), (.mtLen, 0), (.doutLen, 0), (.symLen, 0), (.ksLen, 0), (.ksReq, 0), (.hash, 0), (.lcg, 0),
      (.capDin, 65536), (.capDout, 1048576), (.capKey, 256), (.capMt, 256), (.capSym, 262144)] : List (Reg × Word)),
    State.reset.readReg p.1 = p.2) ∧ State.reset.irq = false ∧ State.reset.mem.cells = []

/-- A write to CTRL with bit 1 set is the soft reset: every register takes its reset value (IE among them, whatever bit 0
was), the parameters stay, and the buffers of an idle block stay (R35, R291). -/
def Obligations.SoftResetRestoresEveryRegister : Prop :=
  ∀ (s : State) (v : Word), v.getLsbD 1 = true →
    (s.hostWrite 0x008 32 v).regs = State.reset.regs ∧ (s.hostWrite 0x008 32 v).params = s.params
      ∧ (s.hostWrite 0x008 32 v).pending = s.pending
      ∧ (s.hostWrite 0x008 32 v).irq = false
      ∧ (s.regs.status.busy = false → (s.hostWrite 0x008 32 v).mem = s.mem)

/-- A soft reset of a busy block disturbs no buffer element but the abandoned command's destinations: the prefixes it would
have written, none for an illegal word, and never more than the prefixes its rule names nor than the whole buffers; for
UNFRAME and DECRYPT the prefixes are as long as what the container in DIN holds, whenever it has a parse (R106, R291, R292).
For a command that would have ended in error the prefixes are the model's reading (log 9). -/
def Obligations.AbandonedCommandDisturbsOnlyItsDestinations : Prop :=
  ∀ (s : State) (v : Word), paramsLegal s.params = true → v.getLsbD 1 = true → s.regs.status.busy = true →
    (∀ a, ¬ (symWin ≤ a ∧ a < symWin + symBytes s.abandonedExtent.sym) →
      ¬ (ksWin ≤ a ∧ a < ksWin + symBytes s.abandonedExtent.ks) →
      ¬ (doutWin ≤ a ∧ a < doutWin + s.abandonedExtent.dout) → ¬ (mtWin ≤ a ∧ a < mtWin + s.abandonedExtent.mt) →
      (s.hostWrite 0x008 32 v).mem.byte a = s.mem.byte a)
    ∧ SameSymbolsFrom s.mem (s.hostWrite 0x008 32 v).mem symWin s.abandonedExtent.sym s.params.pSym
    ∧ SameSymbolsFrom s.mem (s.hostWrite 0x008 32 v).mem ksWin s.abandonedExtent.ks s.params.pSym
    ∧ (∀ u, evalWord s.regs.cmd s = .ok u →
        s.abandonedExtent.sym = u.sym.length ∧ s.abandonedExtent.ks = u.ks.length
          ∧ s.abandonedExtent.dout = u.dout.length ∧ s.abandonedExtent.mt = u.mt.length)
    ∧ (∀ e, decode s.regs.cmd = .error e → s.abandonedExtent = { sym := 0, ks := 0, dout := 0, mt := 0 })
    ∧ s.abandonedExtent.sym ≤ s.params.pSym ∧ s.abandonedExtent.ks ≤ s.params.pSym
    ∧ s.abandonedExtent.dout ≤ s.params.pDout ∧ s.abandonedExtent.mt ≤ s.params.pMt
    ∧ ∀ i, decode s.regs.cmd = .ok i →
        (i ∈ [.nop, .unpack, .derive, .frame false, .frame true] → s.abandonedExtent.sym = 0)
        ∧ (i ∈ [.nop, .pack, .unpack, .subst, .unsubst, .frame false, .frame true] → s.abandonedExtent.ks = 0)
        ∧ (i ∈ [.nop, .pack, .derive, .subst, .unsubst] → s.abandonedExtent.dout = 0)
        ∧ (i ∈ [.nop, .pack, .unpack, .derive, .subst, .unsubst, .frame false, .frame true] → s.abandonedExtent.mt = 0)
        ∧ (i = .pack → s.abandonedExtent.sym ≤ 4 * s.regs.dinLen.toNat)
        ∧ (i = .unpack → s.abandonedExtent.dout ≤ s.regs.symLen.toNat / 4)
        ∧ (i = .derive → s.abandonedExtent.ks ≤ s.regs.ksReq.toNat)
        ∧ (i ∈ [.subst, .unsubst] → s.abandonedExtent.sym ≤ s.regs.symLen.toNat)
        ∧ (∀ untag, i = .frame untag → s.abandonedExtent.dout ≤ s.containerLength s.regs.symLen.toNat untag)
        ∧ (∀ k, i = .unframe k → s.abandonedExtent.ks = 0 ∧ s.abandonedExtent.dout = 0)
        ∧ (∀ k untag, i = .encrypt k untag → s.abandonedExtent.mt = 0
          ∧ s.abandonedExtent.sym ≤ 4 * s.regs.dinLen.toNat ∧ s.abandonedExtent.ks ≤ 4 * s.regs.dinLen.toNat
          ∧ s.abandonedExtent.dout ≤ s.containerLength (4 * s.regs.dinLen.toNat) untag)
        ∧ (∀ k p, s.regs.dinLen.toNat ≤ s.params.pDin → parseContainer s.din k = .ok p →
          (i = .unframe (.supported k) →
            s.abandonedExtent.sym ≤ p.seq.length ∧ s.abandonedExtent.mt ≤ p.mt.length)
          ∧ (i = .decrypt (.supported k) →
            s.abandonedExtent.sym ≤ p.seq.length ∧ s.abandonedExtent.ks ≤ p.seq.length
              ∧ s.abandonedExtent.dout ≤ p.seq.length / 4 ∧ s.abandonedExtent.mt ≤ p.mt.length))

/-- After a power-on event every register has its reset value, no buffer element has been written and nothing is in
flight, in every instance (R290; the event is the model's, log 16). -/
def Obligations.PowerOnEventRestoresTheResetState : Prop :=
  ∀ (s : State) (rest : List Event), paramsLegal s.params = true → s.pending = .powerOn :: rest →
    ∃ t, step s = .next t ∧ t.regs = State.reset.regs ∧ t.mem.cells = [] ∧ t.params = s.params ∧ t.pending = rest

/-! ### The register interface -/

/-- A host write to CMD: lost with WIB when busy; when idle it stores and issues the word, legal or not, IRQ falls, and
the engine's completion is `Exec` of that word on the state at the write (R121 to R123). That the engine has its turn by an
event, and whenever no event is left, is the model's choice (log 1, log 2). -/
def Obligations.CommandWriteIssues : Prop :=
  ∀ (s : State) (v : Word),
    (s.regs.status.busy = true →
      s.hostWrite 0x010 32 v = { s with regs := { s.regs with status := { s.regs.status with wib := true } } })
    ∧ (s.regs.status.busy = false →
      s.hostWrite 0x010 32 v = { s with regs := { s.regs with
          cmd := v
          errpos := 0
          status := { s.regs.status with busy := true, done := false, err := false, errcode := 0 } } }
        ∧ (s.hostWrite 0x010 32 v).irq = false
        ∧ (paramsLegal s.params = true → ∀ rest, ((s.pending = [] ∧ rest = []) ∨ s.pending = .engine :: rest) →
          step (s.hostWrite 0x010 32 v)
            = .next (State.complete { s.hostWrite 0x010 32 v with pending := rest } (evalWord v s)))
        ∧ ∀ e, decode v = .error e → evalWord v s = .error ⟨.illegalCmd, 0⟩)

/-- An access that is not 32 bits wide, not at a multiple of 4, or at an offset where nothing is mapped: a read returns
0, a write changes nothing, and AERR is set, busy or not (R75, R76). -/
def Obligations.RejectedAccessOnlySetsAerr : Prop :=
  ∀ (s : State) (off width : Nat) (v : Word),
    (width ≠ 32 ∨ off % 4 ≠ 0
      ∨ (0x001000 ≤ off
        ∧ ¬ (0x001000 ≤ off ∧ off < 0x001000 + s.params.pMt)
        ∧ ¬ (0x002000 ≤ off ∧ off < 0x002000 + 2 * s.params.pKey)
        ∧ ¬ (0x400000 ≤ off ∧ off < 0x400000 + s.params.pDin)
        ∧ ¬ (0x800000 ≤ off ∧ off < 0x800000 + s.params.pDout)
        ∧ ¬ (0xC00000 ≤ off ∧ off < 0xC00000 + s.params.pSym / 4)
        ∧ ¬ (0xE00000 ≤ off ∧ off < 0xE00000 + s.params.pSym / 4))) →
    s.hostWrite off width v = { s with regs := { s.regs with status := { s.regs.status with aerr := true } } }
    ∧ s.hostRead off width = { s with
        regs := { s.regs with status := { s.regs.status with aerr := true } }
        rdata := some 0 }

/-- Writes while busy to CMD, to the length registers and to window words are ignored and set WIB (R300). -/
def Obligations.BusyWritesAreLostAndSetWib : Prop :=
  ∀ (s : State) (off : Nat) (v : Word), s.regs.status.busy = true →
    (off ∈ [0x010, 0x018, 0x01C, 0x020, 0x028, 0x02C, 0x030]
      ∨ (off % 4 = 0 ∧ InMappedWindow s.params off)) →
    s.hostWrite off 32 v = { s with regs := { s.regs with status := { s.regs.status with wib := true } } }

/-- Writes to read-only registers and to reserved register offsets change nothing and set no flag, busy or not
(R33, R34, R49, R300). -/
def Obligations.ReadOnlyWritesChangeNothing : Prop :=
  ∀ (s : State) (off : Nat) (v : Word),
    (off ∈ [0x000, 0x004, 0x014, 0x024, 0x034, 0x038, 0x03C, 0x040, 0x044, 0x048, 0x04C]
      ∨ (0x050 ≤ off ∧ off < 0x001000 ∧ off % 4 = 0)) →
    s.hostWrite off 32 v = s

/-- Reserved register offsets read 0 and ignore writes; an access to them sets neither AERR nor WIB (R49). -/
def Obligations.ReservedOffsetsReadZero : Prop :=
  ∀ (s : State) (off : Nat) (v : Word), 0x050 ≤ off → off ≤ 0xFFC → off % 4 = 0 →
    s.hostRead off 32 = { s with rdata := some 0 } ∧ s.hostWrite off 32 v = s

/-- Reads while busy: exact for ID, VERSION, CTRL, STATUS, CMD, ERRPOS and CAP_*; some value, which the spec leaves open,
for the data registers and the window words; no register, no buffer and no flag changes (R301; log 8). -/
def Obligations.BusyReads : Prop :=
  ∀ (s : State) (off : Nat), s.regs.status.busy = true →
    (∀ p ∈ ([(0x000, 0x47435831), (0x004, 0x00010000), (0x008, if s.regs.ie then 1 else 0), (0x00C, s.regs.status.toWord),
        (0x010, s.regs.cmd), (0x014, s.regs.errpos), (0x03C, BitVec.ofNat 32 s.params.pDin),
        (0x040, BitVec.ofNat 32 s.params.pDout), (0x044, BitVec.ofNat 32 s.params.pKey),
        (0x048, BitVec.ofNat 32 s.params.pMt), (0x04C, BitVec.ofNat 32 s.params.pSym)] : List (Nat × Word)),
      s.hostRead p.1 32 = { s with rdata := some p.2 })
    ∧ ((off ∈ [0x018, 0x01C, 0x020, 0x024, 0x028, 0x02C, 0x030, 0x034, 0x038]
        ∨ (off % 4 = 0 ∧ InMappedWindow s.params off)) →
      ∃ x, s.hostRead off 32 = { s with rdata := some x, fresh := s.fresh + 1 })

/-- A read of the idle block returns the register's value (constants, CTRL with bit 0 only, STATUS as StatusWordLayout has it,
the fields, the capacities), or the four bytes of a window word low byte first, and changes
nothing else (R33 to R48, R72, R77, R78). -/
def Obligations.IdleReadsReturnTheState : Prop :=
  ∀ (s : State), s.regs.status.busy = false →
    (∀ p ∈ ([(0x000, 0x47435831), (0x004, 0x00010000), (0x008, if s.regs.ie then 1 else 0), (0x00C, s.regs.status.toWord),
        (0x010, s.regs.cmd), (0x014, s.regs.errpos), (0x018, s.regs.dinLen), (0x01C, s.regs.keyLen), (0x020, s.regs.mtLen),
        (0x024, s.regs.doutLen), (0x028, s.regs.symLen), (0x02C, s.regs.ksLen), (0x030, s.regs.ksReq), (0x034, s.regs.hash),
        (0x038, s.regs.lcg), (0x03C, BitVec.ofNat 32 s.params.pDin), (0x040, BitVec.ofNat 32 s.params.pDout),
        (0x044, BitVec.ofNat 32 s.params.pKey), (0x048, BitVec.ofNat 32 s.params.pMt),
        (0x04C, BitVec.ofNat 32 s.params.pSym)] : List (Nat × Word)),
      s.hostRead p.1 32 = { s with rdata := some p.2 })
    ∧ ∀ off, off % 4 = 0 → InMappedWindow s.params off →
      s.hostRead off 32 = { s with
        rdata := some (s.mem.byte (off + 3) ++ s.mem.byte (off + 2) ++ s.mem.byte (off + 1) ++ s.mem.byte off) }

/-- STATUS as the host reads it, bit by bit (R36). -/
def Obligations.StatusWordLayout : Prop :=
  ∀ st : Status, st.toWord.getLsbD 0 = st.busy ∧ st.toWord.getLsbD 1 = st.done ∧ st.toWord.getLsbD 2 = st.err
    ∧ st.toWord.getLsbD 3 = st.wib ∧ st.toWord.getLsbD 4 = st.aerr ∧ st.toWord.extractLsb' 5 3 = 0
    ∧ st.toWord.extractLsb' 8 8 = st.errcode ∧ st.toWord.extractLsb' 16 16 = 0

/-- A write to STATUS clears the flags whose bits are written 1 (ERRCODE with ERR), busy or not, and does nothing else
(R36). A write to CTRL without bit 1 sets IE, busy or not, and does nothing else (R35). -/
def Obligations.StatusAndControlWrites : Prop :=
  ∀ (s : State) (v : Word),
    s.hostWrite 0x00C 32 v = { s with regs := { s.regs with status :=
      { busy := s.regs.status.busy
        done := if v.getLsbD 1 then false else s.regs.status.done
        err := if v.getLsbD 2 then false else s.regs.status.err
        wib := if v.getLsbD 3 then false else s.regs.status.wib
        aerr := if v.getLsbD 4 then false else s.regs.status.aerr
        errcode := if v.getLsbD 2 then 0 else s.regs.status.errcode } } }
    ∧ (v.getLsbD 1 = false → s.hostWrite 0x008 32 v = { s with regs := { s.regs with ie := v.getLsbD 0 } })

/-- `IRQ = x[CTRL].IE AND x[STATUS].DONE`, in terms of the two words the host reads (R60, R272). -/
def Obligations.InterruptIsEnableAndDone : Prop :=
  ∀ s : State, s.irq = ((s.readReg .ctrl).getLsbD 0 && (s.readReg .status).getLsbD 1)

/-- A length register of the idle block stores any 32-bit value, and nothing else changes (R39 to R45). -/
def Obligations.LengthRegistersStoreAnyValue : Prop :=
  ∀ (s : State) (v : Word), s.regs.status.busy = false →
    s.hostWrite 0x018 32 v = { s with regs := { s.regs with dinLen := v } }
    ∧ s.hostWrite 0x01C 32 v = { s with regs := { s.regs with keyLen := v } }
    ∧ s.hostWrite 0x020 32 v = { s with regs := { s.regs with mtLen := v } }
    ∧ s.hostWrite 0x028 32 v = { s with regs := { s.regs with symLen := v } }
    ∧ s.hostWrite 0x02C 32 v = { s with regs := { s.regs with ksLen := v } }
    ∧ s.hostWrite 0x030 32 v = { s with regs := { s.regs with ksReq := v } }

/-- A write to a mapped window word of the idle block: the word reads back, the elements of the word are the fields of
the value that R72, R73 and R74 name, and no other byte and no register changes. -/
def Obligations.WindowWritesStoreTheElements : Prop :=
  ∀ (s : State) (off w : Nat) (v : Word), s.regs.status.busy = false → off % 4 = 0 →
    InMappedWindow s.params off →
    ∃ m, s.hostWrite off 32 v = { s with mem := m }
      ∧ (s.hostWrite off 32 v).hostRead off 32 = { s with mem := m, rdata := some v }
      ∧ SameOutside s.mem m off 4
      ∧ (∀ j, j < 4 → m.byte (off + j) = v.extractLsb' (8 * j) 8)
      ∧ (off = 0x002000 + 4 * w → ∀ j, j < 2 → m.unit keyWin (2 * w + j) = v.extractLsb' (16 * j) 16)
      ∧ (off = 0xC00000 + 4 * w → ∀ j q, j < 4 → q < 4 →
          m.sym symWin (16 * w + 4 * j + q) = v.extractLsb' (8 * j + 6 - 2 * q) 2)
      ∧ (off = 0xE00000 + 4 * w → ∀ j q, j < 4 → q < 4 →
          m.sym ksWin (16 * w + 4 * j + q) = v.extractLsb' (8 * j + 6 - 2 * q) 2)

/-- The block performs an access at byte address BASE + offset as that offset's access, and an access to another address
is not its own (R70; the second half is the model's reading, log 13). -/
def Obligations.AccessesReachTheirOffset : Prop :=
  ∀ (s : State) (off width : Nat) (v : Word),
    (off < 0x1000000 → s.performAccess (.read (s.params.base + off) width) = s.hostRead off width
      ∧ s.performAccess (.write (s.params.base + off) width v) = s.hostWrite off width v)
    ∧ ∀ addr, (addr < s.params.base ∨ s.params.base + 0x1000000 ≤ addr) →
      s.performAccess (.read addr width) = s ∧ s.performAccess (.write addr width v) = s

/-- However many host accesses fall between issue and completion, as long as the block stays busy throughout (no soft reset
ends the command), the engine still evaluates the same command on the same inputs with the same result, and no register
it reads or writes and no buffer has changed (R84, R308). -/
def Obligations.HostCannotDisturbACommandInFlight : Prop :=
  ∀ (s : State) (accesses : List Access),
    (∀ n, n ≤ accesses.length → ((accesses.take n).foldl State.performAccess s).regs.status.busy = true) →
    evalWord (accesses.foldl State.performAccess s).regs.cmd (accesses.foldl State.performAccess s)
        = evalWord s.regs.cmd s
      ∧ (accesses.foldl State.performAccess s).mem = s.mem
      ∧ ∃ ie done err wib aerr errcode, (accesses.foldl State.performAccess s).regs =
          { s.regs with ie := ie, status := ⟨true, done, err, wib, aerr, errcode⟩ }

/-! ### Commands: results and frames -/

/-- NOP changes no state but BUSY and DONE (R129). -/
def Obligations.NopOnlyCompletes : Prop :=
  ∀ s : State, exec .nop s = .next { s with regs := { s.regs with status := s.doneStatus } }

/-- PACK: symbol `i` of SYM is the `i`-th bit pair of DIN, most significant first; SYM_LEN is four times DIN_LEN; no
other byte and no other register changes (R147). -/
def Obligations.PackResult : Prop :=
  ∀ s : State, s.regs.dinLen.toNat ≤ s.params.pDin → 4 * s.regs.dinLen.toNat ≤ s.params.pSym →
    ∃ m, exec .pack s = .next { s with
        mem := m
        regs := { s.regs with symLen := BitVec.ofNat 32 (4 * s.regs.dinLen.toNat), status := s.doneStatus } }
      ∧ (∀ i, i < 4 * s.regs.dinLen.toNat → m.sym symWin i = s.dinSymbol i)
      ∧ SameOutside s.mem m symWin s.regs.dinLen.toNat

/-- UNPACK: byte `i` of DOUT is the four symbols `4i` to `4i + 3`, the first most significant; the last SYM_LEN mod 4
symbols reach no byte; no other byte and no other register changes (R148). -/
def Obligations.UnpackResult : Prop :=
  ∀ s : State, s.regs.symLen.toNat ≤ s.params.pSym → s.regs.symLen.toNat / 4 ≤ s.params.pDout →
    ∃ m, exec .unpack s = .next { s with
        mem := m
        regs := { s.regs with doutLen := BitVec.ofNat 32 (s.regs.symLen.toNat / 4), status := s.doneStatus } }
      ∧ (∀ i, i < s.regs.symLen.toNat / 4 → m.byte (doutWin + i) =
          s.mem.sym symWin (4 * i) ++ s.mem.sym symWin (4 * i + 1) ++ s.mem.sym symWin (4 * i + 2)
            ++ s.mem.sym symWin (4 * i + 3))
      ∧ SameOutside s.mem m doutWin (s.regs.symLen.toNat / 4)

/-- DERIVE: HASH is the rolling hash of KEY, symbol `j` of KS is drawn from the generator state after `j + 1` steps, LCG
is the state after the last; no other byte, symbol or register changes (R160, R161, R164). -/
def Obligations.DeriveResult : Prop :=
  ∀ s : State, s.regs.keyLen.toNat ≤ s.params.pKey → s.regs.ksReq.toNat ≤ s.params.pSym → s.regs.keyLen ≠ 0 →
    ∃ m, exec .derive s = .next { s with
        mem := m
        regs := { s.regs with
          ksLen := s.regs.ksReq
          hash := BitVec.ofNat 32 s.hashOfKey
          lcg := BitVec.ofNat 32 (stateAfter s.hashOfKey s.regs.ksReq.toNat)
          status := s.doneStatus } }
      ∧ (∀ j, j < s.regs.ksReq.toNat → m.sym ksWin j = BitVec.ofNat 2 (stateAfter s.hashOfKey (j + 1) / 58320))
      ∧ SameSymbolsFrom s.mem m ksWin s.regs.ksReq.toNat s.params.pSym
      ∧ SameOutside s.mem m ksWin (symBytes s.regs.ksReq.toNat)

/-- SUBST: every symbol of SYM becomes the table's entry for it and for the key symbol at its position, the key stream
cycled; nothing else changes (R183, R185). -/
def Obligations.SubstResult : Prop :=
  ∀ s : State, s.regs.symLen.toNat ≤ s.params.pSym → s.regs.ksLen.toNat ≤ s.params.pSym →
    (s.regs.symLen = 0 ∨ s.regs.ksLen ≠ 0) →
    ∃ m, exec .subst s = .next { s with mem := m, regs := { s.regs with status := s.doneStatus } }
      ∧ (∀ i, i < s.regs.symLen.toNat → m.sym symWin i =
          tableAt s.params.table (s.mem.sym ksWin (i % s.regs.ksLen.toNat)) (s.mem.sym symWin i))
      ∧ SameSymbolsFrom s.mem m symWin s.regs.symLen.toNat s.params.pSym
      ∧ SameOutside s.mem m symWin (symBytes s.regs.symLen.toNat)

/-- UNSUBST: every symbol of SYM becomes the one the table maps to it under the key symbol at its position; nothing else
changes (R182, R183, R186). -/
def Obligations.UnsubstResult : Prop :=
  ∀ s : State, paramsLegal s.params = true →
    s.regs.symLen.toNat ≤ s.params.pSym → s.regs.ksLen.toNat ≤ s.params.pSym →
    (s.regs.symLen = 0 ∨ s.regs.ksLen ≠ 0) →
    ∃ m, exec .unsubst s = .next { s with mem := m, regs := { s.regs with status := s.doneStatus } }
      ∧ (∀ i, i < s.regs.symLen.toNat →
          tableAt s.params.table (s.mem.sym ksWin (i % s.regs.ksLen.toNat)) (m.sym symWin i) = s.mem.sym symWin i)
      ∧ SameSymbolsFrom s.mem m symWin s.regs.symLen.toNat s.params.pSym
      ∧ SameOutside s.mem m symWin (symBytes s.regs.symLen.toNat)

/-- FRAME, tagged or untagged: DOUT holds the container of SYM, whose length is that of R208, and nothing else changes
(R208, R211). -/
def Obligations.FrameResult : Prop :=
  ∀ (s : State) (untag : Bool), s.regs.symLen.toNat ≤ s.params.pSym →
    (untag = true ∨ (s.regs.mtLen.toNat ≤ s.params.pMt ∧ ∀ c ∈ s.mt, mediaByteOk c = true)) →
    s.containerLength s.regs.symLen.toNat untag ≤ s.params.pDout →
    ∃ m out, exec (.frame untag) s = .next { s with
        mem := m
        regs := { s.regs with
          doutLen := BitVec.ofNat 32 (s.containerLength s.regs.symLen.toNat untag), status := s.doneStatus } }
      ∧ out.length = s.containerLength s.regs.symLen.toNat untag
      ∧ out = (if untag then b64enc (s.symbols.map symbolChar)
          else b64enc ([0x7B, 0x22, 0x74, 0x79, 0x70, 0x65, 0x22, 0x3A, 0x22]
              ++ (if s.regs.mtLen = 0 then [0x74, 0x65, 0x78, 0x74, 0x2F, 0x70, 0x6C, 0x61, 0x69, 0x6E] else s.mt)
              ++ [0x22, 0x7D]) ++ [0x3A] ++ b64enc (s.symbols.map symbolChar))
      ∧ (∀ i (h : i < out.length), m.byte (doutWin + i) = out[i])
      ∧ SameOutside s.mem m doutWin out.length

/-- UNFRAME: SYM and MT hold what the container in DIN holds, with their lengths; nothing else changes (R212). -/
def Obligations.UnframeResult : Prop :=
  ∀ (s : State) (k : PayloadKind) (p : Parsed), paramsLegal s.params = true →
    s.regs.dinLen.toNat ≤ s.params.pDin → parseContainer s.din k = .ok p →
    p.seq.length ≤ s.params.pSym → p.mt.length ≤ s.params.pMt →
    ∃ m, exec (.unframe (.supported k)) s = .next { s with
        mem := m
        regs := { s.regs with
          symLen := BitVec.ofNat 32 p.seq.length
          mtLen := BitVec.ofNat 32 p.mt.length
          status := s.doneStatus } }
      ∧ (∀ i (h : i < p.seq.length), m.sym symWin i = p.seq[i])
      ∧ (∀ i (h : i < p.mt.length), m.byte (mtWin + i) = p.mt[i])
      ∧ SameSymbolsFrom s.mem m symWin p.seq.length s.params.pSym
      ∧ ∀ a, ¬ (symWin ≤ a ∧ a < symWin + symBytes p.seq.length) → ¬ (mtWin ≤ a ∧ a < mtWin + p.mt.length) →
          m.byte a = s.mem.byte a

/-- ENCRYPT: KS holds the key stream of KEY, SYM the payload's symbols substituted under it, DOUT their container; HASH,
LCG and the lengths are set; nothing else changes (R240). -/
def Obligations.EncryptResult : Prop :=
  ∀ (s : State) (k : PayloadKind) (untag : Bool), paramsLegal s.params = true →
    s.regs.dinLen.toNat ≤ s.params.pDin → s.regs.keyLen.toNat ≤ s.params.pKey → 8 ≤ s.regs.keyLen.toNat →
    (untag = true ∨ (s.regs.mtLen.toNat ≤ s.params.pMt ∧ ∀ c ∈ s.mt, mediaByteOk c = true)) →
    4 * s.regs.dinLen.toNat ≤ s.params.pSym →
    s.containerLength (4 * s.regs.dinLen.toNat) untag ≤ s.params.pDout →
    ∃ m out, exec (.encrypt (.supported k) untag) s = .next { s with
        mem := m
        regs := { s.regs with
          symLen := BitVec.ofNat 32 (4 * s.regs.dinLen.toNat)
          ksLen := BitVec.ofNat 32 (4 * s.regs.dinLen.toNat)
          hash := BitVec.ofNat 32 s.hashOfKey
          lcg := BitVec.ofNat 32 (stateAfter s.hashOfKey (4 * s.regs.dinLen.toNat))
          doutLen := BitVec.ofNat 32 (s.containerLength (4 * s.regs.dinLen.toNat) untag)
          status := s.doneStatus } }
      ∧ (∀ j, j < 4 * s.regs.dinLen.toNat →
          m.sym ksWin j = BitVec.ofNat 2 (stateAfter s.hashOfKey (j + 1) / 58320))
      ∧ (∀ j, j < 4 * s.regs.dinLen.toNat →
          m.sym symWin j = tableAt s.params.table (m.sym ksWin j) (s.dinSymbol j))
      ∧ out = encodeContainer ((List.range (4 * s.regs.dinLen.toNat)).map (m.sym symWin)) s.mt untag
      ∧ out.length = s.containerLength (4 * s.regs.dinLen.toNat) untag
      ∧ (∀ i (h : i < out.length), m.byte (doutWin + i) = out[i])
      ∧ ∀ a, ¬ (symWin ≤ a ∧ a < symWin + s.regs.dinLen.toNat) → ¬ (ksWin ≤ a ∧ a < ksWin + s.regs.dinLen.toNat) →
          ¬ (doutWin ≤ a ∧ a < doutWin + out.length) → m.byte a = s.mem.byte a

/-- DECRYPT: KS holds the key stream of KEY, SYM the container's symbols with the substitution undone, DOUT their bytes, MT
the media type; HASH, LCG and the lengths are set; nothing else changes (R241). -/
def Obligations.DecryptResult : Prop :=
  ∀ (s : State) (k : PayloadKind) (p : Parsed), paramsLegal s.params = true →
    s.regs.dinLen.toNat ≤ s.params.pDin → s.regs.keyLen.toNat ≤ s.params.pKey → 8 ≤ s.regs.keyLen.toNat →
    parseContainer s.din k = .ok p → p.seq.length ≤ s.params.pSym → p.mt.length ≤ s.params.pMt →
    p.seq.length / 4 ≤ s.params.pDout →
    ∃ m, exec (.decrypt (.supported k)) s = .next { s with
        mem := m
        regs := { s.regs with
          symLen := BitVec.ofNat 32 p.seq.length
          ksLen := BitVec.ofNat 32 p.seq.length
          hash := BitVec.ofNat 32 s.hashOfKey
          lcg := BitVec.ofNat 32 (stateAfter s.hashOfKey p.seq.length)
          doutLen := BitVec.ofNat 32 (p.seq.length / 4)
          mtLen := BitVec.ofNat 32 p.mt.length
          status := s.doneStatus } }
      ∧ (∀ j, j < p.seq.length → m.sym ksWin j = BitVec.ofNat 2 (stateAfter s.hashOfKey (j + 1) / 58320))
      ∧ (∀ j (h : j < p.seq.length), tableAt s.params.table (m.sym ksWin j) (m.sym symWin j) = p.seq[j])
      ∧ (∀ i, i < p.seq.length / 4 → m.byte (doutWin + i) =
          m.sym symWin (4 * i) ++ m.sym symWin (4 * i + 1) ++ m.sym symWin (4 * i + 2) ++ m.sym symWin (4 * i + 3))
      ∧ (∀ i (h : i < p.mt.length), m.byte (mtWin + i) = p.mt[i])
      ∧ SameSymbolsFrom s.mem m symWin p.seq.length s.params.pSym
      ∧ SameSymbolsFrom s.mem m ksWin p.seq.length s.params.pSym
      ∧ ∀ a, ¬ (symWin ≤ a ∧ a < symWin + symBytes p.seq.length) →
          ¬ (ksWin ≤ a ∧ a < ksWin + symBytes p.seq.length) →
          ¬ (doutWin ≤ a ∧ a < doutWin + p.seq.length / 4) → ¬ (mtWin ≤ a ∧ a < mtWin + p.mt.length) →
          m.byte a = s.mem.byte a

/-! ### Commands: errors -/

/-- When a completion reports an error that was not there before, no register or buffer element other than STATUS and
ERRPOS has changed: every command is all or nothing (R124, R265). -/
def Obligations.FailedCommandChangesOnlyTheReport : Prop :=
  ∀ (i : Instr) (s t : State), s.regs.status.err = false → exec i s = .next t → t.regs.status.err = true →
    t.regs.status.errcode ∈ assignedCodes
      ∧ t = { s with regs := { s.regs with
          status := { s.regs.status with busy := false, done := true, err := true, errcode := t.regs.status.errcode }
          errpos := t.regs.errpos } }

/-- The errors of PACK and UNPACK in check order (R147, R148, R263). -/
def Obligations.CodecErrors : Prop :=
  ∀ s : State,
    (s.params.pDin < s.regs.dinLen.toNat → CompletesWithError .pack s 0x11 0x018)
    ∧ (s.regs.dinLen.toNat ≤ s.params.pDin → s.params.pSym < 4 * s.regs.dinLen.toNat →
        CompletesWithError .pack s 0x12 (4 * s.regs.dinLen.toNat))
    ∧ (s.params.pSym < s.regs.symLen.toNat → CompletesWithError .unpack s 0x11 0x028)
    ∧ (s.regs.symLen.toNat ≤ s.params.pSym → s.params.pDout < s.regs.symLen.toNat / 4 →
        CompletesWithError .unpack s 0x12 (s.regs.symLen.toNat / 4))

/-- The errors of DERIVE in check order; a passphrase of one code unit already passes (R164, R263). -/
def Obligations.DeriveErrors : Prop :=
  ∀ s : State,
    (s.params.pKey < s.regs.keyLen.toNat → CompletesWithError .derive s 0x11 0x01C)
    ∧ (s.regs.keyLen.toNat ≤ s.params.pKey → s.params.pSym < s.regs.ksReq.toNat →
        CompletesWithError .derive s 0x11 0x030)
    ∧ (s.regs.ksReq.toNat ≤ s.params.pSym → s.regs.keyLen = 0 → CompletesWithError .derive s 0x02 0x01C)
    ∧ (s.regs.ksReq.toNat ≤ s.params.pSym → s.regs.keyLen = 1 → 1 ≤ s.params.pKey →
        ∃ t, exec .derive s = .next t ∧ t.regs.status = s.doneStatus)

/-- The errors of SUBST and UNSUBST in check order (R185, R186, R263). -/
def Obligations.SubstitutionErrors : Prop :=
  ∀ (s : State) (i : Instr), i = .subst ∨ i = .unsubst →
    (s.params.pSym < s.regs.symLen.toNat → CompletesWithError i s 0x11 0x028)
    ∧ (s.regs.symLen.toNat ≤ s.params.pSym → s.params.pSym < s.regs.ksLen.toNat → CompletesWithError i s 0x11 0x02C)
    ∧ (s.regs.symLen.toNat ≤ s.params.pSym → s.regs.symLen ≠ 0 → s.regs.ksLen = 0 →
        CompletesWithError i s 0x02 0x02C)

/-- The errors of FRAME in check order; UNTAG = 1 raises none for the media type (R211, R263). -/
def Obligations.FrameErrors : Prop :=
  ∀ (s : State) (untag : Bool),
    (s.params.pSym < s.regs.symLen.toNat → CompletesWithError (.frame untag) s 0x11 0x028)
    ∧ (s.regs.symLen.toNat ≤ s.params.pSym → s.params.pMt < s.regs.mtLen.toNat →
        CompletesWithError (.frame false) s 0x11 0x020)
    ∧ (s.regs.symLen.toNat ≤ s.params.pSym → s.regs.mtLen.toNat ≤ s.params.pMt →
        ∀ i, i < s.regs.mtLen.toNat → mediaByteOk (s.mem.byte (mtWin + i)) = false →
          (∀ j, j < i → mediaByteOk (s.mem.byte (mtWin + j)) = true) → CompletesWithError (.frame false) s 0x13 i)
    ∧ (s.regs.symLen.toNat ≤ s.params.pSym →
        (untag = true ∨ (s.regs.mtLen.toNat ≤ s.params.pMt ∧ ∀ c ∈ s.mt, mediaByteOk c = true)) →
        s.params.pDout < s.containerLength s.regs.symLen.toNat untag →
        CompletesWithError (.frame untag) s 0x12 (s.containerLength s.regs.symLen.toNat untag))

/-- The errors of UNFRAME in check order: kind, length, the payload segment's base64 (at its position in the container), its
symbol characters (at the symbol's index), capacities (R209, R212, R263). -/
def Obligations.UnframeErrors : Prop :=
  ∀ (s : State),
    (∀ n, 2 ≤ n → n ≤ 15 → CompletesWithError (.unframe (.other n)) s 0x04 n)
    ∧ ∀ k : PayloadKind,
      (s.params.pDin < s.regs.dinLen.toNat → CompletesWithError (.unframe (.supported k)) s 0x11 0x018)
      ∧ (s.regs.dinLen.toNat ≤ s.params.pDin →
        (∀ r base, PayloadSegment s.din r base →
          (∀ e, b64dec r = .error e → CompletesWithError (.unframe (.supported k)) s 0x03 (base + e))
          ∧ ∀ bytes j, b64dec r = .ok bytes → symbolsOfChars bytes = .error j →
            CompletesWithError (.unframe (.supported k)) s 0x05 j)
        ∧ ∀ p, parseContainer s.din k = .ok p →
          (s.params.pSym < p.seq.length → CompletesWithError (.unframe (.supported k)) s 0x12 p.seq.length)
          ∧ (p.seq.length ≤ s.params.pSym → s.params.pMt < p.mt.length →
            CompletesWithError (.unframe (.supported k)) s 0x12 p.mt.length))

/-- The errors of ENCRYPT in check order: kind, lengths, key, media type, capacities (R240, R263). -/
def Obligations.EncryptErrors : Prop :=
  ∀ (s : State) (untag : Bool),
    (∀ n, 2 ≤ n → n ≤ 15 → CompletesWithError (.encrypt (.other n) untag) s 0x04 n)
    ∧ ∀ k : PayloadKind,
      (s.params.pDin < s.regs.dinLen.toNat → CompletesWithError (.encrypt (.supported k) untag) s 0x11 0x018)
      ∧ (s.regs.dinLen.toNat ≤ s.params.pDin → s.params.pKey < s.regs.keyLen.toNat →
          CompletesWithError (.encrypt (.supported k) untag) s 0x11 0x01C)
      ∧ (s.regs.dinLen.toNat ≤ s.params.pDin → s.regs.keyLen.toNat ≤ s.params.pKey →
          s.params.pMt < s.regs.mtLen.toNat → CompletesWithError (.encrypt (.supported k) false) s 0x11 0x020)
      ∧ (s.regs.dinLen.toNat ≤ s.params.pDin → s.regs.keyLen.toNat ≤ s.params.pKey →
          (untag = true ∨ s.regs.mtLen.toNat ≤ s.params.pMt) →
          (s.regs.keyLen = 0 → CompletesWithError (.encrypt (.supported k) untag) s 0x02 0x01C)
          ∧ (s.regs.keyLen ≠ 0 → s.regs.keyLen.toNat < 8 →
              CompletesWithError (.encrypt (.supported k) untag) s 0x01 0)
          ∧ (8 ≤ s.regs.keyLen.toNat → untag = false →
              ∀ i, i < s.regs.mtLen.toNat → mediaByteOk (s.mem.byte (mtWin + i)) = false →
                (∀ j, j < i → mediaByteOk (s.mem.byte (mtWin + j)) = true) →
                CompletesWithError (.encrypt (.supported k) untag) s 0x13 i)
          ∧ (8 ≤ s.regs.keyLen.toNat → (untag = true ∨ ∀ c ∈ s.mt, mediaByteOk c = true) →
              (s.params.pSym < 4 * s.regs.dinLen.toNat →
                CompletesWithError (.encrypt (.supported k) untag) s 0x12 (4 * s.regs.dinLen.toNat))
              ∧ (4 * s.regs.dinLen.toNat ≤ s.params.pSym →
                s.params.pDout < s.containerLength (4 * s.regs.dinLen.toNat) untag →
                CompletesWithError (.encrypt (.supported k) untag) s 0x12
                  (s.containerLength (4 * s.regs.dinLen.toNat) untag))))

/-- The errors of DECRYPT in check order: kind, lengths, key, the payload segment's base64 (at its position in the container),
its symbol characters (at the symbol's index), capacities (R209, R241, R263). -/
def Obligations.DecryptErrors : Prop :=
  ∀ (s : State),
    (∀ n, 2 ≤ n → n ≤ 15 → CompletesWithError (.decrypt (.other n)) s 0x04 n)
    ∧ ∀ k : PayloadKind,
      (s.params.pDin < s.regs.dinLen.toNat → CompletesWithError (.decrypt (.supported k)) s 0x11 0x018)
      ∧ (s.regs.dinLen.toNat ≤ s.params.pDin → s.params.pKey < s.regs.keyLen.toNat →
          CompletesWithError (.decrypt (.supported k)) s 0x11 0x01C)
      ∧ (s.regs.dinLen.toNat ≤ s.params.pDin → s.regs.keyLen.toNat ≤ s.params.pKey →
          (s.regs.keyLen = 0 → CompletesWithError (.decrypt (.supported k)) s 0x02 0x01C)
          ∧ (s.regs.keyLen ≠ 0 → s.regs.keyLen.toNat < 8 → CompletesWithError (.decrypt (.supported k)) s 0x01 0)
          ∧ (8 ≤ s.regs.keyLen.toNat →
              (∀ r base, PayloadSegment s.din r base →
                (∀ e, b64dec r = .error e → CompletesWithError (.decrypt (.supported k)) s 0x03 (base + e))
                ∧ ∀ bytes j, b64dec r = .ok bytes → symbolsOfChars bytes = .error j →
                  CompletesWithError (.decrypt (.supported k)) s 0x05 j)
              ∧ ∀ p, parseContainer s.din k = .ok p →
                (s.params.pSym < p.seq.length → CompletesWithError (.decrypt (.supported k)) s 0x12 p.seq.length)
                ∧ (p.seq.length ≤ s.params.pSym → s.params.pMt < p.mt.length →
                    CompletesWithError (.decrypt (.supported k)) s 0x12 p.mt.length)
                ∧ (p.seq.length ≤ s.params.pSym → p.mt.length ≤ s.params.pMt → s.params.pDout < p.seq.length / 4 →
                    CompletesWithError (.decrypt (.supported k)) s 0x12 (p.seq.length / 4))))

/-! ### Laws of the transforms -/

/-- The codec's length and round-trip laws; every bit string of the block has even length (R146). -/
def Obligations.CodecRoundTrip : Prop :=
  (∀ b : List Byte, (bitsToSymbols (bytesToBits b)).length = 4 * b.length)
  ∧ (∀ b : List Byte, bitsToBytes (symbolsToBits (bitsToSymbols (bytesToBits b))) = b)
  ∧ (∀ seq : List Symbol, (bitsToBytes (symbolsToBits seq)).length = seq.length / 4)
  ∧ (∀ (seq : List Symbol) (tail : List Symbol), seq.length % 4 = 0 → tail.length < 4 →
      bitsToBytes (symbolsToBits (seq ++ tail)) = bitsToBytes (symbolsToBits seq))
  ∧ (∀ b : List Byte, (bytesToBits b).length % 2 = 0) ∧ ∀ seq : List Symbol, (symbolsToBits seq).length % 2 = 0

/-- The properties of the generator (R163): equal hashes modulo 233280 give equal key streams, the rule's example among
them; a shorter stream is a prefix of a longer one; after the first draw the state is below 233280 and symbol `i` is drawn
exactly when it lies in `[58320 i, 58320 (i + 1))`. -/
def Obligations.KeystreamProperties : Prop :=
  (∀ (key key' : List CodeUnit) (n : Nat), passHash key % 233280 = passHash key' % 233280 →
    (deriveKeyStream key n).ks = (deriveKeyStream key' n).ks)
  ∧ passHash [0x41, 0x61, 0x41, 0x61, 0x41, 0x61, 0x41, 0x61] = 0xDFC9C100
  ∧ passHash [0x42, 0x42, 0x42, 0x42, 0x42, 0x42, 0x42, 0x42] = 0xDFC9C100
  ∧ (∀ (key : List CodeUnit) (n n' : Nat), n ≤ n' →
    (deriveKeyStream key n).ks = (deriveKeyStream key n').ks.take n)
  ∧ ∀ (key : List CodeUnit) (n : Nat),
    (deriveKeyStream key (n + 1)).state < 233280
    ∧ (deriveKeyStream key (n + 1)).ks.length = n + 1
    ∧ ∀ i, i < 4 → ((deriveKeyStream key (n + 1)).ks[n]? = some (BitVec.ofNat 2 i) ↔
        58320 * i ≤ (deriveKeyStream key (n + 1)).state ∧ (deriveKeyStream key (n + 1)).state < 58320 * (i + 1))

/-- The laws of the substitution (R184), for key streams that are not empty: for every admissible table both round trips, and
two key streams that differ at a position give different symbols there; with the default table the two functions are
one. -/
def Obligations.SubstitutionLaws : Prop :=
  (∀ (t : SubstTable) (seq ks ks' : List Symbol), isLatin t = true → ks ≠ [] → ks' ≠ [] →
    unsubstitute t (substitute t seq ks) ks = seq
    ∧ substitute t (unsubstitute t seq ks) ks = seq
    ∧ ∀ i, i < seq.length → keySymbol ks i ≠ keySymbol ks' i →
      (unsubstitute t (substitute t seq ks) ks')[i]? ≠ seq[i]?)
  ∧ ∀ seq ks : List Symbol, ks ≠ [] → substitute Config.xorTable seq ks = unsubstitute Config.xorTable seq ks

/-- The default table is the exclusive or, and is a Latin square (R180, R181). -/
def Obligations.DefaultTableIsXor : Prop :=
  (∀ k d : Symbol, tableAt Config.xorTable k d = k ^^^ d) ∧ (∀ k c : Symbol, tableInv Config.xorTable k c = k ^^^ c)
    ∧ isLatin Config.xorTable = true

/-- A symbol's character is A, G, C or T, and a byte string is read back symbol by symbol; the least byte that is none of the
four is reported (R200, R201). -/
def Obligations.SymbolCharacters : Prop :=
  (∀ seq : List Symbol, symbolsOfChars (charsOf seq) = .ok seq
    ∧ ∀ i (h : i < seq.length), (charsOf seq)[i]? = [0x41, 0x47, 0x43, 0x54][seq[i].toNat]?)
  ∧ (∀ r : List Byte, (∀ c ∈ r, c ∈ ([0x41, 0x47, 0x43, 0x54] : List Byte)) →
    ∃ seq, symbolsOfChars r = .ok seq ∧ charsOf seq = r)
  ∧ ∀ (r : List Byte) (j : Nat) (h : j < r.length), r[j] ∉ ([0x41, 0x47, 0x43, 0x54] : List Byte) →
    (∀ i (hi : i < j), r[i]'(Nat.lt_trans hi h) ∈ ([0x41, 0x47, 0x43, 0x54] : List Byte)) → symbolsOfChars r = .error j

/-- The encoder's output group by group (R203): its length, and the four characters of every group, a missing byte counting
as 0 and the padding in its place. -/
def Obligations.Base64EncoderOutput : Prop :=
  ∀ b : List Byte, (b64enc b).length = 4 * ((b.length + 2) / 3)
    ∧ ∀ j q, 3 * j < b.length → q < 4 → (b64enc b)[4 * j + q]? =
        if (q = 2 ∧ b.length < 3 * j + 2) ∨ (q = 3 ∧ b.length < 3 * j + 3) then some 0x3D
        else alphabet[((b[3 * j]?.getD 0 ++ b[3 * j + 1]?.getD 0 ++ b[3 * j + 2]?.getD 0).extractLsb'
          (18 - 6 * q) 6).toNat]?

/-- The decoder gives back what was encoded, and the encoder's output has no ":" (R202, R204). -/
def Obligations.Base64RoundTrip : Prop :=
  ∀ b : List Byte, b64dec (b64enc b) = .ok b ∧ (0x3A : Byte) ∉ b64enc b

/-- The strict decoder (R204): its checks in their order, with the position each reports; when none fails, the bytes of every
quartet but the dropped ones. -/
def Obligations.Base64DecoderChecks : Prop :=
  ∀ p : List Byte,
    (∀ i (h : i < p.length), b64Legal p[i] = false → (∀ j (hj : j < i), b64Legal (p[j]'(Nat.lt_trans hj h)) = true) →
      b64dec p = .error i)
    ∧ ((∀ c ∈ p, b64Legal c = true) → p.length % 4 ≠ 0 → b64dec p = .error p.length)
    ∧ ((∀ c ∈ p, b64Legal c = true) → p.length % 4 = 0 →
      ∀ i (h : i < p.length), p[i] = 0x3D → (∀ j (hj : j < i), p[j]'(Nat.lt_trans hj h) ≠ 0x3D) →
        ((2 < p.length - i ∨ ∃ j, ∃ h : j < p.length, i < j ∧ p[j] ≠ 0x3D) → b64dec p = .error i))
    ∧ ((∀ c ∈ p, b64Legal c = true) → p.length % 4 = 0 →
      (∀ i j (h : j < p.length) (hij : i ≤ j), p[i]'(Nat.lt_of_le_of_lt hij h) = 0x3D → p.length - i ≤ 2 ∧ p[j] = 0x3D) →
      ∃ r, b64dec p = .ok r)
    ∧ (∀ r, b64dec p = .ok r → p.length % 4 = 0 ∧ r.length + p.count 0x3D = 3 * (p.length / 4)
      ∧ ∀ j t (v0 v1 v2 v3 : BitVec 6), t < 3 → 3 * j + t < r.length → HasValue p (4 * j) v0 → HasValue p (4 * j + 1) v1 →
        HasValue p (4 * j + 2) v2 → HasValue p (4 * j + 3) v3 →
        r[3 * j + t]? = some ((v0 ++ v1 ++ v2 ++ v3).extractLsb' (16 - 8 * t) 8))
    ∧ ∀ c : Byte, b64Legal c = true ↔ c = 0x3D ∨ c ∈ alphabet

/-- Metadata are recognised exactly when the left segment decodes to the bytes this encoder writes for a valid media type
(R205, R207). -/
def Obligations.MetadataIsRecognizedExactly : Prop :=
  ∀ (l mt : List Byte), recognizeMeta l = some mt ↔
    b64dec l = .ok ([0x7B, 0x22, 0x74, 0x79, 0x70, 0x65, 0x22, 0x3A, 0x22] ++ mt ++ [0x22, 0x7D])
      ∧ ∀ c ∈ mt, 0x20 ≤ c.toNat ∧ c.toNat ≤ 0x7E ∧ c ≠ 0x22 ∧ c ≠ 0x5C

/-- The parser on every container, and the framer's laws (R209, R210). The two default media types, byte by byte (R206). A
container with a ":" gives the payload after the first one, at base `left.length + 1`, and the recognised media type or else
the kind's default (a legacy token, corrupted metadata); one without ":" is all payload, at base 0, with the default. A
payload that fails base64 gives CONTAINER_DECODE at base plus the position, before the symbols are looked at; a byte that is
no symbol character gives SYMBOL_DECODE at the symbol's index. A second ":" fails at its position, an empty payload is no
symbols, a container gives back its symbols and its media type or the default, and no error comes from the metadata. -/
def Obligations.ContainerRoundTrip : Prop :=
  defaultMediaType .text = [0x74, 0x65, 0x78, 0x74, 0x2F, 0x70, 0x6C, 0x61, 0x69, 0x6E]
  ∧ defaultMediaType .binary = [0x61, 0x70, 0x70, 0x6C, 0x69, 0x63, 0x61, 0x74, 0x69, 0x6F, 0x6E, 0x2F,
      0x6F, 0x63, 0x74, 0x65, 0x74, 0x2D, 0x73, 0x74, 0x72, 0x65, 0x61, 0x6D]
  ∧ ErrCode.containerDecode.toByte = 0x03 ∧ ErrCode.symbolDecode.toByte = 0x05
  ∧ (∀ c : List Byte, ∃ r base, PayloadSegment c r base)
  ∧ (∀ (c r : List Byte) (base : Nat) (k : PayloadKind), PayloadSegment c r base →
      (∀ e, b64dec r = .error e → parseContainer c k = .error ⟨.containerDecode, BitVec.ofNat 32 (base + e)⟩)
      ∧ ∀ bytes, b64dec r = .ok bytes →
        (∀ j, symbolsOfChars bytes = .error j → parseContainer c k = .error ⟨.symbolDecode, BitVec.ofNat 32 j⟩)
        ∧ ∀ seq, symbolsOfChars bytes = .ok seq →
          ((0x3A : Byte) ∉ c → parseContainer c k = .ok ⟨seq, defaultMediaType k⟩)
          ∧ ∀ left, (0x3A : Byte) ∉ left → c = left ++ [0x3A] ++ r →
            (∀ mt, recognizeMeta left = some mt → parseContainer c k = .ok ⟨seq, mt⟩)
            ∧ (recognizeMeta left = none → parseContainer c k = .ok ⟨seq, defaultMediaType k⟩))
  ∧ (∀ (left r r' : List Byte) (k : PayloadKind), (0x3A : Byte) ∉ left → (∀ c ∈ r, b64Legal c = true) →
      parseContainer (left ++ [0x3A] ++ (r ++ [0x3A] ++ r')) k
        = .error ⟨.containerDecode, BitVec.ofNat 32 (left.length + 1 + r.length)⟩)
  ∧ (∀ k : PayloadKind, parseContainer [] k = .ok ⟨[], defaultMediaType k⟩)
  ∧ (∀ (left : List Byte) (k : PayloadKind), (0x3A : Byte) ∉ left →
      ∃ mt, parseContainer (left ++ [0x3A]) k = .ok ⟨[], mt⟩)
  ∧ ∀ (seq : List Symbol) (mt : List Byte) (k : PayloadKind), (∀ c ∈ mt, mediaByteOk c = true) →
    parseContainer (encodeContainer seq mt false) k
        = .ok ⟨seq, if mt = [] then defaultMediaType .text else mt⟩
    ∧ parseContainer (encodeContainer seq mt true) k = .ok ⟨seq, defaultMediaType k⟩
    ∧ ∀ (left left' right : List Byte), (0x3A : Byte) ∉ left → (0x3A : Byte) ∉ left' → left.length = left'.length →
      ∀ e, parseContainer (left ++ [0x3A] ++ right) k = .error e ↔
        parseContainer (left' ++ [0x3A] ++ right) k = .error e

/-! ### The pipeline -/

/-- Encrypt, copy DOUT to DIN, decrypt under the same passphrase: under the conditions of R244 both commands succeed and the
payload comes back, with the media type or the default the format calls for. -/
def Obligations.DecryptUndoesEncrypt : Prop :=
  ∀ (s : State) (k k' : PayloadKind) (untag : Bool), paramsLegal s.params = true →
    s.regs.dinLen.toNat ≤ s.params.pDin → 8 ≤ s.regs.keyLen.toNat → s.regs.keyLen.toNat ≤ s.params.pKey →
    (untag = true ∨ (s.regs.mtLen.toNat ≤ s.params.pMt ∧ ∀ c ∈ s.mt, mediaByteOk c = true)) →
    4 * s.regs.dinLen.toNat ≤ s.params.pSym →
    s.containerLength (4 * s.regs.dinLen.toNat) untag ≤ s.params.pDout →
    s.containerLength (4 * s.regs.dinLen.toNat) untag ≤ s.params.pDin →
    ∃ t, exec (.encrypt (.supported k) untag) s = .next t ∧ t.regs.status = s.doneStatus
      ∧ ∀ s' : State, s'.params = s.params → s'.key = s.key → s'.regs.keyLen = s.regs.keyLen →
        s'.regs.dinLen = t.regs.doutLen →
        (∀ i, i < t.regs.doutLen.toNat → s'.mem.byte (dinWin + i) = t.mem.byte (doutWin + i)) →
        ∃ t', exec (.decrypt (.supported k')) s' = .next t' ∧ t'.regs.status = s'.doneStatus
          ∧ t'.regs.doutLen = s.regs.dinLen
          ∧ (∀ i, i < s.regs.dinLen.toNat → t'.mem.byte (doutWin + i) = s.mem.byte (dinWin + i))
          ∧ t'.mt = (if untag then defaultMediaType k' else if s.regs.mtLen = 0 then defaultMediaType .text else s.mt)

/-- A successful ENCRYPT has the same effect as PACK, KS_REQ := 4 DIN_LEN, DERIVE, SUBST and FRAME, but for KS_REQ
(R242). -/
def Obligations.EncryptIsTheChain : Prop :=
  ∀ (s t : State) (k : PayloadKind) (untag : Bool), paramsLegal s.params = true →
    s.regs.status.err = false → exec (.encrypt (.supported k) untag) s = .next t → t.regs.status.err = false →
    ∃ s1 s2 s3 s4, exec .pack s = .next s1
      ∧ exec .derive { s1 with regs := { s1.regs with ksReq := BitVec.ofNat 32 (4 * s.regs.dinLen.toNat) } } = .next s2
      ∧ exec .subst s2 = .next s3 ∧ exec (.frame untag) s3 = .next s4
      ∧ t.regs = { s4.regs with ksReq := s.regs.ksReq } ∧ ∀ a, t.mem.byte a = s4.mem.byte a

/-- A successful DECRYPT has the same effect as UNFRAME, KS_REQ := SYM_LEN, DERIVE, UNSUBST and UNPACK, but for KS_REQ
(R243). -/
def Obligations.DecryptIsTheChain : Prop :=
  ∀ (s t : State) (k : PayloadKind), paramsLegal s.params = true →
    s.regs.status.err = false → exec (.decrypt (.supported k)) s = .next t → t.regs.status.err = false →
    ∃ s1 s2 s3 s4, exec (.unframe (.supported k)) s = .next s1
      ∧ exec .derive { s1 with regs := { s1.regs with ksReq := s1.regs.symLen } } = .next s2
      ∧ exec .unsubst s2 = .next s3 ∧ exec .unpack s3 = .next s4
      ∧ t.regs = { s4.regs with ksReq := s.regs.ksReq } ∧ ∀ a, t.mem.byte a = s4.mem.byte a
end

