-- ==== Sys2Proof/Laws/Memory.lean ====
section
/-! SUPPORT. The laws of the buffer memory: what a read gives after a write, and that every write keeps the canonical
form. -/

namespace Sys2Proof.Machine

/-! ### Cells -/

theorem findCell_insertCell (a b : Nat) (v : Byte) (cs : List Host.Cell) :
    findCell a (insertCell b v cs) = if a = b then some v else findCell a cs := by
  induction cs with
  | nil => simp [insertCell, findCell, eq_comm]
  | cons c rest ih =>
    simp only [insertCell]
    split_ifs with h1 h2 h3 <;> simp_all [findCell] <;> grind

/-- The least offset of the list lies above `lo`. -/
def cellsAbove (lo : Nat) : List Host.Cell → Prop
  | [] => True
  | c :: _ => lo < c.1

theorem cellsRise_cons (c : Host.Cell) (rest : List Host.Cell) :
    cellsRise (c :: rest) = true ↔ cellsAbove c.1 rest ∧ cellsRise rest = true := by
  cases rest <;> simp [cellsRise, cellsAbove]

theorem cellsAbove_insertCell {lo a : Nat} {v : Byte} {cs : List Host.Cell} (h : cellsAbove lo cs) (ha : lo < a) :
    cellsAbove lo (insertCell a v cs) := by
  cases cs with
  | nil => exact ha
  | cons c rest => simp only [insertCell]; split_ifs <;> simp_all [cellsAbove]

theorem cellsRise_insertCell (a : Nat) (v : Byte) (cs : List Host.Cell) (h : cellsRise cs = true) :
    cellsRise (insertCell a v cs) = true := by
  induction cs with
  | nil => rfl
  | cons c rest ih =>
    obtain ⟨hab, hr⟩ := (cellsRise_cons c rest).1 h
    simp only [insertCell]
    split_ifs with h1 h2
    · exact (cellsRise_cons _ _).2 ⟨h1, h⟩
    · exact (cellsRise_cons _ _).2 ⟨h2 ▸ hab, hr⟩
    · exact (cellsRise_cons _ _).2 ⟨cellsAbove_insertCell hab (by omega), ih hr⟩

theorem mem_insertCell {c : Host.Cell} {a : Nat} {v : Byte} {cs : List Host.Cell} (h : c ∈ insertCell a v cs) :
    c = (a, v) ∨ c ∈ cs := by
  induction cs with
  | nil => simpa [insertCell] using h
  | cons d rest ih =>
    simp only [insertCell] at h
    split_ifs at h <;> simp_all <;> grind

/-! ### Bytes -/

@[simp] theorem Memory.set_gen (m : Memory) (a : Nat) (v : Byte) : (m.set a v).gen = m.gen := rfl

/-- What one byte write does to every byte. -/
theorem Memory.byte_set (m : Memory) (a b : Nat) (v : Byte) :
    (m.set b v).byte a = if a = b then v else m.byte a := by
  unfold Memory.byte Memory.set
  simp only [findCell_insertCell]
  split_ifs <;> rfl

@[simp] theorem Memory.byte_set_self (m : Memory) (a : Nat) (v : Byte) : (m.set a v).byte a = v := by
  simp [Memory.byte_set]

theorem Memory.byte_set_other (m : Memory) {a b : Nat} (v : Byte) (h : a ≠ b) : (m.set b v).byte a = m.byte a := by
  simp [Memory.byte_set, h]

theorem Memory.wf_set (m : Memory) (a : Nat) (v : Byte) (h : m.wf = true) : (m.set a v).wf = true :=
  cellsRise_insertCell a v m.cells h

@[simp] theorem Memory.storeBytes_nil (m : Memory) (a : Nat) : m.storeBytes a [] = m := rfl

@[simp] theorem Memory.storeBytes_cons (m : Memory) (a : Nat) (b : Byte) (bs : List Byte) :
    m.storeBytes a (b :: bs) = (m.set a b).storeBytes (a + 1) bs := rfl

/-- What a store of bytes does to every byte. -/
theorem Memory.byte_storeBytes (m : Memory) (a x : Nat) (bs : List Byte) :
    (m.storeBytes a bs).byte x = if h : a ≤ x ∧ x < a + bs.length then bs[x - a] else m.byte x := by
  induction bs generalizing m a with
  | nil => simp
  | cons b rest ih =>
    rw [Memory.storeBytes_cons, ih]
    by_cases h1 : a + 1 ≤ x ∧ x < a + 1 + rest.length
    · have h2 : a ≤ x ∧ x < a + (b :: rest).length := by simp; omega
      have h3 : x - a = (x - (a + 1)) + 1 := by omega
      simp only [h1, h2, and_self, dif_pos]
      simp [h3]
    · by_cases h2 : x = a
      · subst h2; simp
      · have h3 : ¬ (a ≤ x ∧ x < a + (b :: rest).length) := by simp; omega
        rw [dif_neg h1, dif_neg h3, Memory.byte_set_other _ _ h2]

theorem Memory.byte_storeBytes_in (m : Memory) (a i : Nat) (bs : List Byte) (h : i < bs.length) :
    (m.storeBytes a bs).byte (a + i) = bs[i] := by
  rw [Memory.byte_storeBytes, dif_pos (by omega)]
  simp

theorem Memory.byte_storeBytes_out (m : Memory) (a x : Nat) (bs : List Byte) (h : ¬ (a ≤ x ∧ x < a + bs.length)) :
    (m.storeBytes a bs).byte x = m.byte x := by
  rw [Memory.byte_storeBytes, dif_neg h]

theorem Memory.wf_storeBytes (m : Memory) (a : Nat) (bs : List Byte) (h : m.wf = true) :
    (m.storeBytes a bs).wf = true := by
  induction bs generalizing m a with
  | nil => exact h
  | cons b rest ih => exact ih _ _ (m.wf_set a b h)

theorem Memory.mem_cells_storeBytes {m : Memory} {a : Nat} {bs : List Byte} {c : Host.Cell}
    (h : c ∈ (m.storeBytes a bs).cells) : (a ≤ c.1 ∧ c.1 < a + bs.length) ∨ c ∈ m.cells := by
  induction bs generalizing m a with
  | nil => exact Or.inr h
  | cons b rest ih =>
    rcases ih h with h1 | h1
    · left; simp only [List.length_cons]; omega
    · rcases mem_insertCell h1 with h2 | h2
      · left; subst h2; simp
      · exact Or.inr h2

/-! ### Words -/

theorem Memory.wf_storeWord (m : Memory) (a : Nat) (v : Word) (h : m.wf = true) : (m.storeWord a v).wf = true :=
  m.wf_storeBytes a _ h

/-- What a word store does to every byte: four bytes, low byte first. -/
theorem Memory.byte_storeWord (m : Memory) (a x : Nat) (v : Word) :
    (m.storeWord a v).byte x =
      if a ≤ x ∧ x < a + 4 then v.extractLsb' (8 * (x - a)) 8 else m.byte x := by
  unfold Memory.storeWord
  rw [Memory.byte_storeBytes]
  by_cases h : a ≤ x ∧ x < a + 4
  · have h' : a ≤ x ∧ x < a + [v.extractLsb' 0 8, v.extractLsb' 8 8, v.extractLsb' 16 8, v.extractLsb' 24 8].length := h
    rw [dif_pos h', if_pos h]
    obtain ⟨i, rfl⟩ : ∃ i, x = a + i := ⟨x - a, by omega⟩
    have hi : i < 4 := by omega
    simp only [Nat.add_sub_cancel_left]
    interval_cases i <;> rfl
  · rw [if_neg h, dif_neg (by simpa using h)]

theorem Memory.word_storeWord_self (m : Memory) (a : Nat) (v : Word) : (m.storeWord a v).word a = v := by
  unfold Memory.word
  simp only [Memory.byte_storeWord]
  have e0 : a ≤ a ∧ a < a + 4 := by omega
  have e1 : a ≤ a + 1 ∧ a + 1 < a + 4 := by omega
  have e2 : a ≤ a + 2 ∧ a + 2 < a + 4 := by omega
  have e3 : a ≤ a + 3 ∧ a + 3 < a + 4 := by omega
  rw [if_pos e0, if_pos e1, if_pos e2, if_pos e3]
  simp only [Nat.add_sub_cancel_left, Nat.sub_self]
  ext i hi
  simp only [BitVec.getElem_append, BitVec.getElem_extractLsb']
  split_ifs <;> simp [BitVec.getLsbD_eq_getElem, hi] <;> grind

/-! ### Symbols -/

theorem laneSymbol_laneWith (b : Byte) (q r : Nat) (v : Symbol) (hq : q < 4) (hr : r < 4) :
    laneSymbol (laneWith b q v) r = if r = q then v else laneSymbol b r := by
  interval_cases q <;> interval_cases r <;>
    (unfold laneSymbol laneWith; ext i hi; interval_cases i <;> simp)

/-- What one symbol write does to every byte. -/
theorem Memory.byte_setSym (m : Memory) (win i x : Nat) (v : Symbol) :
    (m.setSym win i v).byte x =
      if x = win + i / 4 then laneWith (m.byte (win + i / 4)) (i % 4) v else m.byte x :=
  Memory.byte_set ..

/-- What one symbol write does to every symbol of its window. -/
theorem Memory.sym_setSym (m : Memory) (win i j : Nat) (v : Symbol) :
    (m.setSym win i v).sym win j = if j = i then v else m.sym win j := by
  unfold Memory.sym
  rw [Memory.byte_setSym]
  by_cases h : win + j / 4 = win + i / 4
  · have hq : j / 4 = i / 4 := by omega
    rw [if_pos h, laneSymbol_laneWith _ _ _ _ (by omega) (by omega), hq]
    by_cases hr : j % 4 = i % 4
    · rw [if_pos hr, if_pos (by omega)]
    · rw [if_neg hr, if_neg (by omega)]
  · rw [if_neg h, if_neg (by rintro rfl; exact h rfl)]

theorem Memory.sym_congr {m m' : Memory} {win win' i j : Nat} (h : m.byte (win + i / 4) = m'.byte (win' + j / 4))
    (hq : i % 4 = j % 4) : m.sym win i = m'.sym win' j := by
  unfold Memory.sym; rw [h, hq]

@[simp] theorem Memory.storeSyms_nil (m : Memory) (win i : Nat) : m.storeSyms win i [] = m := rfl

@[simp] theorem Memory.storeSyms_cons (m : Memory) (win i : Nat) (q : Symbol) (qs : List Symbol) :
    m.storeSyms win i (q :: qs) = (m.setSym win i q).storeSyms win (i + 1) qs := rfl

/-- What a store of symbols does to every symbol of its window. -/
theorem Memory.sym_storeSyms (m : Memory) (win i j : Nat) (qs : List Symbol) :
    (m.storeSyms win i qs).sym win j = if h : i ≤ j ∧ j < i + qs.length then qs[j - i] else m.sym win j := by
  induction qs generalizing m i with
  | nil => simp
  | cons q rest ih =>
    rw [Memory.storeSyms_cons, ih]
    by_cases h1 : i + 1 ≤ j ∧ j < i + 1 + rest.length
    · have h2 : i ≤ j ∧ j < i + (q :: rest).length := by simp only [List.length_cons]; omega
      have h3 : j - i = (j - (i + 1)) + 1 := by omega
      rw [dif_pos h1, dif_pos h2]
      simp [h3]
    · by_cases h2 : j = i
      · subst h2; simp [Memory.sym_setSym]
      · have h3 : ¬ (i ≤ j ∧ j < i + (q :: rest).length) := by simp only [List.length_cons]; omega
        rw [dif_neg h1, dif_neg h3, Memory.sym_setSym, if_neg h2]

theorem Memory.sym_storeSyms_in (m : Memory) (win i : Nat) (qs : List Symbol) (h : i < qs.length) :
    (m.storeSyms win 0 qs).sym win i = qs[i] := by
  rw [Memory.sym_storeSyms, dif_pos (by omega)]; rfl

theorem Memory.sym_storeSyms_out (m : Memory) (win i : Nat) (qs : List Symbol) (h : qs.length ≤ i) :
    (m.storeSyms win 0 qs).sym win i = m.sym win i := by
  rw [Memory.sym_storeSyms, dif_neg (by omega)]

/-- A store of symbols writes no byte outside the bytes that hold them. -/
theorem Memory.byte_storeSyms_out (m : Memory) (win i x : Nat) (qs : List Symbol)
    (h : x < win + i / 4 ∨ win + (i + qs.length + 3) / 4 ≤ x) : (m.storeSyms win i qs).byte x = m.byte x := by
  induction qs generalizing m i with
  | nil => rfl
  | cons q rest ih =>
    simp only [List.length_cons] at h
    rw [Memory.storeSyms_cons, ih _ _ (by omega), Memory.byte_setSym, if_neg (by omega)]

theorem Memory.wf_setSym (m : Memory) (win i : Nat) (v : Symbol) (h : m.wf = true) : (m.setSym win i v).wf = true :=
  m.wf_set _ _ h

theorem Memory.wf_storeSyms (m : Memory) (win i : Nat) (qs : List Symbol) (h : m.wf = true) :
    (m.storeSyms win i qs).wf = true := by
  induction qs generalizing m i with
  | nil => exact h
  | cons q rest ih => exact ih _ _ (m.wf_setSym win i q h)

theorem Memory.mem_cells_storeSyms {m : Memory} {win i : Nat} {qs : List Symbol} {c : Host.Cell}
    (h : c ∈ (m.storeSyms win i qs).cells) :
    (win + i / 4 ≤ c.1 ∧ c.1 < win + (i + qs.length + 3) / 4) ∨ c ∈ m.cells := by
  induction qs generalizing m i with
  | nil => exact Or.inr h
  | cons q rest ih =>
    simp only [List.length_cons]
    rcases ih h with h1 | h1
    · left; omega
    · rcases mem_insertCell h1 with h2 | h2
      · left; subst h2; omega
      · exact Or.inr h2

/-! ### All the buffer writes of a command -/

/-- The results of a command stay inside their windows' regions (the legal capacities of R7 make it so). -/
structure Update.Fits (u : Update) : Prop where
  sym : u.sym.length ≤ 8388608
  ks : u.ks.length ≤ 8388608
  dout : u.dout.length ≤ 4194304
  mt : u.mt.length ≤ 4096

theorem Memory.wf_applyUpdate (m : Memory) (u : Update) (h : m.wf = true) : (m.applyUpdate u).wf = true :=
  Memory.wf_storeBytes _ _ _ (Memory.wf_storeBytes _ _ _ (Memory.wf_storeSyms _ _ _ _ (Memory.wf_storeSyms _ _ _ _ h)))

/-- A byte outside the four prefixes a command writes stays. -/
theorem Memory.byte_applyUpdate_out (m : Memory) (u : Update) (x : Nat)
    (h1 : ¬ (symWin ≤ x ∧ x < symWin + (u.sym.length + 3) / 4))
    (h2 : ¬ (ksWin ≤ x ∧ x < ksWin + (u.ks.length + 3) / 4))
    (h3 : ¬ (doutWin ≤ x ∧ x < doutWin + u.dout.length))
    (h4 : ¬ (mtWin ≤ x ∧ x < mtWin + u.mt.length)) : (m.applyUpdate u).byte x = m.byte x := by
  unfold Memory.applyUpdate
  rw [Memory.byte_storeBytes_out _ _ _ _ h4, Memory.byte_storeBytes_out _ _ _ _ h3,
    Memory.byte_storeSyms_out _ _ _ _ _ (by omega), Memory.byte_storeSyms_out _ _ _ _ _ (by omega)]

theorem Memory.dout_applyUpdate (m : Memory) (u : Update) (hu : u.Fits) (i : Nat) (h : i < u.dout.length) :
    (m.applyUpdate u).byte (doutWin + i) = u.dout[i] := by
  have := hu.mt; have := hu.dout
  unfold Memory.applyUpdate
  rw [Memory.byte_storeBytes_out _ _ _ _ (by unfold mtWin doutWin; omega), Memory.byte_storeBytes_in _ _ _ _ h]

theorem Memory.mt_applyUpdate (m : Memory) (u : Update) (i : Nat) (h : i < u.mt.length) :
    (m.applyUpdate u).byte (mtWin + i) = u.mt[i] := by
  unfold Memory.applyUpdate
  rw [Memory.byte_storeBytes_in _ _ _ _ h]

theorem Memory.sym_applyUpdate (m : Memory) (u : Update) (hu : u.Fits) (i : Nat) (hi : i < 8388608) :
    (m.applyUpdate u).sym symWin i = if h : i < u.sym.length then u.sym[i] else m.sym symWin i := by
  have := hu.mt; have := hu.dout
  have e : (m.applyUpdate u).sym symWin i = (m.storeSyms symWin 0 u.sym).sym symWin i := by
    refine Memory.sym_congr ?_ rfl
    unfold Memory.applyUpdate
    rw [Memory.byte_storeBytes_out _ _ _ _ (by unfold mtWin symWin; omega),
      Memory.byte_storeBytes_out _ _ _ _ (by unfold doutWin symWin; omega),
      Memory.byte_storeSyms_out _ _ _ _ _ (by unfold ksWin symWin; omega)]
  rw [e, Memory.sym_storeSyms]
  by_cases h : i < u.sym.length
  · rw [dif_pos (by omega), dif_pos h]; rfl
  · rw [dif_neg (by omega), dif_neg h]

theorem Memory.ks_applyUpdate (m : Memory) (u : Update) (hu : u.Fits) (i : Nat) (hi : i < 8388608) :
    (m.applyUpdate u).sym ksWin i = if h : i < u.ks.length then u.ks[i] else m.sym ksWin i := by
  have := hu.mt; have := hu.dout; have := hu.sym
  have e : (m.applyUpdate u).sym ksWin i = ((m.storeSyms symWin 0 u.sym).storeSyms ksWin 0 u.ks).sym ksWin i := by
    refine Memory.sym_congr ?_ rfl
    unfold Memory.applyUpdate
    rw [Memory.byte_storeBytes_out _ _ _ _ (by unfold mtWin ksWin; omega),
      Memory.byte_storeBytes_out _ _ _ _ (by unfold doutWin ksWin; omega)]
  rw [e, Memory.sym_storeSyms]
  by_cases h : i < u.ks.length
  · rw [dif_pos (by omega), dif_pos h]; rfl
  · rw [dif_neg (by omega), dif_neg h]
    exact Memory.sym_congr (Memory.byte_storeSyms_out _ _ _ _ _ (by unfold symWin ksWin; omega)) rfl

theorem Memory.mem_cells_applyUpdate {m : Memory} {u : Update} {c : Host.Cell} (h : c ∈ (m.applyUpdate u).cells) :
    (symWin ≤ c.1 ∧ c.1 < symWin + (u.sym.length + 3) / 4) ∨ (ksWin ≤ c.1 ∧ c.1 < ksWin + (u.ks.length + 3) / 4)
      ∨ (doutWin ≤ c.1 ∧ c.1 < doutWin + u.dout.length) ∨ (mtWin ≤ c.1 ∧ c.1 < mtWin + u.mt.length) ∨ c ∈ m.cells := by
  unfold Memory.applyUpdate at h
  rcases Memory.mem_cells_storeBytes h with h1 | h1
  · tauto
  rcases Memory.mem_cells_storeBytes h1 with h2 | h2
  · tauto
  rcases Memory.mem_cells_storeSyms h2 with h3 | h3
  · simp only [Nat.zero_div, Nat.add_zero, Nat.zero_add] at h3; tauto
  rcases Memory.mem_cells_storeSyms h3 with h4 | h4
  · simp only [Nat.zero_div, Nat.add_zero, Nat.zero_add] at h4; tauto
  · tauto

end Sys2Proof.Machine
end

