-- ==== Sys2Proof/Laws/State.lean ====
section
/-! SUPPORT. The small lemmas of the state: one per field per update, so that no later proof unfolds a record update. -/

namespace Sys2Proof.Machine

/-! ### STATUS updates -/

@[simp] theorem Status.issued_busy (st : Status) : st.issued.busy = true := rfl
@[simp] theorem Status.issued_done (st : Status) : st.issued.done = false := rfl
@[simp] theorem Status.issued_err (st : Status) : st.issued.err = false := rfl
@[simp] theorem Status.issued_wib (st : Status) : st.issued.wib = st.wib := rfl
@[simp] theorem Status.issued_aerr (st : Status) : st.issued.aerr = st.aerr := rfl
@[simp] theorem Status.issued_errcode (st : Status) : st.issued.errcode = 0 := rfl

@[simp] theorem Status.succeeded_busy (st : Status) : st.succeeded.busy = false := rfl
@[simp] theorem Status.succeeded_done (st : Status) : st.succeeded.done = true := rfl
@[simp] theorem Status.succeeded_err (st : Status) : st.succeeded.err = st.err := rfl
@[simp] theorem Status.succeeded_wib (st : Status) : st.succeeded.wib = st.wib := rfl
@[simp] theorem Status.succeeded_aerr (st : Status) : st.succeeded.aerr = st.aerr := rfl
@[simp] theorem Status.succeeded_errcode (st : Status) : st.succeeded.errcode = st.errcode := rfl

@[simp] theorem Status.failed_busy (st : Status) (c : ErrCode) : (st.failed c).busy = false := rfl
@[simp] theorem Status.failed_done (st : Status) (c : ErrCode) : (st.failed c).done = true := rfl
@[simp] theorem Status.failed_err (st : Status) (c : ErrCode) : (st.failed c).err = true := rfl
@[simp] theorem Status.failed_wib (st : Status) (c : ErrCode) : (st.failed c).wib = st.wib := rfl
@[simp] theorem Status.failed_aerr (st : Status) (c : ErrCode) : (st.failed c).aerr = st.aerr := rfl
@[simp] theorem Status.failed_errcode (st : Status) (c : ErrCode) : (st.failed c).errcode = c.toByte := rfl

@[simp] theorem Status.acknowledged_busy (st : Status) (v : Word) : (st.acknowledged v).busy = st.busy := rfl

/-! ### State updates: the fields they do not touch -/

@[simp] theorem State.setWib_params (s : State) : s.setWib.params = s.params := rfl
@[simp] theorem State.setWib_mem (s : State) : s.setWib.mem = s.mem := rfl
@[simp] theorem State.setWib_rdata (s : State) : s.setWib.rdata = s.rdata := rfl
@[simp] theorem State.setWib_pending (s : State) : s.setWib.pending = s.pending := rfl
@[simp] theorem State.setWib_fresh (s : State) : s.setWib.fresh = s.fresh := rfl

@[simp] theorem State.setAerr_params (s : State) : s.setAerr.params = s.params := rfl
@[simp] theorem State.setAerr_mem (s : State) : s.setAerr.mem = s.mem := rfl
@[simp] theorem State.setAerr_rdata (s : State) : s.setAerr.rdata = s.rdata := rfl
@[simp] theorem State.setAerr_pending (s : State) : s.setAerr.pending = s.pending := rfl
@[simp] theorem State.setAerr_fresh (s : State) : s.setAerr.fresh = s.fresh := rfl

@[simp] theorem State.answer_params (s : State) (v : Word) : (s.answer v).params = s.params := rfl
@[simp] theorem State.answer_regs (s : State) (v : Word) : (s.answer v).regs = s.regs := rfl
@[simp] theorem State.answer_mem (s : State) (v : Word) : (s.answer v).mem = s.mem := rfl
@[simp] theorem State.answer_rdata (s : State) (v : Word) : (s.answer v).rdata = some v := rfl
@[simp] theorem State.answer_pending (s : State) (v : Word) : (s.answer v).pending = s.pending := rfl
@[simp] theorem State.answer_fresh (s : State) (v : Word) : (s.answer v).fresh = s.fresh := rfl

@[simp] theorem State.answerFree_params (s : State) : s.answerFree.params = s.params := rfl
@[simp] theorem State.answerFree_regs (s : State) : s.answerFree.regs = s.regs := rfl
@[simp] theorem State.answerFree_mem (s : State) : s.answerFree.mem = s.mem := rfl
@[simp] theorem State.answerFree_rdata (s : State) : s.answerFree.rdata = some (Config.busyWord s.fresh) := rfl
@[simp] theorem State.answerFree_pending (s : State) : s.answerFree.pending = s.pending := rfl
@[simp] theorem State.answerFree_fresh (s : State) : s.answerFree.fresh = s.fresh + 1 := rfl

@[simp] theorem State.issue_params (s : State) (v : Word) : (s.issue v).params = s.params := rfl
@[simp] theorem State.issue_mem (s : State) (v : Word) : (s.issue v).mem = s.mem := rfl
@[simp] theorem State.issue_rdata (s : State) (v : Word) : (s.issue v).rdata = s.rdata := rfl
@[simp] theorem State.issue_pending (s : State) (v : Word) : (s.issue v).pending = s.pending := rfl
@[simp] theorem State.issue_fresh (s : State) (v : Word) : (s.issue v).fresh = s.fresh := rfl
@[simp] theorem State.issue_cmd (s : State) (v : Word) : (s.issue v).regs.cmd = v := rfl
@[simp] theorem State.issue_errpos (s : State) (v : Word) : (s.issue v).regs.errpos = 0 := rfl
@[simp] theorem State.issue_status (s : State) (v : Word) : (s.issue v).regs.status = s.regs.status.issued := rfl

@[simp] theorem State.takeError_params (s : State) (e : CmdError) : (s.takeError e).params = s.params := rfl
@[simp] theorem State.takeError_mem (s : State) (e : CmdError) : (s.takeError e).mem = s.mem := rfl
@[simp] theorem State.takeError_rdata (s : State) (e : CmdError) : (s.takeError e).rdata = s.rdata := rfl
@[simp] theorem State.takeError_pending (s : State) (e : CmdError) : (s.takeError e).pending = s.pending := rfl
@[simp] theorem State.takeError_fresh (s : State) (e : CmdError) : (s.takeError e).fresh = s.fresh := rfl
@[simp] theorem State.takeError_status (s : State) (e : CmdError) :
    (s.takeError e).regs.status = s.regs.status.failed e.code := rfl
@[simp] theorem State.takeError_errpos (s : State) (e : CmdError) : (s.takeError e).regs.errpos = e.pos := rfl

@[simp] theorem State.succeed_params (s : State) (u : Update) : (s.succeed u).params = s.params := rfl
@[simp] theorem State.succeed_mem (s : State) (u : Update) : (s.succeed u).mem = s.mem.applyUpdate u := rfl
@[simp] theorem State.succeed_rdata (s : State) (u : Update) : (s.succeed u).rdata = s.rdata := rfl
@[simp] theorem State.succeed_pending (s : State) (u : Update) : (s.succeed u).pending = s.pending := rfl
@[simp] theorem State.succeed_fresh (s : State) (u : Update) : (s.succeed u).fresh = s.fresh := rfl
@[simp] theorem State.succeed_status (s : State) (u : Update) :
    (s.succeed u).regs.status = s.regs.status.succeeded := rfl

@[simp] theorem State.acknowledge_params (s : State) (v : Word) : (s.acknowledge v).params = s.params := rfl
@[simp] theorem State.acknowledge_mem (s : State) (v : Word) : (s.acknowledge v).mem = s.mem := rfl
@[simp] theorem State.acknowledge_pending (s : State) (v : Word) : (s.acknowledge v).pending = s.pending := rfl
@[simp] theorem State.acknowledge_fresh (s : State) (v : Word) : (s.acknowledge v).fresh = s.fresh := rfl
@[simp] theorem State.acknowledge_rdata (s : State) (v : Word) : (s.acknowledge v).rdata = s.rdata := rfl

@[simp] theorem State.complete_ok (s : State) (u : Update) : s.complete (.ok u) = s.succeed u := rfl
@[simp] theorem State.complete_error (s : State) (e : CmdError) : s.complete (.error e) = s.takeError e := rfl

/-! ### Soft reset and power-on -/

@[simp] theorem State.softReset_params (s : State) : s.softReset.params = s.params := by
  unfold State.softReset; split <;> rfl
@[simp] theorem State.softReset_regs (s : State) : s.softReset.regs = Regs.reset := by
  unfold State.softReset; split <;> rfl
@[simp] theorem State.softReset_rdata (s : State) : s.softReset.rdata = s.rdata := by
  unfold State.softReset; split <;> rfl
@[simp] theorem State.softReset_pending (s : State) : s.softReset.pending = s.pending := by
  unfold State.softReset; split <;> rfl

theorem State.softReset_mem_idle (s : State) (h : s.regs.status.busy = false) : s.softReset.mem = s.mem := by
  unfold State.softReset; simp [h]

theorem State.softReset_mem_busy (s : State) (h : s.regs.status.busy = true) : s.softReset.mem = s.abandonedMem := by
  unfold State.softReset; simp [h]

@[simp] theorem State.powerCycle_params (s : State) : s.powerCycle.params = s.params := rfl
@[simp] theorem State.powerCycle_regs (s : State) : s.powerCycle.regs = Regs.reset := rfl
@[simp] theorem State.powerCycle_pending (s : State) : s.powerCycle.pending = s.pending := rfl

end Sys2Proof.Machine
end

