-- ==== Sys2Proof/Laws/Eval.lean ====
section
/-! SUPPORT. What each check and each command's evaluation can answer, said once. -/

namespace Sys2Proof.Machine

theorem bind_eq_ok {α β ε : Type} {x : Except ε α} {f : α → Except ε β} {b : β} :
    (x >>= f) = .ok b ↔ ∃ a, x = .ok a ∧ f a = .ok b := by
  cases x <;> simp [bind, Except.bind]

theorem bind_eq_error {α β ε : Type} {x : Except ε α} {f : α → Except ε β} {e : ε} :
    (x >>= f) = .error e ↔ x = .error e ∨ ∃ a, x = .ok a ∧ f a = .error e := by
  cases x <;> simp [bind, Except.bind]

@[simp] theorem ok_bind {α β ε : Type} (a : α) (f : α → Except ε β) : ((Except.ok a : Except ε α) >>= f) = f a := rfl

@[simp] theorem error_bind {α β ε : Type} (e : ε) (f : α → Except ε β) :
    ((Except.error e : Except ε α) >>= f) = .error e := rfl

/-! ### Checks -/

theorem State.checkLen_ok (s : State) (r : Reg) (cap : Nat) (a : Unit) :
    s.checkLen r cap = .ok a ↔ (s.readReg r).toNat ≤ cap := by
  unfold State.checkLen; split <;> simp <;> omega

theorem State.checkLen_pass {s : State} {r : Reg} {cap : Nat} (h : (s.readReg r).toNat ≤ cap) :
    s.checkLen r cap = .ok () := (s.checkLen_ok r cap ()).2 h

theorem State.checkLen_fail {s : State} {r : Reg} {cap : Nat} (h : cap < (s.readReg r).toNat) :
    s.checkLen r cap = .error ⟨.lenRange, BitVec.ofNat 32 r.offset⟩ := by
  unfold State.checkLen; rw [if_pos h]

theorem checkCap_ok (n cap : Nat) (a : Unit) : checkCap n cap = .ok a ↔ n ≤ cap := by
  unfold checkCap; split <;> simp <;> omega

theorem checkCap_pass {n cap : Nat} (h : n ≤ cap) : checkCap n cap = .ok () := (checkCap_ok n cap ()).2 h

theorem checkCap_fail {n cap : Nat} (h : cap < n) : checkCap n cap = .error ⟨.capacity, BitVec.ofNat 32 n⟩ := by
  unfold checkCap; rw [if_pos h]

theorem checkKind_ok (k : Kind) (p : PayloadKind) : checkKind k = .ok p ↔ k = .supported p := by
  cases k <;> simp [checkKind]

theorem State.checkKeyPresent_ok (s : State) (a : Unit) : s.checkKeyPresent = .ok a ↔ s.regs.keyLen ≠ 0 := by
  unfold State.checkKeyPresent; split <;> simp_all

theorem State.checkKeyLong_ok (s : State) (a : Unit) : s.checkKeyLong = .ok a ↔ 8 ≤ s.regs.keyLen.toNat := by
  unfold State.checkKeyLong Config.keyMin; split <;> simp <;> omega

theorem State.checkKeyStream_ok (s : State) (a : Unit) :
    s.checkKeyStream = .ok a ↔ (s.regs.symLen.toNat = 0 ∨ 0 < s.regs.ksLen.toNat) := by
  unfold State.checkKeyStream; split <;> simp <;> omega

theorem State.checkMediaLen_ok (s : State) (untag : Bool) (a : Unit) :
    s.checkMediaLen untag = .ok a ↔ (untag = true ∨ s.regs.mtLen.toNat ≤ s.params.pMt) := by
  unfold State.checkMediaLen; split <;> simp_all [State.checkLen_ok, State.readReg]

theorem State.checkMediaBytes_ok (s : State) (untag : Bool) (a : Unit) :
    s.checkMediaBytes untag = .ok a ↔ (untag = true ∨ ∀ c ∈ s.mt, mediaByteOk c = true) := by
  unfold State.checkMediaBytes
  split
  · simp_all
  · split
    · rename_i h; simp_all
      have := List.findIdx?_isSome (xs := s.mt) (p := fun c => !mediaByteOk c)
      simp_all
    · rename_i h; simp_all [List.findIdx?_eq_none_iff]

/-! ### Lengths of the prefixes -/

@[simp] theorem State.length_dinPrefix (s : State) (n : Nat) : (s.dinPrefix n).length = n := by simp [State.dinPrefix]
@[simp] theorem State.length_mtPrefix (s : State) (n : Nat) : (s.mtPrefix n).length = n := by simp [State.mtPrefix]
@[simp] theorem State.length_keyPrefix (s : State) (n : Nat) : (s.keyPrefix n).length = n := by simp [State.keyPrefix]
@[simp] theorem State.length_symPrefix (s : State) (n : Nat) : (s.symPrefix n).length = n := by simp [State.symPrefix]
@[simp] theorem State.length_ksPrefix (s : State) (n : Nat) : (s.ksPrefix n).length = n := by simp [State.ksPrefix]
@[simp] theorem State.length_din (s : State) : s.din.length = s.regs.dinLen.toNat := by simp [State.din]
@[simp] theorem State.length_mt (s : State) : s.mt.length = s.regs.mtLen.toNat := by simp [State.mt]
@[simp] theorem State.length_key (s : State) : s.key.length = s.regs.keyLen.toNat := by simp [State.key]
@[simp] theorem State.length_symbols (s : State) : s.symbols.length = s.regs.symLen.toNat := by simp [State.symbols]
@[simp] theorem State.length_keyStream (s : State) : s.keyStream.length = s.regs.ksLen.toNat := by
  simp [State.keyStream]

theorem State.getElem_din (s : State) (i : Nat) (h : i < s.din.length) : s.din[i] = s.mem.byte (dinWin + i) := by
  simp [State.din, State.dinPrefix]
theorem State.getElem_mt (s : State) (i : Nat) (h : i < s.mt.length) : s.mt[i] = s.mem.byte (mtWin + i) := by
  simp [State.mt, State.mtPrefix]
theorem State.getElem_key (s : State) (i : Nat) (h : i < s.key.length) : s.key[i] = s.mem.unit keyWin i := by
  simp [State.key, State.keyPrefix]
theorem State.getElem_symbols (s : State) (i : Nat) (h : i < s.symbols.length) :
    s.symbols[i] = s.mem.sym symWin i := by
  simp [State.symbols, State.symPrefix]
theorem State.getElem_keyStream (s : State) (i : Nat) (h : i < s.keyStream.length) :
    s.keyStream[i] = s.mem.sym ksWin i := by
  simp [State.keyStream, State.ksPrefix]

/-! ### Commands: when the evaluation succeeds, and with what -/

theorem evalPack_ok (s : State) (u : Update) :
    evalPack s = .ok u ↔ s.regs.dinLen.toNat ≤ s.params.pDin ∧ 4 * s.regs.dinLen.toNat ≤ s.params.pSym
      ∧ u = { sym := symbolsOfBytes s.din, symLen := some (BitVec.ofNat 32 (4 * s.regs.dinLen.toNat)) } := by
  unfold evalPack
  simp only [bind_eq_ok, State.checkLen_ok, checkCap_ok, State.readReg, pure, Except.pure, Except.ok.injEq]
  constructor
  · rintro ⟨_, h1, _, h2, rfl⟩; exact ⟨h1, h2, rfl⟩
  · rintro ⟨h1, h2, rfl⟩; exact ⟨(), h1, (), h2, rfl⟩

theorem evalUnpack_ok (s : State) (u : Update) :
    evalUnpack s = .ok u ↔ s.regs.symLen.toNat ≤ s.params.pSym ∧ s.regs.symLen.toNat / 4 ≤ s.params.pDout
      ∧ u = { dout := bytesOfSymbols s.symbols, doutLen := some (BitVec.ofNat 32 (s.regs.symLen.toNat / 4)) } := by
  unfold evalUnpack
  simp only [bind_eq_ok, State.checkLen_ok, checkCap_ok, State.readReg, pure, Except.pure, Except.ok.injEq]
  constructor
  · rintro ⟨_, h1, _, h2, rfl⟩; exact ⟨h1, h2, rfl⟩
  · rintro ⟨h1, h2, rfl⟩; exact ⟨(), h1, (), h2, rfl⟩

theorem evalDerive_ok (s : State) (u : Update) :
    evalDerive s = .ok u ↔ s.regs.keyLen.toNat ≤ s.params.pKey ∧ s.regs.ksReq.toNat ≤ s.params.pSym
      ∧ s.regs.keyLen ≠ 0
      ∧ u = { ks := (deriveKeyStream s.key s.regs.ksReq.toNat).ks
              ksLen := some s.regs.ksReq
              hash := some (BitVec.ofNat 32 (deriveKeyStream s.key s.regs.ksReq.toNat).hash)
              lcg := some (BitVec.ofNat 32 (deriveKeyStream s.key s.regs.ksReq.toNat).state) } := by
  unfold evalDerive
  simp only [bind_eq_ok, State.checkLen_ok, State.checkKeyPresent_ok, State.readReg, pure, Except.pure, Except.ok.injEq]
  constructor
  · rintro ⟨_, h1, _, h2, _, h3, rfl⟩; exact ⟨h1, h2, h3, rfl⟩
  · rintro ⟨h1, h2, h3, rfl⟩; exact ⟨(), h1, (), h2, (), h3, rfl⟩

theorem evalSubst_ok (s : State) (u : Update) :
    evalSubst s = .ok u ↔ s.regs.symLen.toNat ≤ s.params.pSym ∧ s.regs.ksLen.toNat ≤ s.params.pSym
      ∧ (s.regs.symLen.toNat = 0 ∨ 0 < s.regs.ksLen.toNat)
      ∧ u = { sym := substitute s.params.table s.symbols s.keyStream } := by
  unfold evalSubst
  simp only [bind_eq_ok, State.checkLen_ok, State.checkKeyStream_ok, State.readReg, pure, Except.pure, Except.ok.injEq]
  constructor
  · rintro ⟨_, h1, _, h2, _, h3, rfl⟩; exact ⟨h1, h2, h3, rfl⟩
  · rintro ⟨h1, h2, h3, rfl⟩; exact ⟨(), h1, (), h2, (), h3, rfl⟩

theorem evalUnsubst_ok (s : State) (u : Update) :
    evalUnsubst s = .ok u ↔ s.regs.symLen.toNat ≤ s.params.pSym ∧ s.regs.ksLen.toNat ≤ s.params.pSym
      ∧ (s.regs.symLen.toNat = 0 ∨ 0 < s.regs.ksLen.toNat)
      ∧ u = { sym := unsubstitute s.params.table s.symbols s.keyStream } := by
  unfold evalUnsubst
  simp only [bind_eq_ok, State.checkLen_ok, State.checkKeyStream_ok, State.readReg, pure, Except.pure, Except.ok.injEq]
  constructor
  · rintro ⟨_, h1, _, h2, _, h3, rfl⟩; exact ⟨h1, h2, h3, rfl⟩
  · rintro ⟨h1, h2, h3, rfl⟩; exact ⟨(), h1, (), h2, (), h3, rfl⟩

theorem evalFrame_ok (untag : Bool) (s : State) (u : Update) :
    evalFrame untag s = .ok u ↔ s.regs.symLen.toNat ≤ s.params.pSym
      ∧ (untag = true ∨ s.regs.mtLen.toNat ≤ s.params.pMt)
      ∧ (untag = true ∨ ∀ c ∈ s.mt, mediaByteOk c = true)
      ∧ (encodeContainer s.symbols s.mt untag).length ≤ s.params.pDout
      ∧ u = { dout := encodeContainer s.symbols s.mt untag
              doutLen := some (BitVec.ofNat 32 (encodeContainer s.symbols s.mt untag).length) } := by
  unfold evalFrame
  simp only [bind_eq_ok, State.checkLen_ok, State.checkMediaLen_ok, State.checkMediaBytes_ok, checkCap_ok,
    State.readReg, pure, Except.pure, Except.ok.injEq]
  constructor
  · rintro ⟨_, h1, _, h2, _, h3, _, h4, rfl⟩; exact ⟨h1, h2, h3, h4, rfl⟩
  · rintro ⟨h1, h2, h3, h4, rfl⟩; exact ⟨(), h1, (), h2, (), h3, (), h4, rfl⟩

theorem evalUnframe_ok (kind : Kind) (s : State) (u : Update) :
    evalUnframe kind s = .ok u ↔ ∃ k p, kind = .supported k ∧ s.regs.dinLen.toNat ≤ s.params.pDin
      ∧ parseContainer s.din k = .ok p ∧ p.seq.length ≤ s.params.pSym ∧ p.mt.length ≤ s.params.pMt
      ∧ u = { sym := p.seq
              symLen := some (BitVec.ofNat 32 p.seq.length)
              mt := p.mt
              mtLen := some (BitVec.ofNat 32 p.mt.length) } := by
  unfold evalUnframe
  simp only [bind_eq_ok, checkKind_ok, State.checkLen_ok, checkCap_ok, State.readReg, pure, Except.pure,
    Except.ok.injEq]
  constructor
  · rintro ⟨k, h0, _, h1, p, h2, _, h3, _, h4, rfl⟩; exact ⟨k, p, h0, h1, h2, h3, h4, rfl⟩
  · rintro ⟨k, p, h0, h1, h2, h3, h4, rfl⟩; exact ⟨k, h0, (), h1, p, h2, (), h3, (), h4, rfl⟩

/-- The container ENCRYPT writes (R240, steps 2 to 5). -/
theorem evalEncrypt_ok (kind : Kind) (untag : Bool) (s : State) (u : Update) :
    evalEncrypt kind untag s = .ok u ↔ ∃ k, kind = .supported k ∧ s.regs.dinLen.toNat ≤ s.params.pDin
      ∧ s.regs.keyLen.toNat ≤ s.params.pKey ∧ (untag = true ∨ s.regs.mtLen.toNat ≤ s.params.pMt)
      ∧ s.regs.keyLen ≠ 0 ∧ 8 ≤ s.regs.keyLen.toNat ∧ (untag = true ∨ ∀ c ∈ s.mt, mediaByteOk c = true)
      ∧ 4 * s.regs.dinLen.toNat ≤ s.params.pSym
      ∧ ∃ d cs c, d = deriveKeyStream s.key (4 * s.regs.dinLen.toNat)
        ∧ cs = substitute s.params.table (symbolsOfBytes s.din) d.ks ∧ c = encodeContainer cs s.mt untag
        ∧ c.length ≤ s.params.pDout
        ∧ u = { sym := cs
                symLen := some (BitVec.ofNat 32 (4 * s.regs.dinLen.toNat))
                ks := d.ks
                ksLen := some (BitVec.ofNat 32 (4 * s.regs.dinLen.toNat))
                hash := some (BitVec.ofNat 32 d.hash)
                lcg := some (BitVec.ofNat 32 d.state)
                dout := c
                doutLen := some (BitVec.ofNat 32 c.length) } := by
  unfold evalEncrypt
  simp only [bind_eq_ok, checkKind_ok, State.checkLen_ok, State.checkMediaLen_ok, State.checkMediaBytes_ok,
    State.checkKeyPresent_ok, State.checkKeyLong_ok, checkCap_ok, State.readReg, pure, Except.pure, Except.ok.injEq]
  constructor
  · rintro ⟨k, h0, _, h1, _, h2, _, h3, _, h4, _, h5, _, h6, _, h7, _, h8, rfl⟩
    exact ⟨k, h0, h1, h2, h3, h4, h5, h6, h7, _, _, _, rfl, rfl, rfl, h8, rfl⟩
  · rintro ⟨k, h0, h1, h2, h3, h4, h5, h6, h7, _, _, _, rfl, rfl, rfl, h8, rfl⟩
    exact ⟨k, h0, (), h1, (), h2, (), h3, (), h4, (), h5, (), h6, (), h7, (), h8, rfl⟩

theorem evalDecrypt_ok (kind : Kind) (s : State) (u : Update) :
    evalDecrypt kind s = .ok u ↔ ∃ k p, kind = .supported k ∧ s.regs.dinLen.toNat ≤ s.params.pDin
      ∧ s.regs.keyLen.toNat ≤ s.params.pKey ∧ s.regs.keyLen ≠ 0 ∧ 8 ≤ s.regs.keyLen.toNat
      ∧ parseContainer s.din k = .ok p ∧ p.seq.length ≤ s.params.pSym ∧ p.mt.length ≤ s.params.pMt
      ∧ p.seq.length / 4 ≤ s.params.pDout
      ∧ ∃ d q, d = deriveKeyStream s.key p.seq.length ∧ q = unsubstitute s.params.table p.seq d.ks
        ∧ u = { sym := q
                symLen := some (BitVec.ofNat 32 p.seq.length)
                ks := d.ks
                ksLen := some (BitVec.ofNat 32 p.seq.length)
                hash := some (BitVec.ofNat 32 d.hash)
                lcg := some (BitVec.ofNat 32 d.state)
                dout := bytesOfSymbols q
                doutLen := some (BitVec.ofNat 32 (p.seq.length / 4))
                mt := p.mt
                mtLen := some (BitVec.ofNat 32 p.mt.length) } := by
  unfold evalDecrypt
  simp only [bind_eq_ok, checkKind_ok, State.checkLen_ok, State.checkKeyPresent_ok, State.checkKeyLong_ok,
    checkCap_ok, State.readReg, pure, Except.pure, Except.ok.injEq]
  constructor
  · rintro ⟨k, h0, _, h1, _, h2, _, h3, _, h4, p, h5, _, h6, _, h7, _, h8, rfl⟩
    exact ⟨k, p, h0, h1, h2, h3, h4, h5, h6, h7, h8, _, _, rfl, rfl, rfl⟩
  · rintro ⟨k, p, h0, h1, h2, h3, h4, h5, h6, h7, h8, _, _, rfl, rfl, rfl⟩
    exact ⟨k, h0, (), h1, (), h2, (), h3, (), h4, p, h5, (), h6, (), h7, (), h8, rfl⟩

end Sys2Proof.Machine
end

