-- ==== Sys2Proof/Laws/Transforms.lean ====
section
/-! SUPPORT. The lengths and elements of what the pure functions of the units give. -/

namespace Sys2Proof.Machine

/-! ### Codec -/

theorem length_bytesToBits (bs : List Byte) : (bytesToBits bs).length = 8 * bs.length := by
  induction bs with
  | nil => rfl
  | cons b rest ih => simp [bytesToBits, byteBits, ih]; omega

theorem length_symbolsToBits (qs : List Symbol) : (symbolsToBits qs).length = 2 * qs.length := by
  induction qs with
  | nil => rfl
  | cons q rest ih => simp [symbolsToBits, ih]; omega

theorem symbolOfBits_bits (x y : Bool) (q : Symbol) (h1 : q.getLsbD 1 = x) (h0 : q.getLsbD 0 = y) :
    symbolOfBits x y = q := by
  subst h1 h0; revert q; decide

/-- The four symbols of one byte, the first in its two most significant bits (R145). -/
theorem symbolsOfBytes_cons (b : Byte) (rest : List Byte) :
    symbolsOfBytes (b :: rest) =
      b.extractLsb' 6 2 :: b.extractLsb' 4 2 :: b.extractLsb' 2 2 :: b.extractLsb' 0 2 :: symbolsOfBytes rest := by
  have pair : ∀ i, symbolOfBits (b.getLsbD (i + 1)) (b.getLsbD i) = b.extractLsb' i 2 := fun i =>
    symbolOfBits_bits _ _ _ (by simp) (by simp)
  simp only [symbolsOfBytes, bytesToBits, byteBits, List.cons_append, List.nil_append, bitsToSymbols]
  rw [pair 6, pair 4, pair 2, pair 0]

@[simp] theorem symbolsOfBytes_nil : symbolsOfBytes [] = [] := rfl

@[simp] theorem length_symbolsOfBytes (bs : List Byte) : (symbolsOfBytes bs).length = 4 * bs.length := by
  induction bs with
  | nil => rfl
  | cons b rest ih => rw [symbolsOfBytes_cons]; simp [ih]; omega

/-- Symbol `i` of a byte sequence is a bit pair of byte `i / 4` (R145). -/
theorem getElem_symbolsOfBytes (bs : List Byte) (i : Nat) (h : i < (symbolsOfBytes bs).length) :
    (symbolsOfBytes bs)[i] =
      (bs[i / 4]'(by simp at h; omega)).extractLsb' (6 - 2 * (i % 4)) 2 := by
  induction bs generalizing i with
  | nil => simp at h
  | cons b rest ih =>
    simp only [symbolsOfBytes_cons]
    match i with
    | 0 => rfl
    | 1 => rfl
    | 2 => rfl
    | 3 => rfl
    | i + 4 =>
      simp only [List.getElem_cons_succ]
      rw [ih i (by simp [symbolsOfBytes_cons] at h ⊢; omega)]
      have e1 : (i + 4) / 4 = i / 4 + 1 := by omega
      have e2 : (i + 4) % 4 = i % 4 := by omega
      simp only [e1, e2, List.getElem_cons_succ]

theorem bytesOfSymbols_short (qs : List Symbol) (h : qs.length < 4) : bytesOfSymbols qs = [] := by
  match qs with
  | [] => rfl
  | [_] => rfl
  | [_, _] => rfl
  | [_, _, _] => rfl
  | _ :: _ :: _ :: _ :: _ => simp at h; omega

/-- Four symbols make one byte, the first most significant (R145). -/
theorem bytesOfSymbols_cons (a b c d : Symbol) (rest : List Symbol) :
    bytesOfSymbols (a :: b :: c :: d :: rest) = (a ++ b ++ c ++ d) :: bytesOfSymbols rest := by
  have h : ∀ q : Symbol, q = BitVec.ofBool (q.getLsbD 1) ++ BitVec.ofBool (q.getLsbD 0) := by decide
  simp only [bytesOfSymbols, symbolsToBits, bitsToBytes, byteOfBits]
  congr 1
  revert a b c d; decide

@[simp] theorem length_bytesOfSymbols : ∀ qs : List Symbol, (bytesOfSymbols qs).length = qs.length / 4
  | [] => rfl
  | [a] => by rw [bytesOfSymbols_short _ (by simp)]; simp
  | [a, b] => by rw [bytesOfSymbols_short _ (by simp)]; simp
  | [a, b, c] => by rw [bytesOfSymbols_short _ (by simp)]; simp
  | a :: b :: c :: d :: rest => by
    rw [bytesOfSymbols_cons, List.length_cons, length_bytesOfSymbols rest]
    simp only [List.length_cons]; omega

/-- Byte `i` of a symbol sequence holds its symbols `4i` to `4i + 3` (R145). -/
theorem getElem_bytesOfSymbols : ∀ (qs : List Symbol) (i : Nat) (h : i < (bytesOfSymbols qs).length),
    (bytesOfSymbols qs)[i] =
      qs[4 * i]'(by simp at h; omega) ++ qs[4 * i + 1]'(by simp at h; omega)
        ++ qs[4 * i + 2]'(by simp at h; omega) ++ qs[4 * i + 3]'(by simp at h; omega)
  | [], i, h => by simp at h
  | [a], i, h => by simp at h
  | [a, b], i, h => by simp at h
  | [a, b, c], i, h => by simp at h
  | a :: b :: c :: d :: rest, 0, h => by simp [bytesOfSymbols_cons]
  | a :: b :: c :: d :: rest, i + 1, h => by
    have ih := getElem_bytesOfSymbols rest i (by simp at h ⊢; omega)
    simp only [bytesOfSymbols_cons, List.getElem_cons_succ, ih]
    rfl

/-! ### Key stream -/

theorem drawSymbols_zero (x : Nat) : drawSymbols 0 x = ([], x) := rfl

/-- The first draw steps the state and takes its symbol (R161). Rewrite with this lemma: unfolding the generator's
constants makes the kernel count them in unary. -/
theorem drawSymbols_succ (n x : Nat) : drawSymbols (n + 1) x =
    (lcgSymbol (lcgNext x) :: (drawSymbols n (lcgNext x)).1, (drawSymbols n (lcgNext x)).2) := rfl

@[simp] theorem length_drawSymbols (n x : Nat) : (drawSymbols n x).1.length = n := by
  induction n generalizing x with
  | zero => rfl
  | succ n ih => rw [drawSymbols_succ, List.length_cons, ih]

/-- The state after `n` draws (R161). -/
theorem drawSymbols_state (n x : Nat) : (drawSymbols n x).2 = lcgNext^[n] x := by
  induction n generalizing x with
  | zero => rfl
  | succ n ih => rw [drawSymbols_succ, ih, Function.iterate_succ_apply]

theorem getElem?_drawSymbols (n x i : Nat) (h : i < n) :
    (drawSymbols n x).1[i]? = some (lcgSymbol (lcgNext^[i + 1] x)) := by
  induction n generalizing x i with
  | zero => omega
  | succ n ih =>
    rw [drawSymbols_succ]
    cases i with
    | zero => rw [List.getElem?_cons_zero, Function.iterate_succ_apply, Function.iterate_zero_apply]
    | succ i => rw [List.getElem?_cons_succ, ih _ _ (by omega), ← Function.iterate_succ_apply]

/-- Symbol `i` is drawn from the state after `i + 1` steps (R161). -/
theorem getElem_drawSymbols (n x i : Nat) (h : i < (drawSymbols n x).1.length) :
    (drawSymbols n x).1[i] = lcgSymbol (lcgNext^[i + 1] x) := by
  have := getElem?_drawSymbols n x i (by rwa [length_drawSymbols] at h)
  rwa [List.getElem?_eq_getElem h, Option.some.injEq] at this

@[simp] theorem length_deriveKeyStream (key : List CodeUnit) (n : Nat) : (deriveKeyStream key n).ks.length = n := by
  simp [deriveKeyStream]

theorem lcgNext_lt (x : Nat) : lcgNext x < 233280 := Nat.mod_lt _ (by decide)

theorem hashStep_lt (h : Nat) (u : CodeUnit) : hashStep h u < 4294967296 := Nat.mod_lt _ (by decide)

theorem passHash_lt (key : List CodeUnit) : passHash key < 4294967296 := by
  unfold passHash
  induction key using List.reverseRecOn with
  | nil => decide
  | append_singleton rest u _ => rw [List.foldl_append]; exact hashStep_lt _ _

theorem deriveKeyStream_ks (key : List CodeUnit) (n : Nat) :
    (deriveKeyStream key n).ks = (drawSymbols n (passHash key)).1 := rfl

theorem deriveKeyStream_hash (key : List CodeUnit) (n : Nat) : (deriveKeyStream key n).hash = passHash key := rfl

theorem deriveKeyStream_state_eq (key : List CodeUnit) (n : Nat) :
    (deriveKeyStream key n).state = (drawSymbols n (passHash key)).2 := rfl

/-- The final state is below 233280, or it is the hash because nothing was drawn (R47). -/
theorem deriveKeyStream_state (key : List CodeUnit) (n : Nat) :
    (deriveKeyStream key n).state < 233280 ∨ (deriveKeyStream key n).state = (deriveKeyStream key n).hash := by
  cases n with
  | zero => exact Or.inr rfl
  | succ n =>
    left
    rw [deriveKeyStream_state_eq, drawSymbols_state, Function.iterate_succ_apply']
    exact lcgNext_lt _

/-! ### Substitution -/

@[simp] theorem length_substitute (t : SubstTable) (seq ks : List Symbol) :
    (substitute t seq ks).length = seq.length := by simp [substitute]

@[simp] theorem length_unsubstitute (t : SubstTable) (seq ks : List Symbol) :
    (unsubstitute t seq ks).length = seq.length := by simp [unsubstitute]

theorem getElem_substitute (t : SubstTable) (seq ks : List Symbol) (i : Nat) (h : i < (substitute t seq ks).length) :
    (substitute t seq ks)[i] = tableAt t (keySymbol ks i) (seq[i]'(by simpa using h)) := by
  simp [substitute]

theorem getElem_unsubstitute (t : SubstTable) (seq ks : List Symbol) (i : Nat)
    (h : i < (unsubstitute t seq ks).length) :
    (unsubstitute t seq ks)[i] = tableInv t (keySymbol ks i) (seq[i]'(by simpa using h)) := by
  simp [unsubstitute]

theorem keySymbol_eq (ks : List Symbol) (i : Nat) (h : 0 < ks.length) :
    keySymbol ks i = ks[i % ks.length]'(Nat.mod_lt _ h) := by
  unfold keySymbol
  rw [List.getD_eq_getElem?_getD, List.getElem?_eq_getElem (Nat.mod_lt _ h)]; rfl

/-! ### Framer -/

@[simp] theorem length_charsOf (seq : List Symbol) : (charsOf seq).length = seq.length := by simp [charsOf]

@[simp] theorem length_b64Quad (x y z : Byte) : (b64Quad x y z).length = 4 := rfl

theorem symbolsOfCharsFrom_length (r : List Byte) (j : Nat) (seq : List Symbol)
    (h : symbolsOfCharsFrom j r = .ok seq) : seq.length = r.length := by
  induction r generalizing j seq with
  | nil => simp only [symbolsOfCharsFrom, Except.ok.injEq] at h; subst h; rfl
  | cons c rest ih =>
    simp only [symbolsOfCharsFrom] at h
    split at h
    · cases h
    · split at h
      · cases h
      · rename_i qs hq
        cases h
        simp [ih _ _ hq]

end Sys2Proof.Machine
end

