-- ==== Sys2Proof/Laws/Bounds.lean ====
section
/-! SUPPORT. What every successful evaluation respects: the capacities, and what it puts in DOUT_LEN, HASH and LCG. -/

namespace Sys2Proof.Machine

/-- The results of a command fit the buffers of the instance. -/
structure Update.Within (u : Update) (p : Params) : Prop where
  sym : u.sym.length ≤ p.pSym
  ks : u.ks.length ≤ p.pSym
  dout : u.dout.length ≤ p.pDout
  mt : u.mt.length ≤ p.pMt
  doutLen : ∀ v, u.doutLen = some v → v.toNat ≤ p.pDout
  lcg : (u.lcg = none ∧ u.hash = none) ∨ ∃ l h, u.lcg = some l ∧ u.hash = some h ∧ (l.toNat < 233280 ∨ l = h)

theorem paramsLegal_iff (p : Params) : paramsLegal p = true ↔
    (4 ≤ p.pDin ∧ p.pDin ≤ 4194304 ∧ p.pDin % 4 = 0
    ∧ 4 ≤ p.pDout ∧ p.pDout ≤ 4194304 ∧ p.pDout % 4 = 0
    ∧ 8 ≤ p.pKey ∧ p.pKey ≤ 4096 ∧ p.pKey % 2 = 0
    ∧ 24 ≤ p.pMt ∧ p.pMt ≤ 4096 ∧ p.pMt % 4 = 0
    ∧ 16 ≤ p.pSym ∧ p.pSym ≤ 8388608 ∧ p.pSym % 16 = 0
    ∧ p.base % 16777216 = 0
    ∧ isLatin p.table = true) := by
  unfold paramsLegal; exact decide_eq_true_iff

theorem windowMapped_iff (p : Params) (off : Nat) : windowMapped p off = true ↔
    (0x001000 ≤ off ∧ off < 0x001000 + p.pMt) ∨ (0x002000 ≤ off ∧ off < 0x002000 + 2 * p.pKey)
    ∨ (0x400000 ≤ off ∧ off < 0x400000 + p.pDin) ∨ (0x800000 ≤ off ∧ off < 0x800000 + p.pDout)
    ∨ (0xC00000 ≤ off ∧ off < 0xC00000 + p.pSym / 4) ∨ (0xE00000 ≤ off ∧ off < 0xE00000 + p.pSym / 4) := by
  unfold windowMapped; exact decide_eq_true_iff

/-- The map of the windows, as the statements write it. -/
theorem windowMapped_iff_inMappedWindow (p : Params) (off : Nat) :
    windowMapped p off = true ↔ InMappedWindow p off := windowMapped_iff p off

/-- What fits the buffers of a legal instance stays inside the windows' regions (R71). -/
theorem Update.Within.fits {u : Update} {p : Params} (h : u.Within p) (hp : paramsLegal p = true) : u.Fits := by
  obtain ⟨_, _, _, _, h1, _, _, _, _, _, h2, _, _, h3, _⟩ := (paramsLegal_iff p).1 hp
  exact ⟨h.sym.trans h3, h.ks.trans h3, h.dout.trans h1, h.mt.trans h2⟩

theorem ofNat_toNat_le (n : Nat) : (BitVec.ofNat 32 n).toNat ≤ n := by
  rw [BitVec.toNat_ofNat]; exact Nat.mod_le _ _

theorem deriveKeyStream_lcg (key : List CodeUnit) (n : Nat) :
    (BitVec.ofNat 32 (deriveKeyStream key n).state).toNat < 233280
      ∨ BitVec.ofNat 32 (deriveKeyStream key n).state = BitVec.ofNat 32 (deriveKeyStream key n).hash := by
  rcases deriveKeyStream_state key n with h | h
  · exact Or.inl (lt_of_le_of_lt (ofNat_toNat_le _) h)
  · exact Or.inr (by rw [h])

/-- Every successful evaluation gives results that fit (R127, R128). -/
theorem evalInstr_within {i : Instr} {s : State} {u : Update} (h : evalInstr i s = .ok u) : u.Within s.params := by
  cases i with
  | nop =>
    simp only [evalInstr, evalNop, Except.ok.injEq] at h; subst h
    constructor <;> simp
  | pack =>
    obtain ⟨h1, h2, rfl⟩ := (evalPack_ok s u).1 h
    constructor <;> simp [h2]
  | unpack =>
    obtain ⟨h1, h2, rfl⟩ := (evalUnpack_ok s u).1 h
    refine ⟨by simp, by simp, by simpa using h2, by simp, ?_, by simp⟩
    rintro v hv; cases hv
    exact (ofNat_toNat_le _).trans h2
  | derive =>
    obtain ⟨h1, h2, h3, rfl⟩ := (evalDerive_ok s u).1 h
    refine ⟨by simp, by simpa using h2, by simp, by simp, by simp, Or.inr ⟨_, _, rfl, rfl, deriveKeyStream_lcg _ _⟩⟩
  | subst =>
    obtain ⟨h1, h2, h3, rfl⟩ := (evalSubst_ok s u).1 h
    constructor <;> simp [h1]
  | unsubst =>
    obtain ⟨h1, h2, h3, rfl⟩ := (evalUnsubst_ok s u).1 h
    constructor <;> simp [h1]
  | frame untag =>
    obtain ⟨h1, h2, h3, h4, rfl⟩ := (evalFrame_ok untag s u).1 h
    refine ⟨by simp, by simp, h4, by simp, ?_, by simp⟩
    rintro v hv; cases hv
    exact (ofNat_toNat_le _).trans h4
  | unframe kind =>
    obtain ⟨k, p, h0, h1, h2, h3, h4, rfl⟩ := (evalUnframe_ok kind s u).1 h
    exact ⟨h3, by simp, by simp, h4, by simp, by simp⟩
  | encrypt kind untag =>
    obtain ⟨k, h0, h1, h2, h3, h4, h5, h6, h7, d, cs, c, rfl, rfl, rfl, h8, rfl⟩ := (evalEncrypt_ok kind untag s u).1 h
    refine ⟨by simpa using h7, by simpa using h7, h8, by simp, ?_, Or.inr ⟨_, _, rfl, rfl, deriveKeyStream_lcg _ _⟩⟩
    rintro v hv; cases hv
    exact (ofNat_toNat_le _).trans h8
  | decrypt kind =>
    obtain ⟨k, p, h0, h1, h2, h3, h4, h5, h6, h7, h8, d, q, rfl, rfl, rfl⟩ := (evalDecrypt_ok kind s u).1 h
    refine ⟨by simpa using h6, by simpa using h6, by simpa using h8, h7, ?_,
      Or.inr ⟨_, _, rfl, rfl, deriveKeyStream_lcg _ _⟩⟩
    rintro v hv; cases hv
    exact (ofNat_toNat_le _).trans h8

/-- The lengths of what a container holds, where the block can parse it (R209). -/
theorem State.parsedLengths_supported {s : State} {k : PayloadKind} {p : Parsed}
    (h : s.regs.dinLen.toNat ≤ s.params.pDin) (hp : parseContainer s.din k = .ok p) :
    s.parsedLengths (.supported k) = some (p.seq.length, p.mt.length) := by
  simp only [State.parsedLengths, if_neg (Nat.not_lt.2 h), hp]

/-- What a parsed container makes UNFRAME name as written: the parsed prefixes (R212). -/
theorem namedExtent_unframe {s : State} {k : PayloadKind} {p : Parsed} (h : s.regs.dinLen.toNat ≤ s.params.pDin)
    (hp : parseContainer s.din k = .ok p) :
    namedExtent (.unframe (.supported k)) s = { sym := p.seq.length, mt := p.mt.length } := by
  simp only [namedExtent, State.parsedLengths_supported h hp]

/-- What a parsed container makes DECRYPT name as written: the parsed prefixes (R241). -/
theorem namedExtent_decrypt {s : State} {k : PayloadKind} {p : Parsed} (h : s.regs.dinLen.toNat ≤ s.params.pDin)
    (hp : parseContainer s.din k = .ok p) :
    namedExtent (.decrypt (.supported k)) s
      = { sym := p.seq.length, ks := p.seq.length, dout := p.seq.length / 4, mt := p.mt.length } := by
  simp only [namedExtent, State.parsedLengths_supported h hp]

/-- The prefixes an abandoned command disturbs stay inside their buffers (R291). -/
theorem State.abandonedExtent_le (s : State) :
    s.abandonedExtent.sym ≤ s.params.pSym ∧ s.abandonedExtent.ks ≤ s.params.pSym
      ∧ s.abandonedExtent.dout ≤ s.params.pDout ∧ s.abandonedExtent.mt ≤ s.params.pMt := by
  unfold State.abandonedExtent
  split
  · exact ⟨Nat.zero_le _, Nat.zero_le _, Nat.zero_le _, Nat.zero_le _⟩
  · split
    · rename_i u hu
      have h := evalInstr_within hu
      exact ⟨h.sym, h.ks, h.dout, h.mt⟩
    · exact ⟨Nat.min_le_right _ _, Nat.min_le_right _ _, Nat.min_le_right _ _, Nat.min_le_right _ _⟩

/-- The free values of an abandoned command stay inside their buffers. -/
theorem State.abandonedExtent_free_within (s : State) (k : Nat) : (s.abandonedExtent.free k).Within s.params := by
  obtain ⟨h1, h2, h3, h4⟩ := s.abandonedExtent_le
  constructor <;> simp [Extent.free, h1, h2, h3, h4]

theorem evalWord_within {v : Word} {s : State} {u : Update} (h : evalWord v s = .ok u) : u.Within s.params := by
  unfold evalWord at h
  split at h
  · exact evalInstr_within h
  · cases h

/-- The completion of a command is its evaluation, completed (R123). -/
theorem exec_eq_complete (i : Instr) (s : State) : exec i s = .next (s.complete (evalInstr i s)) := by
  cases i <;> rfl

/-- The completion of the word in flight is its evaluation, completed (R123). -/
theorem runCommand_eq_complete (s : State) : runCommand s = .next (s.complete (evalWord s.regs.cmd s)) := by
  unfold runCommand evalWord
  cases decode s.regs.cmd with
  | ok i => exact exec_eq_complete i s
  | error e => rfl

/-- What the engine's turn can do. -/
theorem engineTurn_eq (s : State) : engineTurn s =
    .next (if s.regs.status.busy then s.complete (evalWord s.regs.cmd s) else s) := by
  unfold engineTurn
  split
  · exact runCommand_eq_complete s
  · rfl

end Sys2Proof.Machine
end

