-- ==== Sys2Proof/Laws/Encoding.lean ====
section
/-! SUPPORT. What the fields of an encoded word are (spec/30_encoding.md R100, R109). -/

namespace Sys2Proof

/-- The reserved bits of an encoded word are 0 (R104). -/
theorem fieldRsv_encode (i : Instr) : fieldRsv (encode i) = 0 := by
  apply BitVec.eq_of_getLsbD_eq; intro j hj
  simp only [encode, fieldRsv, BitVec.getLsbD_extractLsb', BitVec.getLsbD_or,
    BitVec.getLsbD_shiftLeft, BitVec.getLsbD_setWidth]
  grind

/-- The field OP of an encoded word is the opcode (R101). -/
theorem fieldOp_encode (i : Instr) : fieldOp (encode i) = opcode i := by
  apply BitVec.eq_of_getLsbD_eq; intro j hj
  simp only [encode, fieldOp, BitVec.getLsbD_extractLsb', BitVec.getLsbD_or,
    BitVec.getLsbD_shiftLeft, BitVec.getLsbD_setWidth]
  grind

/-- The field KIND of an encoded word (R102). -/
theorem fieldKind_encode (i : Instr) : fieldKind (encode i) = kindField i := by
  apply BitVec.eq_of_getLsbD_eq; intro j hj
  simp only [encode, fieldKind, BitVec.getLsbD_extractLsb', BitVec.getLsbD_or,
    BitVec.getLsbD_shiftLeft, BitVec.getLsbD_setWidth]
  grind

/-- The bit UNTAG of an encoded word (R103). -/
theorem fieldUntag_encode (i : Instr) : fieldUntag (encode i) = untagField i := by
  simp only [encode, fieldUntag, BitVec.getLsbD_or, BitVec.getLsbD_shiftLeft,
    BitVec.getLsbD_setWidth]
  grind

end Sys2Proof
end

