-- ==== Sys2Proof/Laws/Interface.lean ====
section
/-! SUPPORT. What a host access can do, and which part of the state the evaluation of a command depends on. -/

namespace Sys2Proof.Machine

/-! ### Where an access goes (R71) -/

theorem placeAt_reg (p : Params) {off : Nat} {r : Reg} (h : Reg.ofOffset off = some r) (hl : off < 0x001000) :
    placeAt p off = .reg r := by
  unfold placeAt; rw [if_pos hl, h]

theorem placeAt_reserved (p : Params) {off : Nat} (h1 : 0x050 ≤ off) (h2 : off < 0x001000) :
    placeAt p off = .reserved := by
  have hn : Reg.ofOffset off = none := by
    unfold Reg.ofOffset; split <;> first | omega | rfl
  unfold placeAt; rw [if_pos h2, hn]

theorem placeAt_window (p : Params) {off : Nat} (h1 : 0x001000 ≤ off) (h2 : windowMapped p off = true) :
    placeAt p off = .window := by
  unfold placeAt; rw [if_neg (by omega), if_pos h2]

theorem placeAt_unmapped (p : Params) {off : Nat} (h1 : 0x001000 ≤ off) (h2 : windowMapped p off = false) :
    placeAt p off = .unmapped := by
  unfold placeAt; rw [if_neg (by omega), h2]; rfl

theorem accessAccepted_word {off : Nat} (h : off % 4 = 0) : accessAccepted 32 off = true := by
  simp [accessAccepted, h]

/-! ### Accepted accesses (R75, R77) -/

theorem State.hostRead_reg (s : State) {off : Nat} {r : Reg} (h : Reg.ofOffset off = some r) (h4 : off % 4 = 0)
    (hl : off < 0x001000) :
    s.hostRead off 32 = if s.regs.status.busy && !r.exactWhileBusy then s.answerFree else s.answer (s.readReg r) := by
  unfold State.hostRead; rw [if_pos (accessAccepted_word h4), placeAt_reg _ h hl]

theorem State.hostWrite_reg (s : State) {off : Nat} {r : Reg} (v : Word) (h : Reg.ofOffset off = some r)
    (h4 : off % 4 = 0) (hl : off < 0x001000) : s.hostWrite off 32 v = s.writeReg r v := by
  unfold State.hostWrite; rw [if_pos (accessAccepted_word h4), placeAt_reg _ h hl]

theorem State.hostRead_window (s : State) {off : Nat} (h1 : 0x001000 ≤ off) (h4 : off % 4 = 0)
    (h2 : windowMapped s.params off = true) :
    s.hostRead off 32 = if s.regs.status.busy then s.answerFree else s.answer (s.mem.word off) := by
  unfold State.hostRead; rw [if_pos (accessAccepted_word h4), placeAt_window _ h1 h2]

theorem State.hostWrite_window (s : State) {off : Nat} (v : Word) (h1 : 0x001000 ≤ off) (h4 : off % 4 = 0)
    (h2 : windowMapped s.params off = true) :
    s.hostWrite off 32 v = if s.regs.status.busy then s.setWib else { s with mem := s.mem.storeWord off v } := by
  unfold State.hostWrite; rw [if_pos (accessAccepted_word h4), placeAt_window _ h1 h2]

/-! ### What no access changes -/

theorem State.writeReg_frame (s : State) (r : Reg) (v : Word) :
    (s.writeReg r v).params = s.params ∧ (s.writeReg r v).pending = s.pending := by
  cases r <;> simp only [State.writeReg, State.writeIdle] <;> repeat' split
  all_goals simp

theorem State.hostRead_frame (s : State) (off width : Nat) :
    (s.hostRead off width).params = s.params ∧ (s.hostRead off width).pending = s.pending
      ∧ (s.hostRead off width).mem = s.mem := by
  unfold State.hostRead; repeat' split
  all_goals simp

theorem State.hostWrite_frame (s : State) (off width : Nat) (v : Word) :
    (s.hostWrite off width v).params = s.params ∧ (s.hostWrite off width v).pending = s.pending := by
  unfold State.hostWrite; repeat' split
  all_goals simp [State.writeReg_frame]

/-- A host access changes neither the parameters nor the events still to come. -/
theorem State.performAccess_frame (s : State) (a : Access) :
    (s.performAccess a).params = s.params ∧ (s.performAccess a).pending = s.pending := by
  unfold State.performAccess; repeat' split
  all_goals simp [State.hostRead_frame, State.hostWrite_frame]

/-! ### What an evaluation depends on (R106) -/

/-- The evaluation of a command does not depend on CTRL, STATUS, CMD, ERRPOS or the model's own fields. -/
theorem evalInstr_congr (i : Instr) {s t : State} (hp : t.params = s.params) (hm : t.mem = s.mem)
    (hr : ∃ ie st cmd ep, t.regs = { s.regs with ie := ie, status := st, cmd := cmd, errpos := ep }) :
    evalInstr i t = evalInstr i s := by
  obtain ⟨params, regs, mem, rd, pe, fr⟩ := s
  obtain ⟨params', regs', mem', rd', pe', fr'⟩ := t
  obtain ⟨ie, st, cmd, ep, h⟩ := hr
  simp only at hp hm h
  subst hp hm h
  cases i <;> rfl

theorem evalWord_congr (v : Word) {s t : State} (hp : t.params = s.params) (hm : t.mem = s.mem)
    (hr : ∃ ie st cmd ep, t.regs = { s.regs with ie := ie, status := st, cmd := cmd, errpos := ep }) :
    evalWord v t = evalWord v s := by
  unfold evalWord
  cases decode v with
  | ok i => exact evalInstr_congr i hp hm hr
  | error e => rfl

end Sys2Proof.Machine
end

