-- ==== Sys2Proof/Laws/PerInstr.lean ====
section
/-! SUPPORT. Statements made per instruction: the fields of every command's word (spec/30_encoding.md R100, R101,
R106). -/

namespace Sys2Proof.Laws.EncodeFields

/-- The word of a command has its opcode in OP, its operands in KIND and UNTAG, and 0 in RSV (R100). -/
def Statement (i : Instr) : Prop :=
  fieldOp (encode i) = opcode i ∧ fieldKind (encode i) = kindField i ∧ fieldUntag (encode i) = untagField i
    ∧ fieldRsv (encode i) = 0

/-- The four fields of any command's word. -/
theorem fields (i : Instr) : Statement i :=
  ⟨fieldOp_encode i, fieldKind_encode i, fieldUntag_encode i, fieldRsv_encode i⟩

theorem nop : Statement .nop := fields _
theorem pack : Statement .pack := fields _
theorem unpack : Statement .unpack := fields _
theorem derive : Statement .derive := fields _
theorem subst : Statement .subst := fields _
theorem unsubst : Statement .unsubst := fields _
theorem frame (untag : Bool) : Statement (.frame untag) := fields _
theorem unframe (kind : Kind) : Statement (.unframe kind) := fields _
theorem encrypt (kind : Kind) (untag : Bool) : Statement (.encrypt kind untag) := fields _
theorem decrypt (kind : Kind) : Statement (.decrypt kind) := fields _

end Sys2Proof.Laws.EncodeFields
end

