-- ==== Sys2Proof/Laws/Step.lean ====
section
/-! SUPPORT. Everything one step can do, said once; the provers cite these lemmas instead of unfolding the step. -/

namespace Sys2Proof.Machine

/-- A command whose evaluation succeeds. -/
theorem exec_of_eval_ok {i : Instr} {s : State} {u : Update} (h : evalInstr i s = .ok u) :
    exec i s = .next (s.succeed u) := by rw [exec_eq_complete, h]; rfl

/-- A command whose evaluation fails. -/
theorem exec_of_eval_error {i : Instr} {s : State} {e : CmdError} (h : evalInstr i s = .error e) :
    exec i s = .next (s.takeError e) := by rw [exec_eq_complete, h]; rfl

@[simp] theorem State.complete_params (s : State) (r : Except CmdError Update) : (s.complete r).params = s.params := by
  cases r <;> rfl

@[simp] theorem State.complete_pending (s : State) (r : Except CmdError Update) :
    (s.complete r).pending = s.pending := by cases r <;> rfl

@[simp] theorem State.complete_busy (s : State) (r : Except CmdError Update) :
    (s.complete r).regs.status.busy = false := by cases r <;> rfl

/-- What the engine's turn gives: the completion of the command in flight, or nothing. -/
def State.afterTurn (s : State) : State :=
  if s.regs.status.busy then s.complete (evalWord s.regs.cmd s) else s

/-- Everything a step can do. -/
theorem step_cases {s t : State} (h : step s = .next t) : paramsLegal s.params = true ∧
    ((s.pending = [] ∧ t = s.afterTurn)
    ∨ (∃ rest, s.pending = .engine :: rest ∧ t = { s with pending := rest }.afterTurn)
    ∨ (∃ a rest, s.pending = .host a :: rest ∧ t = State.performAccess { s with pending := rest } a)
    ∨ ∃ rest, s.pending = .powerOn :: rest ∧ t = State.powerCycle { s with pending := rest }) := by
  unfold step at h
  split at h
  · rename_i hp
    refine ⟨hp, ?_⟩
    unfold nextEvent at h
    split at h
    · rename_i he
      rw [engineTurn_eq] at h; cases h
      exact Or.inl ⟨he, rfl⟩
    · rename_i e rest he
      cases e with
      | host a => cases h; exact Or.inr (Or.inr (Or.inl ⟨a, rest, he, rfl⟩))
      | engine =>
        simp only [performEvent, engineTurn_eq] at h; cases h
        exact Or.inr (Or.inl ⟨rest, he, rfl⟩)
      | powerOn => cases h; exact Or.inr (Or.inr (Or.inr ⟨rest, he, rfl⟩))
  · cases h

/-- A block with legal parameters always has a next state. -/
theorem step_legal {s : State} (hp : paramsLegal s.params = true) : ∃ t, step s = .next t := by
  unfold step; rw [if_pos hp]; unfold nextEvent
  split
  · exact ⟨_, engineTurn_eq s⟩
  · rename_i e rest _
    cases e with
    | host a => exact ⟨_, rfl⟩
    | engine => exact ⟨_, engineTurn_eq _⟩
    | powerOn => exact ⟨_, rfl⟩

/-- A run takes its first step. -/
theorem run_of_step (M : Host.Core) (n : Nat) (s t : M.State) (h : M.step s = .next t) :
    M.run (n + 1) s = M.run n t := by simp only [Host.Core.run, h]

/-- A run of this machine takes its first step. -/
theorem core_run_of_step {s t : State} (n : Nat) (h : step s = .next t) :
    Host.Core.run core (n + 1) s = Host.Core.run core n t := run_of_step core n s t h

end Sys2Proof.Machine
end

