-- ==== Sys2Proof/Tests/Slice0.lean ====
section
/-! SUPPORT. Tests: the well-formedness smoke test, decoding of written-out words, one or two vectors of
spec/95_test_vectors.md per command, and for every statement with hypotheses a state and operands that meet them. -/

namespace Sys2Proof.Machine.Tests

set_option Elab.async false

/-! ### Well-formedness -/

theorem test_unframe_kind_1_as_other_is_ill_formed : (Instr.unframe (.other 1)).wellFormed = false := by decide
theorem test_unframe_kind_16_is_ill_formed : (Instr.unframe (.other 16)).wellFormed = false := by decide
theorem test_encrypt_kind_0_as_other_is_ill_formed : (Instr.encrypt (.other 0) true).wellFormed = false := by decide
theorem test_encrypt_kind_16_is_ill_formed : (Instr.encrypt (.other 16) false).wellFormed = false := by decide
theorem test_decrypt_kind_1_as_other_is_ill_formed : (Instr.decrypt (.other 1)).wellFormed = false := by decide
theorem test_decrypt_kind_99_is_ill_formed : (Instr.decrypt (.other 99)).wellFormed = false := by decide

/-! ### Decoding: words written field by field from R100, RSV then UNTAG then KIND then OP -/

theorem test_decode_nop : decode (0#19 ++ 0#1 ++ 0#4 ++ 0x00#8) = .ok .nop := by decide
theorem test_decode_pack : decode (0#19 ++ 0#1 ++ 0#4 ++ 0x01#8) = .ok .pack := by decide
theorem test_decode_unpack : decode (0#19 ++ 0#1 ++ 0#4 ++ 0x02#8) = .ok .unpack := by decide
theorem test_decode_derive : decode (0#19 ++ 0#1 ++ 0#4 ++ 0x03#8) = .ok .derive := by decide
theorem test_decode_subst : decode (0#19 ++ 0#1 ++ 0#4 ++ 0x04#8) = .ok .subst := by decide
theorem test_decode_unsubst : decode (0#19 ++ 0#1 ++ 0#4 ++ 0x05#8) = .ok .unsubst := by decide
theorem test_decode_frame : decode (0#19 ++ 1#1 ++ 0#4 ++ 0x06#8) = .ok (.frame true) := by decide
theorem test_decode_unframe : decode (0#19 ++ 0#1 ++ 1#4 ++ 0x07#8) = .ok (.unframe (.supported .binary)) := by decide
theorem test_decode_encrypt : decode (0#19 ++ 1#1 ++ 1#4 ++ 0x08#8) = .ok (.encrypt (.supported .binary) true) := by
  decide
theorem test_decode_decrypt : decode (0#19 ++ 0#1 ++ 0#4 ++ 0x09#8) = .ok (.decrypt (.supported .text)) := by decide

/-- V-N8 and V-N9: a kind that is not implemented decodes. -/
theorem test_decode_other_kinds : decode 0x00000207 = .ok (.unframe (.other 2))
    ∧ decode 0x00000F08 = .ok (.encrypt (.other 15) false) ∧ decode 0x00000209 = .ok (.decrypt (.other 2)) := by decide

/-- V-N2 to V-N7, V-N10, V-N11, V-X11 and the last opcode: illegal words, each refused by name. -/
theorem test_decode_illegal : ∀ p ∈ ([(0x00000100, .kindNotUsed), (0x0000000A, .reservedOpcode 10),
    (0x000000FF, .reservedOpcode 255), (0x00002001, .reservedBits), (0x00001001, .untagNotUsed),
    (0x00001007, .untagNotUsed), (0x00002208, .reservedBits), (0x00000106, .kindNotUsed),
    (0x00001009, .untagNotUsed), (0x80000000, .reservedBits)] : List (Word × DecodeError)),
    decode p.1 = .error p.2 := by decide

theorem test_table_word : decodeTableWord 32 0x1108 = some (.encrypt (.supported .binary) true)
    ∧ decodeTableWord 32 0x0A = none := by decide

/-! ### States -/

/-- Small legal capacities, so that every capacity can be exceeded; BASE is not 0. -/
def smallParams : Params where
  pDin := 64
  pDout := 64
  pKey := 12
  pMt := 24
  pSym := 64
  base := 0x1000000
  table := Config.xorTable

/-- The ASCII codes of a string. -/
def ascii (t : String) : List Byte := t.toList.map fun c => BitVec.ofNat 8 c.toNat

/-- An idle block with the given buffer prefixes and their lengths; SYM and KS are written whole. -/
def start (din key mt : String) (sym ks : List Symbol) : State where
  params := smallParams
  regs := { Regs.reset with
    dinLen := BitVec.ofNat 32 din.length
    keyLen := BitVec.ofNat 32 key.length
    mtLen := BitVec.ofNat 32 mt.length
    symLen := BitVec.ofNat 32 sym.length
    ksLen := BitVec.ofNat 32 ks.length }
  mem := let m : Memory := { gen := 0, cells := [] }
    let m := (m.storeBytes symWin (List.replicate 16 0)).storeBytes ksWin (List.replicate 16 0)
    let m := (m.storeSyms symWin 0 sym).storeSyms ksWin 0 ks
    let m := (m.storeBytes dinWin (ascii din)).storeBytes mtWin (ascii mt)
    m.storeBytes keyWin ((ascii key).flatMap fun b => [b, 0])
  rdata := none
  pending := []
  fresh := 0

/-- The block with nothing loaded, and with chosen registers. -/
def withRegs (f : Regs → Regs) : State := let s := start "" "" "" [] []; { s with regs := f s.regs }

/-- The state a command gives. -/
def after (i : Instr) (s : State) : State := s.complete (evalInstr i s)

theorem exec_after (i : Instr) (s : State) : exec i s = .next (after i s) := exec_eq_complete i s

/-- ERRCODE and ERRPOS of a state with ERR and DONE set. -/
def errorOf (s : State) : Option (Byte × Word) :=
  if s.regs.status.err && s.regs.status.done then some (s.regs.status.errcode, s.regs.errpos) else none

/-- The first `n` bytes of DOUT. -/
def doutOf (s : State) : List Byte := (List.range s.regs.doutLen.toNat).map fun i => s.mem.byte (doutWin + i)

/-- The first container of spec/95_test_vectors.md E1. -/
def helloContainer : String := "eyJ0eXBlIjoidGV4dC9wbGFpbiJ9:VEFDR1RUVENDVFRBVEdBR0FBQ0E="

/-! ### Commands: vectors of spec/95_test_vectors.md section 2 -/

/-- V-N1, run as the first command after reset. -/
theorem test_nop_completes : (after .nop (State.reset.issue 0)).regs.status.toWord = 0x00000002 := by decide

/-- V-N2: an illegal word, run as the first command after reset. -/
theorem test_illegal_word_completes_with_error :
    ((State.reset.issue 0x100).complete (evalWord 0x100 (State.reset.issue 0x100))).regs.status.toWord = 0x00001006 := by
  decide

/-- V-P3. -/
theorem test_pack_hello : (after .pack (start "HELLO" "" "" [] [])).symbols
    = [1,0,2,0, 1,0,1,1, 1,0,3,0, 1,0,3,0, 1,0,3,3] := by decide +kernel

/-- The remark under section 2.2: CAPACITY at 4 times DIN_LEN, here 17 bytes into 64 symbols. -/
theorem test_pack_capacity : errorOf (after .pack (withRegs fun r => { r with dinLen := 17 })) = some (0x12, 68) := by
  decide +kernel

/-- V-U2. -/
theorem test_unpack_drops_the_last_symbol :
    doutOf (after .unpack (start "" "" "" [1, 0, 2, 0, 3] [])) = [0x48] := by decide +kernel

/-- V-U7, at this capacity. -/
theorem test_unpack_length : errorOf (after .unpack (withRegs fun r => { r with symLen := 65 })) = some (0x11, 0x28) := by
  decide +kernel

/-- V-D4: DERIVE does not check KEY_MIN. -/
theorem test_derive_short_key :
    let s := start "" "short77" "" [] []
    let t := after .derive { s with regs := { s.regs with ksReq := 4 } }
    t.regs.hash = 0x7B365C5C ∧ t.keyStream = [2, 1, 3, 2] ∧ t.regs.lcg = 168344 := by decide +kernel

/-- V-D3: with no draw LCG is HASH. -/
theorem test_derive_nothing : (after .derive (start "" "abcdefgh" "" [] [])).regs.lcg = 0x4B151884
    ∧ (after .derive (start "" "abcdefgh" "" [] [])).regs.ksLen = 0 := by decide +kernel

/-- V-S4: the key stream is cycled. -/
theorem test_subst_cycles : (after .subst (start "" "" "" [1, 2, 3, 0, 1, 2] [1, 2])).symbols = [0, 0, 2, 2, 0, 0] := by
  decide +kernel

/-- V-S7. -/
theorem test_subst_without_key_stream : errorOf (after .subst (withRegs fun r => { r with symLen := 1 }))
    = some (0x02, 0x2C) := by decide +kernel

/-- V-S2. -/
theorem test_unsubst : (after .unsubst (start "" "" "" [3, 0, 2, 1] [2, 0, 0, 1])).symbols = [1, 0, 2, 0] := by
  decide +kernel

/-- V-F7. -/
theorem test_frame_media_type : doutOf (after (.frame false) (start "" "" "image/png" [0, 1, 2, 3] []))
    = ascii "eyJ0eXBlIjoiaW1hZ2UvcG5nIn0=:QUdDVA==" := by decide +kernel

/-- V-F10. -/
theorem test_frame_bad_media_type : errorOf (after (.frame false) (start "" "" "a\"b" [0] [])) = some (0x13, 1) := by
  decide +kernel

/-- V-U8. -/
theorem test_unframe_media_type :
    let t := after (.unframe (.supported .text)) (start "eyJ0eXBlIjoiaW1hZ2UvcG5nIn0=:QUdDVA==" "" "" [] [])
    t.symbols = [0, 1, 2, 3] ∧ t.mt = ascii "image/png" := by decide +kernel

/-- V-U19: the position counts from the start of the container. -/
theorem test_unframe_space :
    errorOf (after (.unframe (.supported .text)) (start "eyJ0eXBlIjoidGV4dC9wbGFpbiJ9:QUdD VA==" "" "" [] []))
      = some (0x03, 33) := by decide +kernel

/-- V-E1. -/
theorem test_encrypt_hello :
    let t := after (.encrypt (.supported .text) false) (start "HELLO" "correcthorse" "" [] [])
    doutOf t = ascii helloContainer ∧ t.regs.hash = 0x94C9C5B3 ∧ t.regs.lcg = 215215 := by decide +kernel

/-- V-E12: the key is checked before the media type. -/
theorem test_encrypt_short_key :
    errorOf (after (.encrypt (.supported .text) false) (start "" "short77" "a\"b" [] [])) = some (0x01, 0) := by
  decide +kernel

/-- V-X1. -/
theorem test_decrypt_hello :
    let t := after (.decrypt (.supported .text)) (start helloContainer "correcthorse" "" [] [])
    doutOf t = ascii "HELLO" ∧ t.mt = ascii "text/plain" := by decide +kernel

/-- V-X5: three symbols make no byte. -/
theorem test_decrypt_three_symbols :
    let t := after (.decrypt (.supported .text)) (start "QUdD" "correcthorse" "" [] [])
    t.symbols = [2, 1, 2] ∧ t.keyStream = [2, 0, 0] ∧ t.regs.lcg = 30326 ∧ t.regs.doutLen = 0 := by decide +kernel

/-! ### The register interface: vectors of spec/95_test_vectors.md section 2.8 -/

/-- V-H4: an unmapped offset. -/
theorem test_unmapped_read : (State.reset.hostRead 0x004000 32).rdata = some 0
    ∧ (State.reset.hostRead 0x004000 32).regs.status.toWord = 0x00000010 := by decide

/-- V-H9: a KEY word holds two code units. -/
theorem test_key_word : (State.reset.hostWrite 0x002000 32 0x006F0063).mem.unit keyWin 0 = 0x0063
    ∧ (State.reset.hostWrite 0x002000 32 0x006F0063).mem.unit keyWin 1 = 0x006F := by decide

/-- V-H10: a SYM word holds four symbols a byte, the first in the two most significant bits. -/
theorem test_symbol_word : (State.reset.hostWrite 0xC00000 32 0x000000E4).symPrefix 8 = [3, 2, 1, 0, 0, 0, 0, 0] := by
  decide

/-! ### Witnesses: states and operands that meet the hypotheses of a statement, clause by clause

`witness_<Name>` belongs to `Obligations.<Name>`. Each is its hypotheses at chosen values, most at the end of a range. -/

theorem witness_DecodeOfEncodeIsTheCommand :
    (Instr.decrypt (.other 2)).wellFormed = true ∧ (Instr.encrypt (.other 15) true).wellFormed = true := by decide

theorem witness_EncodeOfDecodedWordIsTheWord : decode 0x00001F08 = .ok (.encrypt (.other 15) true) := by decide

/-- A busy block with the command of word `v` in flight. -/
def busyWith (v : Word) : State := (start "HELLO" "correcthorse" "" [1] []).issue v

theorem witness_StepRunsTheDecodedCommand : paramsLegal (busyWith 0x00000F08).params = true
    ∧ (busyWith 0x00000F08).regs.status.busy = true
    ∧ decode (busyWith 0x00000F08).regs.cmd = .ok (.encrypt (.other 15) false)
    ∧ (busyWith 0x00000F08).pending = []
    ∧ { busyWith 0x00000F08 with pending := [.engine] }.pending = .engine :: [] := by decide +kernel

theorem witness_StepCompletesIllegalWord : paramsLegal (busyWith 0x0A).params = true
    ∧ (busyWith 0x0A).regs.status.busy = true
    ∧ decode (busyWith 0x0A).regs.cmd = .error (.reservedOpcode 10)
    ∧ (busyWith 0x0A).pending = []
    ∧ { busyWith 0x0A with pending := [.engine, .powerOn] }.pending = .engine :: [.powerOn] := by decide +kernel

theorem witness_StepPerformsTheNextEvent :
    let s := { State.reset with pending := [.host (.read 0 32), .engine] }
    let t := { State.reset with pending := [.engine] }
    let u := { State.reset with params := { Config.defaultParams with pDin := 6 } }
    (paramsLegal s.params = true ∧ s.pending = .host (.read 0 32) :: [.engine])
    ∧ (paramsLegal t.params = true ∧ t.regs.status.busy = false ∧ t.pending = .engine :: [])
    ∧ (paramsLegal State.reset.params = true ∧ State.reset.regs.status.busy = false ∧ State.reset.pending = [])
    ∧ paramsLegal u.params = false := by decide

theorem witness_BlockIsIdleOnceEventsAreUsedUp :
    paramsLegal { busyWith 1 with pending := [.host (.write 0x1000010 32 2)] }.params = true := by decide +kernel

/-- A state that meets the invariant with a command in flight, buffers written and a step to take. -/
def inFlight : State := { busyWith 1 with pending := [.engine] }

theorem witness_EveryStepKeepsTheInvariant : inFlight.Inv ∧ ∃ t, step inFlight = .next t :=
  ⟨⟨by decide +kernel, by decide +kernel, by decide +kernel, by decide +kernel, by decide +kernel, by decide +kernel,
    by decide +kernel, by decide +kernel⟩, step_legal (by decide +kernel)⟩

theorem witness_NoStepChangesTheParameters : ∃ t, step inFlight = .next t := step_legal (by decide +kernel)

theorem witness_SoftResetRestoresEveryRegister : (0xFFFFFFFE : Word).getLsbD 1 = true
    ∧ (start "" "" "" [] []).regs.status.busy = false := by decide +kernel

/-- A container with one symbol and a media type of 25 bytes, one more than MT holds. -/
def longMedia : String := "eyJ0eXBlIjoiMDEyMzQ1Njc4OTAxMjM0NTY3ODkwMTIzNCJ9:QQ=="

/-- R291 with R212 and R241: an abandoned UNFRAME or DECRYPT that would have failed after the parse, or before it, disturbs
no symbol past the parsed ones; without a parse the whole buffers. -/
theorem test_abandoned_prefixes :
    ((start longMedia "" "" [] []).issue 0x007).abandonedExtent = { sym := 1, mt := 24 }
    ∧ ((start "QUdDVA==" "short77" "" [] []).issue 0x109).abandonedExtent = { sym := 4, ks := 4, dout := 1, mt := 24 }
    ∧ ((start "QUdDVA==" "" "" [] []).issue 0x207).abandonedExtent = { sym := 4, mt := 24 }
    ∧ ((start "QUdDVA=" "" "" [] []).issue 0x007).abandonedExtent = { sym := 64, mt := 24 } := by decide +kernel

/-- A FRAME of a bad media type in flight, which would end in error. -/
def busyFailing : State := (start "" "" "a\"b" [0] []).issue 6

theorem witness_AbandonedCommandDisturbsOnlyItsDestinations :
    (paramsLegal busyFailing.params = true ∧ (2 : Word).getLsbD 1 = true ∧ busyFailing.regs.status.busy = true
      ∧ decode busyFailing.regs.cmd = .ok (.frame false)
      ∧ evalWord busyFailing.regs.cmd busyFailing = .error ⟨.badMediaType, 1⟩)
    ∧ (paramsLegal (busyWith 8).params = true ∧ (busyWith 8).regs.status.busy = true
      ∧ (evalWord (busyWith 8).regs.cmd (busyWith 8)).toOption.any fun u => u.dout.length == 57 && u.sym.length == 20)
    ∧ (paramsLegal (busyWith 10).params = true ∧ (busyWith 10).regs.status.busy = true
      ∧ decode (busyWith 10).regs.cmd = .error (.reservedOpcode 10))
    ∧ (let s := (start longMedia "" "" [] []).issue 7
      paramsLegal s.params = true ∧ s.regs.status.busy = true ∧ decode s.regs.cmd = .ok (.unframe (.supported .text))
      ∧ s.regs.dinLen.toNat ≤ s.params.pDin
      ∧ parseContainer s.din .text = .ok ⟨[0], ascii "0123456789012345678901234"⟩) := by
  decide +kernel

theorem witness_PowerOnEventRestoresTheResetState :
    paramsLegal { busyWith 8 with pending := [.powerOn] }.params = true
    ∧ { busyWith 8 with pending := [.powerOn] }.pending = .powerOn :: [] := by decide +kernel

theorem witness_CommandWriteIssues : (busyWith 8).regs.status.busy = true
    ∧ State.reset.regs.status.busy = false ∧ paramsLegal State.reset.params = true ∧ State.reset.pending = []
    ∧ { State.reset with pending := [.engine] }.pending = .engine :: []
    ∧ decode 0xFFFFFFFF = .error .reservedBits := by decide +kernel

/-- A width that is not 32, a misaligned offset, and unmapped offsets at the ends of the unmapped ranges. -/
theorem witness_RejectedAccessOnlySetsAerr : (16 ≠ 32) ∧ (0x400002 % 4 ≠ 0)
    ∧ ∀ off ∈ [0x001018, 0x001FFC, 0x002018, 0x004000, 0x3FFFFC, 0x400040, 0x7FFFFC, 0x800040, 0xC00010, 0xDFFFFC, 0xE00010,
        0xFFFFFC],
      0x001000 ≤ off ∧ ¬ (0x001000 ≤ off ∧ off < 0x001000 + smallParams.pMt)
      ∧ ¬ (0x002000 ≤ off ∧ off < 0x002000 + 2 * smallParams.pKey)
      ∧ ¬ (0x400000 ≤ off ∧ off < 0x400000 + smallParams.pDin) ∧ ¬ (0x800000 ≤ off ∧ off < 0x800000 + smallParams.pDout)
      ∧ ¬ (0xC00000 ≤ off ∧ off < 0xC00000 + smallParams.pSym / 4)
      ∧ ¬ (0xE00000 ≤ off ∧ off < 0xE00000 + smallParams.pSym / 4) := by decide

/-- The first and the last word of every window. -/
theorem mapped_ends : ∀ off ∈ [0x001000, 0x001014, 0x002000, 0x002014, 0x400000, 0x40003C, 0x800000, 0x80003C, 0xC00000, 0xC0000C,
    0xE00000, 0xE0000C], off % 4 = 0 ∧ InMappedWindow smallParams off ∧ windowMapped smallParams off = true := by decide

theorem witness_BusyWritesAreLostAndSetWib : (busyWith 8).regs.status.busy = true
    ∧ 0x010 ∈ [0x010, 0x018, 0x01C, 0x020, 0x028, 0x02C, 0x030]
    ∧ (0xE0000C % 4 = 0 ∧ InMappedWindow (busyWith 8).params 0xE0000C) := by decide +kernel

theorem witness_ReadOnlyWritesChangeNothing :
    0x04C ∈ [0x000, 0x004, 0x014, 0x024, 0x034, 0x038, 0x03C, 0x040, 0x044, 0x048, 0x04C]
    ∧ (0x050 ≤ 0x050 ∧ 0x050 < 0x001000 ∧ 0x050 % 4 = 0) ∧ (0x050 ≤ 0xFFC ∧ 0xFFC < 0x001000 ∧ 0xFFC % 4 = 0) := by
  decide

theorem witness_ReservedOffsetsReadZero : (0x050 ≤ 0x050 ∧ 0x050 ≤ 0xFFC ∧ 0x050 % 4 = 0)
    ∧ (0x050 ≤ 0xFFC ∧ 0xFFC ≤ 0xFFC ∧ 0xFFC % 4 = 0) := by decide

theorem witness_BusyReads : (busyWith 8).regs.status.busy = true
    ∧ 0x038 ∈ [0x018, 0x01C, 0x020, 0x024, 0x028, 0x02C, 0x030, 0x034, 0x038]
    ∧ (0x001000 % 4 = 0 ∧ InMappedWindow (busyWith 8).params 0x001000) := by decide +kernel

theorem witness_IdleReadsReturnTheState : (start "HELLO" "" "" [] []).regs.status.busy = false
    ∧ (0x40003C % 4 = 0 ∧ InMappedWindow (start "HELLO" "" "" [] []).params 0x40003C) := by
  decide +kernel

theorem witness_StatusAndControlWrites : (0xFFFFFFFD : Word).getLsbD 1 = false := by decide

theorem witness_LengthRegistersStoreAnyValue : (start "" "" "" [] []).regs.status.busy = false := by decide +kernel

/-- The last word of KEY, SYM and KS, and the first of MT. -/
theorem witness_WindowWritesStoreTheElements : (start "" "" "" [] []).regs.status.busy = false
    ∧ ∀ p ∈ [(0x002000 + 4 * 5, 5), (0xC00000 + 4 * 3, 3), (0xE00000 + 4 * 3, 3), (0x001000 + 4 * 0, 0)],
      p.1 % 4 = 0 ∧ InMappedWindow (start "" "" "" [] []).params p.1 := by decide +kernel

theorem witness_AccessesReachTheirOffset : 0xFFFFFF < 0x1000000
    ∧ 0xFFFFFF < smallParams.base ∧ smallParams.base + 0x1000000 ≤ 0x2000000 := by decide

/-- A CMD write that is lost, a DOUT read that returns a free value and a CTRL write, all while the block is busy. -/
theorem witness_HostCannotDisturbACommandInFlight :
    let accesses : List Access := [.write 0x1000010 32 0, .read 0x1800000 32, .write 0x1000008 32 1]
    ∀ n, n ≤ accesses.length → ((accesses.take n).foldl State.performAccess (busyWith 8)).regs.status.busy = true := by
  intro accesses n hn
  have h : ∀ m ∈ List.range 4, ((accesses.take m).foldl State.performAccess (busyWith 8)).regs.status.busy = true := by
    decide +kernel
  exact h n (List.mem_range.2 (Nat.lt_succ_of_le hn))

/-! ### Witnesses: results -/

/-- Sixteen bytes fill SYM. -/
theorem witness_PackResult : let s := start "0123456789abcdef" "" "" [] []
    s.regs.dinLen.toNat ≤ s.params.pDin ∧ 4 * s.regs.dinLen.toNat = s.params.pSym := by decide +kernel

theorem witness_UnpackResult : let s := start "" "" "" (List.replicate 64 3) []
    s.regs.symLen.toNat = s.params.pSym ∧ s.regs.symLen.toNat / 4 ≤ s.params.pDout := by decide +kernel

theorem witness_DeriveResult : let s := withRegs fun r => { r with keyLen := 12, ksReq := 64 }
    s.regs.keyLen.toNat = s.params.pKey ∧ s.regs.ksReq.toNat = s.params.pSym ∧ s.regs.keyLen ≠ 0 := by decide +kernel

theorem witness_SubstResult : let s := start "" "" "" (List.replicate 64 1) [2]
    let t := start "" "" "" [] []
    (s.regs.symLen.toNat ≤ s.params.pSym ∧ s.regs.ksLen.toNat ≤ s.params.pSym ∧ s.regs.ksLen ≠ 0)
    ∧ (t.regs.symLen.toNat ≤ t.params.pSym ∧ t.regs.ksLen.toNat ≤ t.params.pSym ∧ t.regs.symLen = 0) := by decide +kernel

theorem witness_UnsubstResult : let s := start "" "" "" [1] (List.replicate 64 3)
    paramsLegal s.params = true ∧ s.regs.symLen.toNat ≤ s.params.pSym ∧ s.regs.ksLen.toNat ≤ s.params.pSym
      ∧ (s.regs.symLen = 0 ∨ s.regs.ksLen ≠ 0) := by decide +kernel

/-- A tagged container with a media type, and an untagged one of the greatest length that fits. -/
theorem witness_FrameResult : let s := start "" "" "image/png" [0, 1, 2, 3] []
    let t := start "" "" "" (List.replicate 48 2) []
    (s.regs.symLen.toNat ≤ s.params.pSym ∧ (s.regs.mtLen.toNat ≤ s.params.pMt ∧ ∀ c ∈ s.mt, mediaByteOk c = true)
      ∧ s.containerLength s.regs.symLen.toNat false ≤ s.params.pDout)
    ∧ (t.regs.symLen.toNat ≤ t.params.pSym ∧ t.containerLength t.regs.symLen.toNat true = t.params.pDout) := by
  decide +kernel

theorem witness_UnframeResult : let s := start "eyJ0eXBlIjoiaW1hZ2UvcG5nIn0=:QUdDVA==" "" "" [] []
    let p : Parsed := ⟨[0, 1, 2, 3], ascii "image/png"⟩
    paramsLegal s.params = true ∧ s.regs.dinLen.toNat ≤ s.params.pDin ∧ parseContainer s.din .text = .ok p
      ∧ p.seq.length ≤ s.params.pSym ∧ p.mt.length ≤ s.params.pMt := by decide +kernel

theorem witness_EncryptResult : let s := start "HELLO" "abcdefgh" "" [] []
    paramsLegal s.params = true ∧ s.regs.dinLen.toNat ≤ s.params.pDin ∧ s.regs.keyLen.toNat ≤ s.params.pKey
      ∧ 8 = s.regs.keyLen.toNat
      ∧ (s.regs.mtLen.toNat ≤ s.params.pMt ∧ ∀ c ∈ s.mt, mediaByteOk c = true)
      ∧ 4 * s.regs.dinLen.toNat ≤ s.params.pSym
      ∧ s.containerLength (4 * s.regs.dinLen.toNat) false ≤ s.params.pDout
      ∧ s.containerLength (4 * s.regs.dinLen.toNat) true ≤ s.params.pDout := by decide +kernel

theorem witness_DecryptResult : let s := start "QUdD" "correcthorse" "" [] []
    let p : Parsed := ⟨[0, 1, 2], octetStream⟩
    paramsLegal s.params = true ∧ s.regs.dinLen.toNat ≤ s.params.pDin ∧ s.regs.keyLen.toNat = s.params.pKey
      ∧ 8 ≤ s.regs.keyLen.toNat ∧ parseContainer s.din .binary = .ok p ∧ p.seq.length ≤ s.params.pSym
      ∧ p.mt.length = s.params.pMt ∧ p.seq.length / 4 ≤ s.params.pDout := by decide +kernel

/-! ### Witnesses: errors -/

theorem witness_FailedCommandChangesOnlyTheReport : let s := withRegs fun r => { r with dinLen := 65 }
    s.regs.status.err = false ∧ exec .pack s = .next (after .pack s) ∧ (after .pack s).regs.status.err = true :=
  ⟨by decide +kernel, exec_after _ _, by decide +kernel⟩

theorem witness_CodecErrors :
    let a := withRegs fun r => { r with dinLen := 65 }
    let b := withRegs fun r => { r with dinLen := 17 }
    let c := withRegs fun r => { r with symLen := 65 }
    let d := { withRegs (fun r => { r with symLen := 20 }) with params := { smallParams with pDout := 4 } }
    a.params.pDin < a.regs.dinLen.toNat
    ∧ (b.regs.dinLen.toNat ≤ b.params.pDin ∧ b.params.pSym < 4 * b.regs.dinLen.toNat)
    ∧ c.params.pSym < c.regs.symLen.toNat
    ∧ (d.regs.symLen.toNat ≤ d.params.pSym ∧ d.params.pDout < d.regs.symLen.toNat / 4) := by decide +kernel

theorem witness_DeriveErrors :
    let a := withRegs fun r => { r with keyLen := 13 }
    let b := withRegs fun r => { r with keyLen := 12, ksReq := 65 }
    let c := withRegs fun r => { r with ksReq := 64 }
    let d := withRegs fun r => { r with keyLen := 1, ksReq := 64 }
    a.params.pKey < a.regs.keyLen.toNat
    ∧ (b.regs.keyLen.toNat ≤ b.params.pKey ∧ b.params.pSym < b.regs.ksReq.toNat)
    ∧ (c.regs.ksReq.toNat ≤ c.params.pSym ∧ c.regs.keyLen = 0)
    ∧ (d.regs.ksReq.toNat ≤ d.params.pSym ∧ d.regs.keyLen = 1 ∧ 1 ≤ d.params.pKey) := by decide +kernel

theorem witness_SubstitutionErrors :
    let a := withRegs fun r => { r with symLen := 65 }
    let b := withRegs fun r => { r with symLen := 64, ksLen := 65 }
    let c := withRegs fun r => { r with symLen := 1 }
    a.params.pSym < a.regs.symLen.toNat
    ∧ (b.regs.symLen.toNat ≤ b.params.pSym ∧ b.params.pSym < b.regs.ksLen.toNat)
    ∧ (c.regs.symLen.toNat ≤ c.params.pSym ∧ c.regs.symLen ≠ 0 ∧ c.regs.ksLen = 0) := by decide +kernel

theorem witness_FrameErrors :
    let a := withRegs fun r => { r with symLen := 65 }
    let b := withRegs fun r => { r with symLen := 64, mtLen := 25 }
    let c := start "" "" "a\"b" [0] []
    let d := withRegs fun r => { r with symLen := 49 }
    let e := start "" "" "application/octet-stream" (List.replicate 16 1) []
    a.params.pSym < a.regs.symLen.toNat
    ∧ (b.regs.symLen.toNat ≤ b.params.pSym ∧ b.params.pMt < b.regs.mtLen.toNat)
    ∧ (c.regs.symLen.toNat ≤ c.params.pSym ∧ c.regs.mtLen.toNat ≤ c.params.pMt ∧ 1 < c.regs.mtLen.toNat
      ∧ mediaByteOk (c.mem.byte (mtWin + 1)) = false ∧ ∀ j, j < 1 → mediaByteOk (c.mem.byte (mtWin + j)) = true)
    ∧ (d.regs.symLen.toNat ≤ d.params.pSym ∧ d.params.pDout < d.containerLength d.regs.symLen.toNat true)
    ∧ (e.regs.symLen.toNat ≤ e.params.pSym ∧ (e.regs.mtLen.toNat ≤ e.params.pMt ∧ ∀ c ∈ e.mt, mediaByteOk c = true)
      ∧ e.params.pDout < e.containerLength e.regs.symLen.toNat false) := by decide +kernel

/-- A block whose SYM holds 16 symbols, so that a container can hold too many. -/
def smallSym (s : State) : State := { s with params := { s.params with pSym := 16, pMt := 24 } }

/-- A container with a ":": the payload starts after it. -/
theorem segment_after_colon : PayloadSegment (ascii "abcd:QU=D") (ascii "QU=D") 5 :=
  .inl ⟨ascii "abcd", by decide +kernel, by decide +kernel, by decide +kernel⟩

/-- A container without ":" is all payload (V-U23). -/
theorem segment_without_colon : PayloadSegment (ascii "AGCT") (ascii "AGCT") 0 :=
  .inr ⟨by decide +kernel, rfl, rfl⟩

/-- The two failures of a payload segment, with their positions in it. -/
theorem segments_fail : b64dec (ascii "QU=D") = .error 2
    ∧ b64dec (ascii "AGCT") = .ok [0x00, 0x60, 0x93] ∧ symbolsOfChars [0x00, 0x60, 0x93] = .error 0 := by decide +kernel

theorem witness_UnframeErrors_segment :
    let b := start "abcd:QU=D" "" "" [] []
    let c := start "AGCT" "" "" [] []
    (b.regs.dinLen.toNat ≤ b.params.pDin ∧ b.din = ascii "abcd:QU=D")
    ∧ (c.regs.dinLen.toNat ≤ c.params.pDin ∧ c.din = ascii "AGCT") := by decide +kernel

theorem witness_DecryptErrors_segment :
    let b := start "abcd:QU=D" "abcdefgh" "" [] []
    let c := start "AGCT" "abcdefgh" "" [] []
    (b.regs.dinLen.toNat ≤ b.params.pDin ∧ b.regs.keyLen.toNat ≤ b.params.pKey ∧ 8 ≤ b.regs.keyLen.toNat
      ∧ b.din = ascii "abcd:QU=D")
    ∧ (c.regs.dinLen.toNat ≤ c.params.pDin ∧ c.regs.keyLen.toNat ≤ c.params.pKey ∧ 8 ≤ c.regs.keyLen.toNat
      ∧ c.din = ascii "AGCT") := by decide +kernel

theorem witness_UnframeErrors :
    let a := withRegs fun r => { r with dinLen := 65 }
    let b := start "QUdDVA=" "" "" [] []
    let c := smallSym (start "QUFBQUFBQUFBQUFBQUFBQUE=" "" "" [] [])
    let d := start "eyJ0eXBlIjoiMDEyMzQ1Njc4OTAxMjM0NTY3ODkwMTIzNCJ9:QQ==" "" "" [] []
    (2 ≤ 2 ∧ 15 ≤ 15)
    ∧ a.params.pDin < a.regs.dinLen.toNat
    ∧ (b.regs.dinLen.toNat ≤ b.params.pDin ∧ parseContainer b.din .text = .error ⟨.containerDecode, 7⟩)
    ∧ (c.regs.dinLen.toNat ≤ c.params.pDin
      ∧ parseContainer c.din .text = .ok ⟨List.replicate 17 0, textPlain⟩ ∧ c.params.pSym < 17)
    ∧ (d.regs.dinLen.toNat ≤ d.params.pDin
      ∧ parseContainer d.din .text = .ok ⟨[0], ascii "0123456789012345678901234"⟩ ∧ 1 ≤ d.params.pSym
      ∧ d.params.pMt < 25) := by decide +kernel

theorem witness_EncryptErrors :
    let a := withRegs fun r => { r with dinLen := 65 }
    let b := withRegs fun r => { r with dinLen := 64, keyLen := 13 }
    let c := withRegs fun r => { r with keyLen := 12, mtLen := 25 }
    let d := withRegs fun r => { r with mtLen := 24 }
    let e := withRegs fun r => { r with keyLen := 7, mtLen := 25 }
    let f := start "" "correcthorse" "a\"b" [] []
    let g := start "0123456789abcdefg" "abcdefgh" "" [] []
    let h := start "0123456789abc" "abcdefgh" "" [] []
    a.params.pDin < a.regs.dinLen.toNat
    ∧ (b.regs.dinLen.toNat ≤ b.params.pDin ∧ b.params.pKey < b.regs.keyLen.toNat)
    ∧ (c.regs.dinLen.toNat ≤ c.params.pDin ∧ c.regs.keyLen.toNat ≤ c.params.pKey ∧ c.params.pMt < c.regs.mtLen.toNat)
    ∧ (d.regs.dinLen.toNat ≤ d.params.pDin ∧ d.regs.keyLen.toNat ≤ d.params.pKey ∧ d.regs.mtLen.toNat ≤ d.params.pMt
      ∧ d.regs.keyLen = 0)
    ∧ (e.regs.dinLen.toNat ≤ e.params.pDin ∧ e.regs.keyLen.toNat ≤ e.params.pKey ∧ e.regs.keyLen ≠ 0
      ∧ e.regs.keyLen.toNat < 8)
    ∧ (f.regs.dinLen.toNat ≤ f.params.pDin ∧ f.regs.keyLen.toNat ≤ f.params.pKey ∧ f.regs.mtLen.toNat ≤ f.params.pMt
      ∧ 8 ≤ f.regs.keyLen.toNat ∧ 1 < f.regs.mtLen.toNat ∧ mediaByteOk (f.mem.byte (mtWin + 1)) = false
      ∧ ∀ j, j < 1 → mediaByteOk (f.mem.byte (mtWin + j)) = true)
    ∧ (g.regs.dinLen.toNat ≤ g.params.pDin ∧ g.regs.keyLen.toNat ≤ g.params.pKey ∧ g.regs.mtLen.toNat ≤ g.params.pMt
      ∧ 8 ≤ g.regs.keyLen.toNat ∧ (∀ c ∈ g.mt, mediaByteOk c = true) ∧ g.params.pSym < 4 * g.regs.dinLen.toNat)
    ∧ (h.regs.dinLen.toNat ≤ h.params.pDin ∧ h.regs.keyLen.toNat ≤ h.params.pKey ∧ 8 ≤ h.regs.keyLen.toNat
      ∧ 4 * h.regs.dinLen.toNat ≤ h.params.pSym
      ∧ h.params.pDout < h.containerLength (4 * h.regs.dinLen.toNat) true) := by decide +kernel

theorem witness_DecryptErrors :
    let a := withRegs fun r => { r with dinLen := 65 }
    let b := withRegs fun r => { r with dinLen := 64, keyLen := 13 }
    let d := withRegs fun r => { r with dinLen := 64 }
    let e := withRegs fun r => { r with keyLen := 7 }
    let f := start "AGCT" "correcthorse" "" [] []
    let g := smallSym (start "QUFBQUFBQUFBQUFBQUFBQUE=" "correcthorse" "" [] [])
    let h := start "eyJ0eXBlIjoiMDEyMzQ1Njc4OTAxMjM0NTY3ODkwMTIzNCJ9:QQ==" "correcthorse" "" [] []
    let j := { start "QUFBQUFBQUFBQUFBQUFBQUFBQUFB" "abcdefgh" "" [] [] with params := { smallParams with pDout := 4 } }
    a.params.pDin < a.regs.dinLen.toNat
    ∧ (b.regs.dinLen.toNat ≤ b.params.pDin ∧ b.params.pKey < b.regs.keyLen.toNat)
    ∧ (d.regs.dinLen.toNat ≤ d.params.pDin ∧ d.regs.keyLen.toNat ≤ d.params.pKey ∧ d.regs.keyLen = 0)
    ∧ (e.regs.dinLen.toNat ≤ e.params.pDin ∧ e.regs.keyLen.toNat ≤ e.params.pKey ∧ e.regs.keyLen ≠ 0
      ∧ e.regs.keyLen.toNat < 8)
    ∧ (f.regs.dinLen.toNat ≤ f.params.pDin ∧ f.regs.keyLen.toNat ≤ f.params.pKey ∧ 8 ≤ f.regs.keyLen.toNat
      ∧ parseContainer f.din .text = .error ⟨.symbolDecode, 0⟩)
    ∧ (g.regs.dinLen.toNat ≤ g.params.pDin ∧ g.regs.keyLen.toNat ≤ g.params.pKey ∧ 8 ≤ g.regs.keyLen.toNat
      ∧ parseContainer g.din .text = .ok ⟨List.replicate 17 0, textPlain⟩ ∧ g.params.pSym < 17)
    ∧ (h.regs.dinLen.toNat ≤ h.params.pDin ∧ h.regs.keyLen.toNat ≤ h.params.pKey ∧ 8 ≤ h.regs.keyLen.toNat
      ∧ parseContainer h.din .text = .ok ⟨[0], ascii "0123456789012345678901234"⟩ ∧ 1 ≤ h.params.pSym
      ∧ h.params.pMt < 25)
    ∧ (j.regs.dinLen.toNat ≤ j.params.pDin ∧ j.regs.keyLen.toNat ≤ j.params.pKey ∧ 8 ≤ j.regs.keyLen.toNat
      ∧ parseContainer j.din .binary = .ok ⟨List.replicate 21 0, octetStream⟩ ∧ 21 ≤ j.params.pSym
      ∧ 24 ≤ j.params.pMt ∧ j.params.pDout < 21 / 4) := by decide +kernel

/-! ### Witnesses: laws and pipeline -/

theorem witness_CodecRoundTrip : ([0, 1, 2, 3] : List Symbol).length % 4 = 0 ∧ ([1, 2, 3] : List Symbol).length < 4 := by
  decide

/-- V-D6 and V-D7: two passphrases with one hash. -/
theorem witness_KeystreamProperties :
    passHash [0x41, 0x61, 0x41, 0x61, 0x41, 0x61, 0x41, 0x61] % 233280
      = passHash [0x42, 0x42, 0x42, 0x42, 0x42, 0x42, 0x42, 0x42] % 233280 ∧ 3 ≤ 8 := by decide +kernel

theorem witness_SubstitutionLaws : isLatin Config.xorTable = true ∧ ([1, 2] : List Symbol) ≠ []
    ∧ ([1, 2, 3] : List Symbol) ≠ [] ∧ 2 < ([0, 1, 2] : List Symbol).length
    ∧ keySymbol [1, 2] 2 ≠ keySymbol [1, 2, 3] 2 := by decide

theorem witness_SymbolCharacters : (∀ c ∈ ascii "AGCT", c ∈ ([0x41, 0x47, 0x43, 0x54] : List Byte))
    ∧ 3 < (ascii "AGCX").length ∧ (ascii "AGCX")[3]? = some 0x58
    ∧ ∀ c ∈ (ascii "AGCX").take 3, c ∈ ([0x41, 0x47, 0x43, 0x54] : List Byte) := by decide +kernel

/-- The last group of one, of two and of three bytes, at the last character. -/
theorem witness_Base64EncoderOutput : (3 * 1 < (ascii "AGCT").length ∧ 3 < 4)
    ∧ (3 * 1 < (ascii "AGCTA").length ∧ 3 < 4) ∧ (3 * 1 < (ascii "AGCTAG").length ∧ 3 < 4) := by decide +kernel

/-- V-U19, V-U16 and V-U18, a third pad character, and V-U9 with the values of its first quartet. -/
theorem witness_Base64DecoderChecks :
    (b64Legal (0x20 : Byte) = false ∧ ∀ c ∈ ascii "QUdD", b64Legal c = true)
    ∧ ((∀ c ∈ ascii "QUdDVA=", b64Legal c = true) ∧ (ascii "QUdDVA=").length % 4 ≠ 0)
    ∧ ((∀ c ∈ ascii "QU=DVA==", b64Legal c = true) ∧ (ascii "QU=DVA==").length % 4 = 0
      ∧ (ascii "QU=DVA==")[2]? = some 0x3D ∧ (ascii "QU=DVA==")[3]? = some 0x44 ∧ 0x3D ∉ ascii "QU")
    ∧ ((∀ c ∈ ascii "Q===", b64Legal c = true) ∧ (ascii "Q===").length % 4 = 0 ∧ (ascii "Q===")[1]? = some 0x3D
      ∧ 2 < (ascii "Q===").length - 1)
    ∧ b64dec (ascii "QUdDVA==") = .ok (ascii "AGCT") := by decide +kernel

/-- V-U9: the premises of success hold of "QQ==", and the four values of its quartet are 16, 16, 0 and 0. -/
theorem witness_Base64DecoderChecks_success :
    (∀ c ∈ ascii "QQ==", b64Legal c = true) ∧ (ascii "QQ==").length % 4 = 0
    ∧ (∀ i j : Fin 4, i ≤ j → (ascii "QQ==")[i.val]? = some 0x3D → 4 - i.val ≤ 2 ∧ (ascii "QQ==")[j.val]? = some 0x3D)
    ∧ b64dec (ascii "QQ==") = .ok [0x41]
    ∧ HasValue (ascii "QQ==") 0 16 ∧ HasValue (ascii "QQ==") 1 16 ∧ HasValue (ascii "QQ==") 2 0
    ∧ HasValue (ascii "QQ==") 3 0 :=
  ⟨by decide +kernel, by decide +kernel, by decide +kernel, by decide +kernel, .inl (by decide +kernel),
    .inl (by decide +kernel), .inr (by decide +kernel), .inr (by decide +kernel)⟩

/-- The clauses about the parser: a failing payload, a byte that is no symbol character, a good payload after a left segment
that is not recognised (V-U11) and after one that is (V-U8), and a second ":". -/
theorem witness_ContainerRoundTrip_parser :
    b64dec (ascii "QUdDVA==") = .ok (ascii "AGCT") ∧ symbolsOfChars (ascii "AGCT") = .ok [0, 1, 2, 3]
    ∧ (0x3A : Byte) ∉ ascii "QUdDVA=="
    ∧ (0x3A : Byte) ∉ ascii "eyJ0eXBlIjogImltYWdlL3BuZyJ9" ∧ recognizeMeta (ascii "eyJ0eXBlIjogImltYWdlL3BuZyJ9") = none
    ∧ (0x3A : Byte) ∉ ascii "eyJ0eXBlIjoiaW1hZ2UvcG5nIn0="
    ∧ recognizeMeta (ascii "eyJ0eXBlIjoiaW1hZ2UvcG5nIn0=") = some (ascii "image/png")
    ∧ ∀ c ∈ ascii "QUdD", b64Legal c = true := by decide +kernel

theorem witness_ContainerRoundTrip : (∀ c ∈ ascii "image/png", mediaByteOk c = true)
    ∧ (0x3A : Byte) ∉ ascii "abcd" ∧ (0x3A : Byte) ∉ ascii "!!!!" ∧ (ascii "abcd").length = (ascii "!!!!").length := by
  decide +kernel

/-- The block of E1, and one whose DIN holds the first one's container. -/
def sender : State := start "HELLO" "correcthorse" "" [] []
def receiver : State := start helloContainer "correcthorse" "" [] []

/-- What ENCRYPT gives the first block, and what the second block's DIN holds, byte by byte. -/
theorem witness_DecryptUndoesEncrypt :
    let t := after (.encrypt (.supported .text) false) sender
    (paramsLegal sender.params = true ∧ sender.regs.dinLen.toNat ≤ sender.params.pDin ∧ 8 ≤ sender.regs.keyLen.toNat
      ∧ sender.regs.keyLen.toNat = sender.params.pKey
      ∧ (sender.regs.mtLen.toNat ≤ sender.params.pMt ∧ ∀ c ∈ sender.mt, mediaByteOk c = true)
      ∧ 4 * sender.regs.dinLen.toNat ≤ sender.params.pSym
      ∧ sender.containerLength (4 * sender.regs.dinLen.toNat) false ≤ sender.params.pDout
      ∧ sender.containerLength (4 * sender.regs.dinLen.toNat) false ≤ sender.params.pDin)
    ∧ (sender.containerLength (4 * sender.regs.dinLen.toNat) true ≤ sender.params.pDout
      ∧ sender.containerLength (4 * sender.regs.dinLen.toNat) true ≤ sender.params.pDin)
    ∧ receiver.params = sender.params ∧ receiver.key = sender.key ∧ receiver.regs.keyLen = sender.regs.keyLen
    ∧ receiver.regs.dinLen = t.regs.doutLen
    ∧ ∀ i, i < t.regs.doutLen.toNat → receiver.mem.byte (dinWin + i) = t.mem.byte (doutWin + i) := by decide +kernel

/-- The same with the untagged container of V-E2: the second block's DIN holds what ENCRYPT wrote. -/
theorem witness_DecryptUndoesEncrypt_untagged :
    let t := after (.encrypt (.supported .text) true) sender
    let r := start "VEFDR1RUVENDVFRBVEdBR0FBQ0E=" "correcthorse" "" [] []
    r.params = sender.params ∧ r.key = sender.key ∧ r.regs.keyLen = sender.regs.keyLen ∧ r.regs.dinLen = t.regs.doutLen
    ∧ ∀ i, i < t.regs.doutLen.toNat → r.mem.byte (dinWin + i) = t.mem.byte (doutWin + i) := by decide +kernel

theorem witness_EncryptIsTheChain : paramsLegal sender.params = true ∧ sender.regs.status.err = false
    ∧ exec (.encrypt (.supported .binary) true) sender = .next (after (.encrypt (.supported .binary) true) sender)
    ∧ (after (.encrypt (.supported .binary) true) sender).regs.status.err = false :=
  ⟨by decide +kernel, by decide +kernel, exec_after _ _, by decide +kernel⟩

theorem witness_DecryptIsTheChain : paramsLegal receiver.params = true ∧ receiver.regs.status.err = false
    ∧ exec (.decrypt (.supported .text)) receiver = .next (after (.decrypt (.supported .text)) receiver)
    ∧ (after (.decrypt (.supported .text)) receiver).regs.status.err = false :=
  ⟨by decide +kernel, by decide +kernel, exec_after _ _, by decide +kernel⟩

end Sys2Proof.Machine.Tests
end

section
/-! Reserved register offsets (spec/10_state.md R49). -/

namespace Sys2Proof.Machine

/-- The read side of R49: whatever the block is doing, 0 is returned and no flag is set. -/
theorem State.hostRead_reserved (s : State) {off : Nat} (h1 : 0x050 ≤ off) (h2 : off < 0x001000) (h4 : off % 4 = 0) :
    s.hostRead off 32 = s.answer 0 := by
  unfold State.hostRead; rw [if_pos (accessAccepted_word h4), placeAt_reserved _ h1 h2]

/-- The write side of R49: the write is ignored, and neither AERR nor WIB is set. -/
theorem State.hostWrite_reserved (s : State) {off : Nat} (v : Word) (h1 : 0x050 ≤ off) (h2 : off < 0x001000)
    (h4 : off % 4 = 0) : s.hostWrite off 32 v = s := by
  unfold State.hostWrite; rw [if_pos (accessAccepted_word h4), placeAt_reserved _ h1 h2]

/-- Settles O20: an aligned reserved offset is accepted and decodes to the reserved place of the address map. -/
theorem reservedOffsetsReadZero : Obligations.ReservedOffsetsReadZero := by
  intro s off v hlo hhi h4
  have hlt : off < 0x001000 := by omega
  exact ⟨s.hostRead_reserved hlo hlt h4, s.hostWrite_reserved v hlo hlt h4⟩

end Sys2Proof.Machine
end

section
/-! Rejected accesses (spec/20_memory.md R75, R76). -/

namespace Sys2Proof.Machine

/-- What R75 excludes: another width, or an offset that is no multiple of 4. -/
theorem accessAccepted_eq_false {width off : Nat} (h : width ≠ 32 ∨ off % 4 ≠ 0) :
    accessAccepted width off = false := by
  rcases h with hwidth | halign
  · simp [accessAccepted, hwidth]
  · simp [accessAccepted, halign]

/-- Above the registers, what lies in no window is unmapped (R71). -/
theorem placeAt_not_inMappedWindow {p : Params} {off : Nat} (h1 : 0x001000 ≤ off) (h2 : ¬ InMappedWindow p off) :
    placeAt p off = .unmapped := by
  refine placeAt_unmapped p h1 (Bool.eq_false_iff.mpr fun hmapped => h2 ?_)
  exact (windowMapped_iff_inMappedWindow p off).mp hmapped

/-- The read side of R76, whether the interface or the address map rejects the access: the busy flag plays no part. -/
theorem State.hostRead_rejected (s : State) {off width : Nat}
    (h : accessAccepted width off = false ∨ placeAt s.params off = .unmapped) :
    s.hostRead off width = s.setAerr.answer 0 := by
  unfold State.hostRead
  rcases h with hrejected | hunmapped
  · simp only [hrejected, Bool.false_eq_true, if_false]
  · simp only [hunmapped, ite_self]

/-- The write side of R76: AERR is set and not WIB. -/
theorem State.hostWrite_rejected (s : State) {off width : Nat} (v : Word)
    (h : accessAccepted width off = false ∨ placeAt s.params off = .unmapped) :
    s.hostWrite off width v = s.setAerr := by
  unfold State.hostWrite
  rcases h with hrejected | hunmapped
  · simp only [hrejected, Bool.false_eq_true, if_false]
  · simp only [hunmapped, ite_self]

/-- Settles O17: the interface rejects a bad width or alignment, the address map rejects an offset in no window, and
both rejections end alike. -/
theorem rejectedAccessOnlySetsAerr : Obligations.RejectedAccessOnlySetsAerr := by
  intro s off width v h
  have hrejected : accessAccepted width off = false ∨ placeAt s.params off = .unmapped := by
    rcases h with hwidth | halign | ⟨hlo, hmt, hkey, hdin, hdout, hsym, hks⟩
    · exact .inl (accessAccepted_eq_false (.inl hwidth))
    · exact .inl (accessAccepted_eq_false (.inr halign))
    · have hout : ¬ InMappedWindow s.params off := by
        simp only [InMappedWindow, not_or]
        exact ⟨hmt, hkey, hdin, hdout, hsym, hks⟩
      exact .inr (placeAt_not_inMappedWindow hlo hout)
  exact ⟨s.hostWrite_rejected v hrejected, s.hostRead_rejected hrejected⟩

end Sys2Proof.Machine
end

section
/-! The codec's laws (spec/41_codec.md R146). -/

namespace Sys2Proof.Machine

/-- The four bit pairs of a byte, joined from the most significant one, are the byte. -/
theorem bitPairs_append (b : Byte) :
    b.extractLsb' 6 2 ++ b.extractLsb' 4 2 ++ b.extractLsb' 2 2 ++ b.extractLsb' 0 2 = b := by
  revert b; decide

/-- UNPACK undoes PACK. -/
theorem bytesOfSymbols_symbolsOfBytes (b : List Byte) : bytesOfSymbols (symbolsOfBytes b) = b := by
  induction b with
  | nil => rfl
  | cons x rest ih => rw [symbolsOfBytes_cons, bytesOfSymbols_cons, bitPairs_append, ih]

/-- A split on a byte boundary: the two parts are packed into bytes independently. -/
theorem bytesOfSymbols_append : ∀ (seq tail : List Symbol), seq.length % 4 = 0 →
    bytesOfSymbols (seq ++ tail) = bytesOfSymbols seq ++ bytesOfSymbols tail
  | [], _, _ => rfl
  | [_], _, h | [_, _], _, h | [_, _, _], _, h => by simp at h
  | a :: b :: c :: d :: rest, tail, h => by
    have ih := bytesOfSymbols_append rest tail (by simp only [List.length_cons] at h; omega)
    simp only [List.cons_append, bytesOfSymbols_cons, ih]

/-- Settles O48: PACK and UNPACK group by group, a tail of fewer than four symbols being a part of its own that makes no
byte. -/
theorem codecRoundTrip : Obligations.CodecRoundTrip := by
  refine ⟨length_symbolsOfBytes, bytesOfSymbols_symbolsOfBytes, length_bytesOfSymbols, ?tail, ?bytes, ?symbols⟩
  case tail =>
    intro seq tail hseq htail
    calc bytesOfSymbols (seq ++ tail)
      _ = bytesOfSymbols seq ++ bytesOfSymbols tail := bytesOfSymbols_append seq tail hseq
      _ = bytesOfSymbols seq := by rw [bytesOfSymbols_short tail htail, List.append_nil]
  case bytes => intro b; rw [length_bytesToBits]; omega
  case symbols => intro seq; rw [length_symbolsToBits]; omega

end Sys2Proof.Machine
end

section
/-! The properties of the key-stream generator (spec/42_keystream.md R163). -/

namespace Sys2Proof.Machine

/-- A step depends on the state only modulo 233280 (R163). -/
theorem lcgNext_congr {x y : Nat} (h : x % 233280 = y % 233280) : lcgNext x = lcgNext y := by
  unfold lcgNext; omega

/-- The seed itself selects no symbol: only the state after its first step does. -/
theorem drawSymbols_ks_congr {x y : Nat} (n : Nat) (h : x % 233280 = y % 233280) :
    (drawSymbols n x).1 = (drawSymbols n y).1 := by
  cases n with
  | zero => rfl
  | succ n => rw [drawSymbols_succ, drawSymbols_succ, lcgNext_congr h]

theorem take_drawSymbols {n n' : Nat} (x : Nat) (h : n ≤ n') :
    (drawSymbols n' x).1.take n = (drawSymbols n x).1 := by
  induction n generalizing n' x with
  | zero => rfl
  | succ n ih =>
    obtain ⟨m, rfl⟩ := Nat.exists_eq_add_of_le' (Nat.le_of_add_left_le h)
    rw [drawSymbols_succ, drawSymbols_succ, List.take_succ_cons, ih _ (Nat.le_of_succ_le_succ h)]

/-- The state is updated before it selects a symbol, so the last symbol is the one of the final state (R161). -/
theorem getElem?_drawSymbols_last (n x : Nat) :
    (drawSymbols (n + 1) x).1[n]? = some (lcgSymbol (drawSymbols (n + 1) x).2) := by
  rw [getElem?_drawSymbols _ _ _ n.lt_succ_self, drawSymbols_state]

/-- The quarters of the state's range: 233280 is four times 58320, so the quotient is a symbol index without wrapping. -/
theorem lcgSymbol_eq_ofNat_iff {x i : Nat} (hx : x < 233280) (hi : i < 4) :
    lcgSymbol x = BitVec.ofNat 2 i ↔ 58320 * i ≤ x ∧ x < 58320 * (i + 1) := by
  have hquot : x / 58320 < 4 := by omega
  calc lcgSymbol x = BitVec.ofNat 2 i
    _ ↔ x / 58320 = i := by
      rw [lcgSymbol, ← BitVec.toNat_inj, BitVec.toNat_ofNat, BitVec.toNat_ofNat, Nat.mod_eq_of_lt hquot,
        Nat.mod_eq_of_lt hi]
    _ ↔ 58320 * i ≤ x ∧ x < 58320 * (i + 1) := by omega

/-- Drawing at least once leaves a stepped state, whatever the seed was. -/
theorem drawSymbols_succ_state_lt (n x : Nat) : (drawSymbols (n + 1) x).2 < 233280 := by
  rw [drawSymbols_state, Function.iterate_succ_apply']
  exact lcgNext_lt _

/-- Settles O49: key stream and state of DERIVE are those of the draws from the passphrase's hash. -/
theorem keystreamProperties : Obligations.KeystreamProperties := by
  refine ⟨?residue, by decide, by decide, ?shorter, ?draw⟩
  case residue => exact fun _ _ n h => drawSymbols_ks_congr n h
  case shorter => exact fun key _ _ h => (take_drawSymbols (passHash key) h).symm
  case draw =>
    intro key n
    have hstate := drawSymbols_succ_state_lt n (passHash key)
    refine ⟨hstate, length_deriveKeyStream key (n + 1), fun i hi => ?_⟩
    rw [deriveKeyStream_ks, deriveKeyStream_state_eq, getElem?_drawSymbols_last, Option.some.injEq]
    exact lcgSymbol_eq_ofNat_iff hstate hi

end Sys2Proof.Machine
end

section
/-! The laws of the substitution (spec/43_substitution.md R184). -/

namespace Sys2Proof.Machine

theorem mem_allSymbols (d : Symbol) : d ∈ allSymbols := by
  revert d; decide

/-- The Latin-square condition in the words of R181: no row and no column repeats a symbol. -/
theorem isLatin_iff (t : SubstTable) : isLatin t = true ↔
    ∀ k d e : Symbol, d ≠ e → tableAt t k d ≠ tableAt t k e ∧ tableAt t d k ≠ tableAt t e k := by
  simp only [isLatin, List.all_eq_true, mem_allSymbols, true_imp_iff, Bool.or_eq_true, beq_iff_eq, Bool.and_eq_true,
    bne_iff_ne, or_iff_not_imp_left, ne_eq]

theorem tableAt_row_injective {t : SubstTable} (h : isLatin t = true) (k : Symbol) :
    Function.Injective (tableAt t k) := fun d e heq =>
  by_contra fun hne => ((isLatin_iff t).mp h k d e hne).1 heq

theorem tableAt_column_injective {t : SubstTable} (h : isLatin t = true) (d : Symbol) :
    Function.Injective fun k => tableAt t k d := fun k k' heq =>
  by_contra fun hne => ((isLatin_iff t).mp h d k k' hne).2 heq

/-- The search of `tableInv` succeeds: a row is an injection of four symbols into four, so it reaches every symbol. -/
theorem tableAt_tableInv {t : SubstTable} (h : isLatin t = true) (k c : Symbol) :
    tableAt t k (tableInv t k c) = c := by
  obtain ⟨d, hd⟩ := Finite.surjective_of_injective (tableAt_row_injective h k) c
  have hfound : (allSymbols.find? fun d => tableAt t k d == c).isSome :=
    List.find?_isSome.mpr ⟨d, mem_allSymbols d, beq_iff_eq.mpr hd⟩
  obtain ⟨e, he⟩ := Option.isSome_iff_exists.mp hfound
  rw [tableInv, he, Option.getD_some]
  simpa using List.find?_some he

/-- The property R182 requires of the inverse table. -/
theorem tableInv_tableAt {t : SubstTable} (h : isLatin t = true) (k d : Symbol) :
    tableInv t k (tableAt t k d) = d :=
  tableAt_row_injective h k (tableAt_tableInv h k _)

/-- Under another key symbol the inverse table does not give the data symbol back: its column holds each cipher symbol
once. -/
theorem tableInv_tableAt_ne {t : SubstTable} (h : isLatin t = true) {k k' : Symbol} (hk : k ≠ k') (d : Symbol) :
    tableInv t k' (tableAt t k d) ≠ d := by
  intro hback
  refine hk (tableAt_column_injective h d ?_)
  calc tableAt t k d
    _ = tableAt t k' (tableInv t k' (tableAt t k d)) := (tableAt_tableInv h k' _).symm
    _ = tableAt t k' d := by rw [hback]

/-- The exclusive or with a key symbol is its own inverse (R182). -/
theorem tableInv_xorTable (k c : Symbol) : tableInv Config.xorTable k c = tableAt Config.xorTable k c := by
  revert k c; decide

theorem unsubstitute_substitute {t : SubstTable} (h : isLatin t = true) (seq ks : List Symbol) :
    unsubstitute t (substitute t seq ks) ks = seq := by
  refine List.ext_getElem (by simp) fun i _ _ => ?_
  rw [getElem_unsubstitute, getElem_substitute, tableInv_tableAt h]

theorem substitute_unsubstitute {t : SubstTable} (h : isLatin t = true) (seq ks : List Symbol) :
    substitute t (unsubstitute t seq ks) ks = seq := by
  refine List.ext_getElem (by simp) fun i _ _ => ?_
  rw [getElem_substitute, getElem_unsubstitute, tableAt_tableInv h]

/-- A wrong key symbol shows at its own position (R184). -/
theorem getElem?_unsubstitute_substitute_ne {t : SubstTable} (h : isLatin t = true) (seq ks ks' : List Symbol) {i : Nat}
    (hi : i < seq.length) (hkey : keySymbol ks i ≠ keySymbol ks' i) :
    (unsubstitute t (substitute t seq ks) ks')[i]? ≠ seq[i]? := by
  have hi' : i < (unsubstitute t (substitute t seq ks) ks').length := by simpa using hi
  rw [List.getElem?_eq_getElem hi', List.getElem?_eq_getElem hi, ne_eq, Option.some.injEq, getElem_unsubstitute,
    getElem_substitute]
  exact tableInv_tableAt_ne h hkey _

theorem substitute_xorTable (seq ks : List Symbol) :
    substitute Config.xorTable seq ks = unsubstitute Config.xorTable seq ks := by
  refine List.ext_getElem (by simp) fun i _ _ => ?_
  rw [getElem_substitute, getElem_unsubstitute, tableInv_xorTable]

/-- Settles O50: each law holds at every position, of the one entry of the table that the position's key symbol
selects. -/
theorem substitutionLaws : Obligations.SubstitutionLaws := by
  refine ⟨fun t seq ks ks' hlatin _ _ => ⟨?subst, ?unsubst, ?wrongKey⟩, ?default⟩
  case subst => exact unsubstitute_substitute hlatin seq ks
  case unsubst => exact substitute_unsubstitute hlatin seq ks
  case wrongKey => exact fun _ => getElem?_unsubstitute_substitute_ne hlatin seq ks ks'
  case default => exact fun seq ks _ => substitute_xorTable seq ks

end Sys2Proof.Machine
end

section
/-! Symbols and their characters (spec/44_framer.md R200, R201). -/

namespace Sys2Proof.Machine

/-- The four symbol characters, in the order of the symbols (R200). -/
def symbolChars : List Byte := [0x41, 0x47, 0x43, 0x54]

theorem getElem?_symbolChars (q : Symbol) : symbolChars[q.toNat]? = some (symbolChar q) := by
  revert q; decide

theorem charSymbol_symbolChar (q : Symbol) : charSymbol (symbolChar q) = some q := by
  revert q; decide

theorem exists_symbolChar_eq {c : Byte} (h : c ∈ symbolChars) : ∃ q, symbolChar q = c := by
  simp only [symbolChars, List.mem_cons, List.not_mem_nil, or_false] at h
  rcases h with rfl | rfl | rfl | rfl
  exacts [⟨0, rfl⟩, ⟨1, rfl⟩, ⟨2, rfl⟩, ⟨3, rfl⟩]

theorem charSymbol_eq_none {c : Byte} (h : c ∉ symbolChars) : charSymbol c = none := by
  simp only [symbolChars, List.mem_cons, List.not_mem_nil, or_false, not_or] at h
  obtain ⟨hA, hG, hC, hT⟩ := h
  simp only [charSymbol, if_neg hA, if_neg hG, if_neg hC, if_neg hT]

@[simp] theorem symbolsOfCharsFrom_nil (j : Nat) : symbolsOfCharsFrom j [] = .ok [] := rfl

/-- A byte that is no symbol character ends the reading at its position. -/
theorem symbolsOfCharsFrom_cons_of_none {c : Byte} (h : charSymbol c = none) (j : Nat) (rest : List Byte) :
    symbolsOfCharsFrom j (c :: rest) = .error j := by
  simp only [symbolsOfCharsFrom, h]

/-- A symbol character is read as its symbol, and the reading goes on. -/
theorem symbolsOfCharsFrom_cons_symbolChar (q : Symbol) (j : Nat) (rest : List Byte) :
    symbolsOfCharsFrom j (symbolChar q :: rest) = (symbolsOfCharsFrom (j + 1) rest).map (q :: ·) := by
  simp only [symbolsOfCharsFrom, charSymbol_symbolChar]
  cases symbolsOfCharsFrom (j + 1) rest <;> rfl

/-- The characters of a sequence are read back as that sequence, and the reading goes on behind them. -/
theorem symbolsOfCharsFrom_charsOf_append (seq : List Symbol) (j : Nat) (tail : List Byte) :
    symbolsOfCharsFrom j (charsOf seq ++ tail) = (symbolsOfCharsFrom (j + seq.length) tail).map (seq ++ ·) := by
  induction seq generalizing j with
  | nil => cases h : symbolsOfCharsFrom j tail <;> simp [charsOf, h, Except.map]
  | cons q rest ih =>
    have hnext : j + 1 + rest.length = j + (q :: rest).length := by rw [List.length_cons]; omega
    calc symbolsOfCharsFrom j (charsOf (q :: rest) ++ tail)
      _ = (symbolsOfCharsFrom (j + 1) (charsOf rest ++ tail)).map (q :: ·) := symbolsOfCharsFrom_cons_symbolChar ..
      _ = ((symbolsOfCharsFrom (j + (q :: rest).length) tail).map (rest ++ ·)).map (q :: ·) := by rw [ih, hnext]
      _ = (symbolsOfCharsFrom (j + (q :: rest).length) tail).map (q :: rest ++ ·) := by
        cases symbolsOfCharsFrom (j + (q :: rest).length) tail <;> rfl

/-- Symbols survive the way through their characters (R201). -/
theorem symbolsOfChars_charsOf (seq : List Symbol) : symbolsOfChars (charsOf seq) = .ok seq := by
  simpa [Except.map, symbolsOfChars] using symbolsOfCharsFrom_charsOf_append seq 0 []

theorem exists_charsOf_eq {r : List Byte} (h : ∀ c ∈ r, c ∈ symbolChars) :
    ∃ seq, charsOf seq = r := by
  induction r with
  | nil => exact ⟨[], rfl⟩
  | cons c rest ih =>
    obtain ⟨hc, hrest⟩ := List.forall_mem_cons.mp h
    obtain ⟨q, rfl⟩ := exists_symbolChar_eq hc
    obtain ⟨seq, rfl⟩ := ih hrest
    exact ⟨q :: seq, rfl⟩

/-- Behind symbol characters, a byte that is none is reported at its position. -/
theorem symbolsOfChars_charsOf_append_cons (seq : List Symbol) {c : Byte} (hc : charSymbol c = none)
    (tail : List Byte) : symbolsOfChars (charsOf seq ++ c :: tail) = .error seq.length := by
  rw [symbolsOfChars, symbolsOfCharsFrom_charsOf_append, symbolsOfCharsFrom_cons_of_none hc, Nat.zero_add]; rfl

/-- Settles O52: a byte string is a longest run of symbol characters, which reads back as its symbols, and then nothing
or the byte that is reported. -/
theorem symbolCharacters : Obligations.SymbolCharacters := by
  refine ⟨fun seq => ⟨symbolsOfChars_charsOf seq, ?character⟩, ?readable, ?unreadable⟩
  case character =>
    intro i hi
    rw [charsOf, List.getElem?_map, List.getElem?_eq_getElem hi]
    exact (getElem?_symbolChars seq[i]).symm
  case readable =>
    intro r h
    obtain ⟨seq, rfl⟩ := exists_charsOf_eq h
    exact ⟨seq, symbolsOfChars_charsOf seq, rfl⟩
  case unreadable =>
    intro r j hj hbad hgood
    have hbefore : ∀ c ∈ r.take j, c ∈ symbolChars := by
      intro c hc
      obtain ⟨i, hi, rfl⟩ := List.mem_take_iff_getElem.mp hc
      exact hgood i (Nat.lt_of_lt_of_le hi (Nat.min_le_left ..))
    obtain ⟨seq, hseq⟩ := exists_charsOf_eq hbefore
    have hlength : seq.length = j := by
      rw [← length_charsOf, hseq, List.length_take_of_le (Nat.le_of_lt hj)]
    calc symbolsOfChars r
      _ = symbolsOfChars (charsOf seq ++ r[j] :: r.drop (j + 1)) := by
        rw [hseq, ← List.drop_eq_getElem_cons hj, List.take_append_drop]
      _ = .error seq.length := symbolsOfChars_charsOf_append_cons seq (charSymbol_eq_none hbad) _
      _ = .error j := by rw [hlength]

end Sys2Proof.Machine
end

section
/-! The base64 encoder's output, character by character (spec/44_framer.md R202, R203). -/

namespace Sys2Proof.Machine

/-- The character of a value is the table's entry (R202). -/
theorem getElem?_alphabet (v : BitVec 6) : alphabet[v.toNat]? = some (b64Char v) := by
  revert v; decide

theorem b64Value_b64Char (v : BitVec 6) : b64Value (b64Char v) = some v := by
  revert v; decide

theorem getElem?_b64Quad (x y z : Byte) {q : Nat} (hq : q < 4) :
    (b64Quad x y z)[q]? = some (b64Char ((x ++ y ++ z).extractLsb' (18 - 6 * q) 6)) := by
  match q, hq with
  | 0, _ | 1, _ | 2, _ | 3, _ => rfl

/-- `b64enc` pads to whole quartets (R203). -/
theorem length_b64enc : ∀ b : List Byte, (b64enc b).length = 4 * ((b.length + 2) / 3)
  | [] => rfl
  | [_] | [_, _] => by simp [b64enc]
  | x :: y :: z :: rest => by
    rw [b64enc, List.length_append, length_b64Quad, length_b64enc rest]
    simp only [List.length_cons]; omega

/-- Character `q` of group `j` of the encoding of `b`: the padding where the group has no byte for it, and the
character of the group's six bits otherwise, a missing byte counting as 0 (R203). -/
def groupChar (b : List Byte) (j q : Nat) : Byte :=
  if (q = 2 ∧ b.length < 3 * j + 2) ∨ (q = 3 ∧ b.length < 3 * j + 3) then padChar
  else b64Char ((b[3 * j]?.getD 0 ++ b[3 * j + 1]?.getD 0 ++ b[3 * j + 2]?.getD 0).extractLsb' (18 - 6 * q) 6)

theorem groupChar_cons_succ (x y z : Byte) (rest : List Byte) (j q : Nat) :
    groupChar (x :: y :: z :: rest) (j + 1) q = groupChar rest j q := by
  have hlength : ∀ m, (x :: y :: z :: rest).length < 3 * (j + 1) + m ↔ rest.length < 3 * j + m := by
    intro m; simp only [List.length_cons]; omega
  have hbyte : ∀ m, (x :: y :: z :: rest)[3 * (j + 1) + m]? = rest[3 * j + m]? := by
    intro m; rw [show 3 * (j + 1) + m = 3 * j + m + 3 by omega]; rfl
  simp only [groupChar, hlength, hbyte 1, hbyte 2, show (x :: y :: z :: rest)[3 * (j + 1)]? = rest[3 * j]? from hbyte 0]

theorem getElem?_b64enc : ∀ (b : List Byte) (j : Nat) {q : Nat}, 3 * j < b.length → q < 4 →
    (b64enc b)[4 * j + q]? = some (groupChar b j q)
  | [], j, q, hj, hq => by simp at hj
  | [x], j, q, hj, hq => by
    obtain rfl : j = 0 := by simp only [List.length_cons, List.length_nil] at hj; omega
    match q, hq with
    | 0, _ | 1, _ | 2, _ | 3, _ => rfl
  | [x, y], j, q, hj, hq => by
    obtain rfl : j = 0 := by simp only [List.length_cons, List.length_nil] at hj; omega
    match q, hq with
    | 0, _ | 1, _ | 2, _ | 3, _ => rfl
  | x :: y :: z :: rest, 0, q, hj, hq => by
    rw [b64enc, Nat.mul_zero, Nat.zero_add, List.getElem?_append_left (by simpa using hq), getElem?_b64Quad x y z hq,
      groupChar, if_neg (by simp only [List.length_cons]; omega)]
    rfl
  | x :: y :: z :: rest, j + 1, q, hj, hq => by
    have hrest : 3 * j < rest.length := by simp only [List.length_cons] at hj; omega
    rw [groupChar_cons_succ, ← getElem?_b64enc rest j hrest hq, b64enc,
      List.getElem?_append_right (by rw [length_b64Quad]; omega), length_b64Quad]
    congr 1; omega

/-- Settles O53: the recursion of the encoder takes one group at a time. -/
theorem base64EncoderOutput : Obligations.Base64EncoderOutput := by
  refine fun b => ⟨length_b64enc b, fun j q hj hq => ?_⟩
  rw [getElem?_b64enc b j hj hq, groupChar, getElem?_alphabet, apply_ite some]
  rfl

end Sys2Proof.Machine
end

section
/-! The decoder on the encoder's output and on an illegal byte (spec/44_framer.md R202, R204). -/

namespace Sys2Proof.Machine

theorem b64Value_padChar : b64Value padChar = none := rfl

theorem b64Legal_padChar : b64Legal padChar = true := rfl

theorem b64Legal_colonChar : b64Legal colonChar = false := rfl

theorem b64Legal_of_isSome {c : Byte} (h : (b64Value c).isSome) : b64Legal c = true := by
  rw [b64Legal, h]; rfl

/-- A character of the alphabet is not the pad character. -/
theorem beq_padChar_of_isSome {c : Byte} (h : (b64Value c).isSome) : (c == padChar) = false := by
  refine beq_eq_false_iff_ne.mpr ?_
  rintro rfl
  simp [b64Value_padChar] at h

/-! ### One quartet -/

/-- A group's 24 bits, cut into four sixes and joined again. -/
theorem sixes_append (v : BitVec 24) :
    v.extractLsb' 18 6 ++ v.extractLsb' 12 6 ++ v.extractLsb' 6 6 ++ v.extractLsb' 0 6 = v := by
  rw [BitVec.extractLsb'_append_extractLsb'_eq_extractLsb' (by decide : 18 = 12 + 6),
    BitVec.extractLsb'_append_extractLsb'_eq_extractLsb' (by decide : 12 = 6 + 6),
    BitVec.extractLsb'_append_extractLsb'_eq_extractLsb' (by decide : 6 = 0 + 6), BitVec.extractLsb'_eq_self]

/-- The bytes of a group are its 24 bits, cut into three eights. -/
theorem extractLsb'_bytes (x y z : Byte) : (x ++ y ++ z).extractLsb' 16 8 = x ∧ (x ++ y ++ z).extractLsb' 8 8 = y
    ∧ (x ++ y ++ z).extractLsb' 0 8 = z := by
  refine ⟨?first, ?second, BitVec.extractLsb'_append_eq_right⟩
  case first => rw [BitVec.extractLsb'_append_eq_of_le (by decide)]; exact BitVec.extractLsb'_append_eq_left
  case second => rw [BitVec.extractLsb'_append_eq_of_le (by decide)]; exact BitVec.extractLsb'_append_eq_right

/-- The last six of a group whose third byte is missing. -/
theorem extractLsb'_append_zero {w : Nat} (v : BitVec w) : (v ++ (0 : Byte)).extractLsb' 0 6 = 0 :=
  BitVec.extractLsb'_append_eq_of_add_le (by decide)

/-- Decoding one quartet whose four values are the sixes of three bytes gives the three bytes (R204, check 4). -/
theorem b64Quartets_cons {a b c d x y z : Byte} (rest : List Byte)
    (ha : b64ValueOrZero a = (x ++ y ++ z).extractLsb' 18 6) (hb : b64ValueOrZero b = (x ++ y ++ z).extractLsb' 12 6)
    (hc : b64ValueOrZero c = (x ++ y ++ z).extractLsb' 6 6) (hd : b64ValueOrZero d = (x ++ y ++ z).extractLsb' 0 6) :
    b64Quartets (a :: b :: c :: d :: rest) = x :: y :: z :: b64Quartets rest := by
  obtain ⟨hx, hy, hz⟩ := extractLsb'_bytes x y z
  rw [b64Quartets, ha, hb, hc, hd, sixes_append, hx, hy, hz]

theorem b64ValueOrZero_b64Char (v : BitVec 6) : b64ValueOrZero (b64Char v) = v := by
  rw [b64ValueOrZero, b64Value_b64Char, Option.getD_some]

/-! ### The encoder's output -/

/-- The number of pad characters the encoder writes behind `n` bytes (R203). -/
def padLength (n : Nat) : Nat := (3 - n % 3) % 3

theorem padLength_add_three (n : Nat) : padLength (n + 3) = padLength n := by
  rw [padLength, padLength, Nat.add_mod_right]

/-- The padding stands where the sixes of the missing bytes, which are 0, would stand. -/
theorem b64Quartets_b64enc : ∀ b : List Byte, b64Quartets (b64enc b) = b ++ List.replicate (padLength b.length) 0
  | [] => rfl
  | [x] => by
    refine b64Quartets_cons (x := x) (y := 0) (z := 0) [] (b64ValueOrZero_b64Char _) (b64ValueOrZero_b64Char _) ?_ ?_
    all_goals revert x; decide
  | [x, y] => by
    refine b64Quartets_cons (x := x) (y := y) (z := 0) [] (b64ValueOrZero_b64Char _) (b64ValueOrZero_b64Char _)
      (b64ValueOrZero_b64Char _) ?_
    exact (extractLsb'_append_zero (x ++ y)).symm
  | x :: y :: z :: rest => by
    have hpad : padLength (x :: y :: z :: rest).length = padLength rest.length := padLength_add_three _
    calc b64Quartets (b64enc (x :: y :: z :: rest))
      _ = x :: y :: z :: b64Quartets (b64enc rest) :=
        b64Quartets_cons _ (b64ValueOrZero_b64Char _) (b64ValueOrZero_b64Char _) (b64ValueOrZero_b64Char _)
          (b64ValueOrZero_b64Char _)
      _ = _ := by rw [b64Quartets_b64enc rest, hpad]; rfl

/-- The encoder writes characters of the alphabet, and pad characters only behind them. -/
theorem b64enc_eq_append_pad : ∀ b : List Byte, ∃ body, (∀ c ∈ body, (b64Value c).isSome)
    ∧ b64enc b = body ++ List.replicate (padLength b.length) padChar
  | [] => ⟨[], by simp, rfl⟩
  | [x] => ⟨(b64Quad x 0 0).take 2, by simp [b64Quad, b64Value_b64Char], rfl⟩
  | [x, y] => ⟨(b64Quad x y 0).take 3, by simp [b64Quad, b64Value_b64Char], rfl⟩
  | x :: y :: z :: rest => by
    obtain ⟨body, hbody, heq⟩ := b64enc_eq_append_pad rest
    have hpad : padLength (x :: y :: z :: rest).length = padLength rest.length := padLength_add_three _
    refine ⟨b64Quad x y z ++ body, List.forall_mem_append.mpr ⟨by simp [b64Quad, b64Value_b64Char], hbody⟩, ?_⟩
    rw [b64enc, heq, hpad, List.append_assoc]

theorem b64Legal_of_mem_b64enc {b : List Byte} {c : Byte} (h : c ∈ b64enc b) : b64Legal c = true := by
  obtain ⟨body, hbody, heq⟩ := b64enc_eq_append_pad b
  rw [heq] at h
  rcases List.mem_append.mp h with hmem | hmem
  · exact b64Legal_of_isSome (hbody c hmem)
  · rw [List.eq_of_mem_replicate hmem]; exact b64Legal_padChar

theorem colonChar_notMem_of_b64Legal {p : List Byte} (h : ∀ c ∈ p, b64Legal c = true) : colonChar ∉ p := fun hmem => by
  simpa [b64Legal_colonChar] using h _ hmem

/-- The separator is no base64 character (R202). -/
theorem colonChar_notMem_b64enc (b : List Byte) : colonChar ∉ b64enc b :=
  colonChar_notMem_of_b64Legal fun _ => b64Legal_of_mem_b64enc

/-! ### The decoder -/

/-- Check 1: the least byte outside the alphabet and the padding. -/
theorem b64dec_append_cons_of_not_legal {p : List Byte} {c : Byte} (hp : ∀ a ∈ p, b64Legal a = true)
    (hc : b64Legal c = false) (tail : List Byte) : b64dec (p ++ c :: tail) = .error p.length := by
  have hfind : (p ++ c :: tail).findIdx? (fun a => !b64Legal a) = some p.length := by
    have hnone : p.findIdx? (fun a => !b64Legal a) = none :=
      List.findIdx?_eq_none_iff.mpr fun a ha => by rw [hp a ha]; rfl
    simp [List.findIdx?_append, List.findIdx?_cons, hnone, hc]
  rw [b64dec, hfind]

theorem padCount_append_replicate {body : List Byte} (hbody : ∀ c ∈ body, (b64Value c).isSome) (n : Nat) :
    padCount (body ++ List.replicate n padChar) = n := by
  have hnone : body.reverse.takeWhile (· == padChar) = [] := by
    cases h : body.reverse with
    | nil => rfl
    | cons c rest =>
      have hmem : c ∈ body := List.mem_reverse.mp (h ▸ List.mem_cons_self)
      rw [List.takeWhile_cons_of_neg (by simp [beq_padChar_of_isSome (hbody c hmem)])]
  rw [padCount, List.reverse_append, List.reverse_replicate, List.takeWhile_append_of_pos (by simp), hnone]
  simp

/-- What passes the checks of R204: whole quartets of alphabet characters, with at most two pad characters behind. -/
theorem b64dec_append_pad {body : List Byte} {n : Nat} (hbody : ∀ c ∈ body, (b64Value c).isSome) (hn : n ≤ 2)
    (hlength : (body ++ List.replicate n padChar).length % 4 = 0) :
    b64dec (body ++ List.replicate n padChar) =
      .ok ((b64Quartets (body ++ List.replicate n padChar)).take
        ((b64Quartets (body ++ List.replicate n padChar)).length - n)) := by
  have hlegal : (body ++ List.replicate n padChar).findIdx? (fun c => !b64Legal c) = none := by
    refine List.findIdx?_eq_none_iff.mpr (List.forall_mem_append.mpr ⟨fun c hc => ?_, fun c hc => ?_⟩)
    · rw [b64Legal_of_isSome (hbody c hc)]; rfl
    · rw [List.eq_of_mem_replicate hc]; rfl
  have hfront : ((body ++ List.replicate n padChar).take ((body ++ List.replicate n padChar).length - n)).any
      (· == padChar) = false := by
    rw [List.length_append, List.length_replicate, Nat.add_sub_cancel, List.take_left]
    exact List.any_eq_false.mpr fun c hc => by simp [beq_padChar_of_isSome (hbody c hc)]
  simp only [b64dec, hlegal, hlength, padCount_append_replicate hbody, hfront]
  simp [Nat.not_lt.mpr hn]

/-- The decoder undoes the encoder (R204). -/
theorem b64dec_b64enc (b : List Byte) : b64dec (b64enc b) = .ok b := by
  obtain ⟨body, hbody, heq⟩ := b64enc_eq_append_pad b
  have hpad : padLength b.length ≤ 2 := by unfold padLength; omega
  have hlength : (b64enc b).length % 4 = 0 := by rw [length_b64enc]; omega
  rw [heq] at hlength
  rw [heq, b64dec_append_pad hbody hpad hlength, ← heq, b64Quartets_b64enc]
  simp

end Sys2Proof.Machine
end

section
/-! The metadata (spec/44_framer.md R205, R207). -/

namespace Sys2Proof.Machine

/-- The media-type byte test in the words of R205. -/
theorem mediaByteOk_iff (c : Byte) :
    mediaByteOk c = true ↔ 0x20 ≤ c.toNat ∧ c.toNat ≤ 0x7E ∧ c ≠ 0x22 ∧ c ≠ 0x5C := by
  simp only [mediaByteOk, Bool.and_eq_true, decide_eq_true_iff, bne_iff_ne, and_assoc]

@[simp] theorem length_metaPrefix : metaPrefix.length = 9 := rfl

@[simp] theorem length_metaSuffix : metaSuffix.length = 2 := rfl

theorem length_metaBytes (mt : List Byte) : (metaBytes mt).length = 11 + mt.length := by
  simp [metaBytes]; omega

/-- What `recognizeMeta` cuts out of a decoded left segment (R207). -/
def metaBody (r : List Byte) : List Byte := (r.drop 9).take (r.length - 11)

/-- The three pieces `recognizeMeta` compares make up the whole segment. -/
theorem eq_metaBytes_iff (r mt : List Byte) : r = metaBytes mt ↔
    11 ≤ r.length ∧ r.take 9 = metaPrefix ∧ r.drop (r.length - 2) = metaSuffix ∧ metaBody r = mt := by
  constructor
  case mp =>
    rintro rfl
    have hbody : (metaBytes mt).length - 11 = mt.length := by rw [length_metaBytes]; omega
    have hend : (metaBytes mt).length - 2 = (metaPrefix ++ mt).length := by simp [length_metaBytes]; omega
    refine ⟨by rw [length_metaBytes]; omega, rfl, ?_, ?_⟩
    · rw [hend, metaBytes, List.drop_left]
    · rw [metaBody, hbody, metaBytes, List.append_assoc, ← length_metaPrefix, List.drop_left, List.take_left]
  case mpr =>
    rintro ⟨hlength, hprefix, hsuffix, hbody⟩
    have hend : r.drop (r.length - 2) = (r.drop 9).drop (r.length - 11) := by
      rw [List.drop_drop]; congr 1; omega
    calc r
      _ = r.take 9 ++ ((r.drop 9).take (r.length - 11) ++ (r.drop 9).drop (r.length - 11)) := by
        rw [List.take_append_drop, List.take_append_drop]
      _ = metaPrefix ++ (mt ++ metaSuffix) := by rw [hprefix, ← hend, hsuffix, ← hbody, metaBody]
      _ = metaBytes mt := (List.append_assoc ..).symm

theorem recognizeMeta_of_error {l : List Byte} {e : Nat} (h : b64dec l = .error e) : recognizeMeta l = none := by
  rw [recognizeMeta, h]

theorem recognizeMeta_of_ok {l r : List Byte} (h : b64dec l = .ok r) : recognizeMeta l =
    if r.length ≥ 11 ∧ r.take 9 = metaPrefix ∧ r.drop (r.length - 2) = metaSuffix ∧ (metaBody r).all mediaByteOk
    then some (metaBody r) else none := by
  rw [recognizeMeta, h]; rfl

/-- A left segment is recognised exactly when it is an encoding of the metadata of valid media-type bytes (R207). -/
theorem recognizeMeta_eq_some_iff (l mt : List Byte) : recognizeMeta l = some mt ↔
    b64dec l = .ok (metaBytes mt) ∧ ∀ c ∈ mt, mediaByteOk c = true := by
  cases h : b64dec l with
  | error e => simp [recognizeMeta_of_error h]
  | ok r =>
    rw [recognizeMeta_of_ok h, Option.ite_none_right_eq_some, Except.ok.injEq, eq_metaBytes_iff, Option.some.injEq,
      List.all_eq_true]
    constructor
    · rintro ⟨⟨hlength, hprefix, hsuffix, hvalid⟩, rfl⟩
      exact ⟨⟨hlength, hprefix, hsuffix, rfl⟩, hvalid⟩
    · rintro ⟨⟨hlength, hprefix, hsuffix, rfl⟩, hvalid⟩
      exact ⟨⟨hlength, hprefix, hsuffix, hvalid⟩, rfl⟩

/-- The encoder's own metadata are recognised. -/
theorem recognizeMeta_b64enc_metaBytes {mt : List Byte} (h : ∀ c ∈ mt, mediaByteOk c = true) :
    recognizeMeta (b64enc (metaBytes mt)) = some mt :=
  (recognizeMeta_eq_some_iff _ _).mpr ⟨b64dec_b64enc _, h⟩

/-- Settles O56: the comparisons of `recognizeMeta` cut the decoded segment into three pieces, the media type in the
middle. -/
theorem metadataIsRecognizedExactly : Obligations.MetadataIsRecognizedExactly := by
  intro l mt
  simp only [← mediaByteOk_iff]
  exact recognizeMeta_eq_some_iff l mt

end Sys2Proof.Machine
end

section
/-! The containers (spec/44_framer.md R208 to R210). -/

namespace Sys2Proof.Machine

/-! ### The payload -/

theorem parsePayload_of_error {r : List Byte} {e : Nat} (h : b64dec r = .error e) (base : Nat) (mt : List Byte) :
    parsePayload r base mt = .error ⟨.containerDecode, BitVec.ofNat 32 (base + e)⟩ := by
  rw [parsePayload, h]

theorem parsePayload_of_symbol_error {r bytes : List Byte} {j : Nat} (h : b64dec r = .ok bytes)
    (hsym : symbolsOfChars bytes = .error j) (base : Nat) (mt : List Byte) :
    parsePayload r base mt = .error ⟨.symbolDecode, BitVec.ofNat 32 j⟩ := by
  simp only [parsePayload, h, hsym]

theorem parsePayload_of_ok {r bytes : List Byte} {seq : List Symbol} (h : b64dec r = .ok bytes)
    (hsym : symbolsOfChars bytes = .ok seq) (base : Nat) (mt : List Byte) :
    parsePayload r base mt = .ok ⟨seq, mt⟩ := by
  simp only [parsePayload, h, hsym]

theorem parsePayload_b64enc_charsOf (seq : List Symbol) (base : Nat) (mt : List Byte) :
    parsePayload (b64enc (charsOf seq)) base mt = .ok ⟨seq, mt⟩ :=
  parsePayload_of_ok (b64dec_b64enc _) (symbolsOfChars_charsOf seq) base mt

/-- The media type is carried along and has no part in an error (R210). -/
theorem parsePayload_eq_error_iff (r : List Byte) (base : Nat) (mt mt' : List Byte) (e : CmdError) :
    parsePayload r base mt = .error e ↔ parsePayload r base mt' = .error e := by
  cases h : b64dec r with
  | error p => rw [parsePayload_of_error h, parsePayload_of_error h]
  | ok bytes =>
    cases hsym : symbolsOfChars bytes with
    | error j => rw [parsePayload_of_symbol_error h hsym, parsePayload_of_symbol_error h hsym]
    | ok seq => simp [parsePayload_of_ok h hsym]

/-! ### The split at the first ":" -/

/-- The media type of a container with the left segment `left`: the recognised one, or the kind's default (R209). -/
def recognizedOrDefault (left : List Byte) (k : PayloadKind) : List Byte :=
  (recognizeMeta left).getD (defaultMediaType k)

theorem findIdx?_colonChar_eq_none {c : List Byte} (h : colonChar ∉ c) : c.findIdx? (· == colonChar) = none :=
  List.findIdx?_eq_none_iff.mpr fun _ hmem => beq_eq_false_iff_ne.mpr fun heq => h (heq ▸ hmem)

theorem parseContainer_untagged {c : List Byte} (h : colonChar ∉ c) (k : PayloadKind) :
    parseContainer c k = parsePayload c 0 (defaultMediaType k) := by
  rw [parseContainer, findIdx?_colonChar_eq_none h]

theorem parseContainer_tagged {left : List Byte} (h : colonChar ∉ left) (r : List Byte) (k : PayloadKind) :
    parseContainer (left ++ [colonChar] ++ r) k = parsePayload r (left.length + 1) (recognizedOrDefault left k) := by
  have hsome : (left ++ [colonChar] ++ r).findIdx? (· == colonChar) = some left.length := by
    simp [List.findIdx?_append, List.findIdx?_cons, findIdx?_colonChar_eq_none h]
  have hright : (left ++ [colonChar] ++ r).drop (left.length + 1) = r := by simp
  have hleft : (left ++ [colonChar] ++ r).take left.length = left := by simp
  simp only [parseContainer, hsome, hright, hleft, recognizedOrDefault]

/-- Every container has a payload segment: what follows the first ":", or all of it. -/
theorem exists_payloadSegment (c : List Byte) : ∃ r base, PayloadSegment c r base := by
  by_cases h : colonChar ∈ c
  · obtain ⟨left, r, rfl, hleft⟩ := List.eq_append_cons_of_mem h
    exact ⟨r, left.length + 1, .inl ⟨left, hleft, by simp [colonChar], rfl⟩⟩
  · exact ⟨c, 0, .inr ⟨h, rfl, rfl⟩⟩

/-- Parsing a container is parsing its payload segment, with some media type. -/
theorem PayloadSegment.parseContainer_eq {c r : List Byte} {base : Nat} (h : PayloadSegment c r base)
    (k : PayloadKind) : ∃ mt, parseContainer c k = parsePayload r base mt := by
  rcases h with ⟨left, hleft, rfl, rfl⟩ | ⟨hnone, rfl, rfl⟩
  · exact ⟨_, parseContainer_tagged hleft r k⟩
  · exact ⟨_, parseContainer_untagged hnone k⟩

theorem PayloadSegment.eq_of_notMem {c r : List Byte} {base : Nat} (h : PayloadSegment c r base)
    (hc : (0x3A : Byte) ∉ c) : r = c := by
  rcases h with ⟨left, _, rfl, _⟩ | ⟨_, rfl, _⟩
  · simp at hc
  · rfl

/-! ### The laws -/

/-- A second ":" belongs to the payload, where it is the first illegal character (R209). -/
theorem parseContainer_second_colon {left r : List Byte} (hleft : colonChar ∉ left)
    (hr : ∀ c ∈ r, b64Legal c = true) (r' : List Byte) (k : PayloadKind) :
    parseContainer (left ++ [colonChar] ++ (r ++ [colonChar] ++ r')) k
      = .error ⟨.containerDecode, BitVec.ofNat 32 (left.length + 1 + r.length)⟩ := by
  have hdec : b64dec (r ++ [colonChar] ++ r') = .error r.length := by
    rw [List.append_assoc]; exact b64dec_append_cons_of_not_legal hr b64Legal_colonChar r'
  rw [parseContainer_tagged hleft, parsePayload_of_error hdec]

theorem parseContainer_encodeContainer_tagged (seq : List Symbol) {mt : List Byte}
    (h : ∀ c ∈ mt, mediaByteOk c = true) (k : PayloadKind) :
    parseContainer (encodeContainer seq mt false) k = .ok ⟨seq, if mt = [] then defaultMediaType .text else mt⟩ := by
  have hwritten : mediaTypeOr mt = if mt = [] then defaultMediaType .text else mt := by
    cases mt <;> rfl
  have hvalid : ∀ c ∈ mediaTypeOr mt, mediaByteOk c = true := by
    rw [hwritten]
    split
    · decide
    · exact h
  calc parseContainer (encodeContainer seq mt false) k
    _ = parsePayload (b64enc (charsOf seq)) _ (recognizedOrDefault (b64enc (metaBytes (mediaTypeOr mt))) k) :=
      parseContainer_tagged (colonChar_notMem_b64enc _) _ k
    _ = .ok ⟨seq, mediaTypeOr mt⟩ := by
      rw [parsePayload_b64enc_charsOf, recognizedOrDefault, recognizeMeta_b64enc_metaBytes hvalid, Option.getD_some]
    _ = .ok ⟨seq, if mt = [] then defaultMediaType .text else mt⟩ := by rw [hwritten]

theorem parseContainer_encodeContainer_untagged (seq : List Symbol) (mt : List Byte) (k : PayloadKind) :
    parseContainer (encodeContainer seq mt true) k = .ok ⟨seq, defaultMediaType k⟩ :=
  (parseContainer_untagged (colonChar_notMem_b64enc _) k).trans (parsePayload_b64enc_charsOf seq 0 _)

/-- Left segments of one length are exchanged without a difference to the errors (R210). -/
theorem parseContainer_eq_error_iff {left left' : List Byte} (h : colonChar ∉ left) (h' : colonChar ∉ left')
    (hlength : left.length = left'.length) (right : List Byte) (k : PayloadKind) (e : CmdError) :
    parseContainer (left ++ [colonChar] ++ right) k = .error e ↔
      parseContainer (left' ++ [colonChar] ++ right) k = .error e := by
  rw [parseContainer_tagged h, parseContainer_tagged h', hlength]
  exact parsePayload_eq_error_iff ..

/-- Settles O57: parsing splits off the left segment, which only chooses the media type, and parses the payload. -/
theorem containerRoundTrip : Obligations.ContainerRoundTrip := by
  refine ⟨rfl, rfl, rfl, rfl, exists_payloadSegment, ?parser, ?secondColon, ?empty, ?emptyPayload, ?laws⟩
  case parser =>
    intro c r base k hseg
    obtain ⟨mt, hparse⟩ := hseg.parseContainer_eq k
    refine ⟨fun e he => ?_, fun bytes hb => ⟨fun j hj => ?_, fun seq hs => ⟨fun hnone => ?_, ?_⟩⟩⟩
    · rw [hparse, parsePayload_of_error he]
    · rw [hparse, parsePayload_of_symbol_error hb hj]
    · obtain rfl := hseg.eq_of_notMem hnone
      exact (parseContainer_untagged hnone k).trans (parsePayload_of_ok hb hs 0 _)
    · rintro left hleft rfl
      have htagged : parseContainer (left ++ [0x3A] ++ r) k = .ok ⟨seq, recognizedOrDefault left k⟩ :=
        (parseContainer_tagged hleft r k).trans (parsePayload_of_ok hb hs _ _)
      exact ⟨fun mt' hmeta => by rw [htagged, recognizedOrDefault, hmeta]; rfl,
        fun hmeta => by rw [htagged, recognizedOrDefault, hmeta]; rfl⟩
  case secondColon => exact fun _ _ r' k hleft hr => parseContainer_second_colon hleft hr r' k
  case empty => exact parseContainer_encodeContainer_untagged [] []
  case emptyPayload =>
    intro left k hleft
    refine ⟨recognizedOrDefault left k, ?_⟩
    rw [← List.append_nil (left ++ [0x3A])]
    exact (parseContainer_tagged hleft [] k).trans (parsePayload_b64enc_charsOf [] _ _)
  case laws =>
    exact fun seq mt k hmt => ⟨parseContainer_encodeContainer_tagged seq hmt k,
      parseContainer_encodeContainer_untagged seq mt k,
      fun _ _ right h h' hlength e => parseContainer_eq_error_iff h h' hlength right k e⟩

end Sys2Proof.Machine
end

section
/-! The round trip of the pipeline (spec/45_pipeline.md R244). -/

namespace Sys2Proof.Machine

/-! ### What a completed command leaves in the buffers -/

/-- The registers hold what the update gives them, or what they held (R106). -/
@[simp] theorem State.succeed_doutLen (s : State) (u : Update) :
    (s.succeed u).regs.doutLen = u.doutLen.getD s.regs.doutLen := rfl

@[simp] theorem State.succeed_mtLen (s : State) (u : Update) :
    (s.succeed u).regs.mtLen = u.mtLen.getD s.regs.mtLen := rfl

/-- DIN holds `bs` when its length register and its bytes say so (R50). -/
theorem State.din_eq {s : State} {bs : List Byte} (hlength : s.regs.dinLen.toNat = bs.length)
    (hbyte : ∀ i (h : i < bs.length), s.mem.byte (dinWin + i) = bs[i]) : s.din = bs :=
  List.ext_getElem (by rw [State.length_din, hlength]) fun i hi hbs => by rw [State.getElem_din _ _ hi, hbyte i hbs]

/-- A command that writes a media type with its length leaves it to be read (R53). -/
theorem State.mt_succeed (s : State) {u : Update} (hlen : u.mtLen = some (BitVec.ofNat 32 u.mt.length))
    (hshort : u.mt.length ≤ 4096) : (s.succeed u).mt = u.mt := by
  have hlength : (s.succeed u).regs.mtLen.toNat = u.mt.length := by
    rw [State.succeed_mtLen, hlen, Option.getD_some, BitVec.toNat_ofNat, Nat.mod_eq_of_lt (by omega)]
  exact List.ext_getElem (by rw [State.length_mt, hlength]) fun i hi h =>
    (State.getElem_mt _ i hi).trans (Memory.mt_applyUpdate s.mem u i h)

theorem State.mt_eq_nil_iff (s : State) : s.mt = [] ↔ s.regs.mtLen = 0 := by
  rw [← List.length_eq_zero_iff, State.length_mt, ← BitVec.toNat_inj]; rfl

/-! ### The container of an encryption -/

/-- The symbols of the payload in DIN under the key stream of the passphrase in KEY (R240, steps 2 to 4). -/
def State.cipherSymbols (s : State) : List Symbol :=
  substitute s.params.table (symbolsOfBytes s.din) (deriveKeyStream s.key (4 * s.regs.dinLen.toNat)).ks

/-- The container ENCRYPT puts in DOUT (R240, step 5). -/
def State.cipherContainer (s : State) (untag : Bool) : List Byte := encodeContainer s.cipherSymbols s.mt untag

@[simp] theorem State.length_cipherSymbols (s : State) : s.cipherSymbols.length = 4 * s.regs.dinLen.toNat := by
  simp [State.cipherSymbols]

/-- Decryption recovers the payload from the cipher symbols under the same key stream (R146, R184). -/
theorem State.bytesOfSymbols_unsubstitute_cipherSymbols {s : State} (h : isLatin s.params.table = true) :
    bytesOfSymbols (unsubstitute s.params.table s.cipherSymbols
      (deriveKeyStream s.key s.cipherSymbols.length).ks) = s.din := by
  rw [State.length_cipherSymbols, State.cipherSymbols, unsubstitute_substitute h, bytesOfSymbols_symbolsOfBytes]

theorem length_mediaTypeOr (mt : List Byte) :
    (mediaTypeOr mt).length = if mt.length = 0 then 10 else mt.length := by
  cases mt <;> rfl

/-- The length of a container depends on the number of its symbols and the length of its media type (R208). -/
theorem State.length_encodeContainer (s : State) (seq : List Symbol) (untag : Bool) :
    (encodeContainer seq s.mt untag).length = s.containerLength seq.length untag := by
  cases untag with
  | true => rw [encodeContainer, if_pos rfl, length_b64enc, length_charsOf]; rfl
  | false =>
    rw [encodeContainer, if_neg Bool.false_ne_true, List.length_append, List.length_append, length_b64enc,
      length_b64enc, length_charsOf, length_metaBytes, length_mediaTypeOr, State.length_mt]
    rfl

theorem State.length_cipherContainer (s : State) (untag : Bool) :
    (s.cipherContainer untag).length = s.containerLength (4 * s.regs.dinLen.toNat) untag := by
  rw [State.cipherContainer, State.length_encodeContainer, State.length_cipherSymbols]

/-- Base64 lengthens: a container is no shorter than what it holds. -/
theorem State.le_containerLength (s : State) (n : Nat) (untag : Bool) : n ≤ s.containerLength n untag := by
  have hpayload : n ≤ b64Length n := by unfold b64Length; omega
  unfold State.containerLength
  split
  · exact hpayload
  · exact hpayload.trans (Nat.le_add_left ..)

/-- The media type that decryption gives back for the one in MT: the written one, or the default the format calls for
(R244). -/
def State.returnedMediaType (s : State) (untag : Bool) (k : PayloadKind) : List Byte :=
  if untag then defaultMediaType k else if s.regs.mtLen = 0 then defaultMediaType .text else s.mt

theorem length_defaultMediaType_le (k : PayloadKind) : (defaultMediaType k).length ≤ 24 := by
  cases k <;> decide

/-- The MT of a legal block has room for either default and for what the tagged form has checked (R7). -/
theorem State.length_returnedMediaType_le {s : State} {untag : Bool} (hp : 24 ≤ s.params.pMt)
    (hmt : untag = true ∨ s.regs.mtLen.toNat ≤ s.params.pMt) (k : PayloadKind) :
    (s.returnedMediaType untag k).length ≤ s.params.pMt := by
  unfold State.returnedMediaType
  split_ifs with huntag hempty
  · exact (length_defaultMediaType_le k).trans hp
  · exact (length_defaultMediaType_le .text).trans hp
  · rw [State.length_mt]; exact hmt.resolve_left huntag

/-- Parsing undoes framing in the three cases of R244. -/
theorem State.parseContainer_cipherContainer {s : State} {untag : Bool}
    (hmt : untag = true ∨ ∀ c ∈ s.mt, mediaByteOk c = true) (k : PayloadKind) :
    parseContainer (s.cipherContainer untag) k = .ok ⟨s.cipherSymbols, s.returnedMediaType untag k⟩ := by
  cases untag with
  | true => exact parseContainer_encodeContainer_untagged _ _ k
  | false =>
    rw [State.cipherContainer, parseContainer_encodeContainer_tagged _ (hmt.resolve_left Bool.false_ne_true)]
    simp only [State.returnedMediaType, State.mt_eq_nil_iff, Bool.false_eq_true, if_false]

/-! ### The two commands -/

/-- The passphrase has a length both commands accept (R240, R241). -/
def State.KeyAccepted (s : State) : Prop := 8 ≤ s.regs.keyLen.toNat ∧ s.regs.keyLen.toNat ≤ s.params.pKey

theorem State.KeyAccepted.ne_zero {s : State} (h : s.KeyAccepted) : s.regs.keyLen ≠ 0 := by
  intro hzero
  obtain ⟨hmin, _⟩ := h
  simp [hzero] at hmin

/-- What R244 asks of the encrypting block: a legal one whose payload, passphrase and media type pass the checks of
ENCRYPT, and whose container fits DOUT and DIN. -/
structure State.RoundTripReady (s : State) (untag : Bool) : Prop where
  legal : paramsLegal s.params = true
  payload : s.regs.dinLen.toNat ≤ s.params.pDin
  key : s.KeyAccepted
  media : untag = true ∨ (s.regs.mtLen.toNat ≤ s.params.pMt ∧ ∀ c ∈ s.mt, mediaByteOk c = true)
  symbols : 4 * s.regs.dinLen.toNat ≤ s.params.pSym
  fitsDout : (s.cipherContainer untag).length ≤ s.params.pDout
  fitsDin : (s.cipherContainer untag).length ≤ s.params.pDin

/-- What R244 asks of the decrypting block `s'`: the parameters and the passphrase of `s`, and in DIN its container. -/
structure State.Received (s s' : State) (untag : Bool) : Prop where
  params : s'.params = s.params
  key : s'.key = s.key
  keyLen : s'.regs.keyLen = s.regs.keyLen
  din : s'.din = s.cipherContainer untag

/-- ENCRYPT, once its checks pass, puts the container in DOUT (R240). -/
theorem State.RoundTripReady.evalEncrypt_dout {s : State} {untag : Bool} (h : s.RoundTripReady untag)
    (k : PayloadKind) : ∃ u, evalInstr (.encrypt (.supported k) untag) s = .ok u ∧ u.dout = s.cipherContainer untag
      ∧ u.doutLen = some (BitVec.ofNat 32 (s.cipherContainer untag).length) :=
  ⟨_, (evalEncrypt_ok _ untag s _).mpr ⟨k, rfl, h.payload, h.key.2, h.media.imp_right And.left, h.key.ne_zero,
    h.key.1, h.media.imp_right And.right, h.symbols, _, _, _, rfl, rfl, rfl, h.fitsDout, rfl⟩, rfl, rfl⟩

/-- DECRYPT, once its checks pass, puts the bytes in DOUT and the media type in MT (R241). -/
theorem evalDecrypt_dout {s : State} {k : PayloadKind} {p : Parsed} (hdin : s.regs.dinLen.toNat ≤ s.params.pDin)
    (hkey : s.KeyAccepted) (hparse : parseContainer s.din k = .ok p) (hsym : p.seq.length ≤ s.params.pSym)
    (hmt : p.mt.length ≤ s.params.pMt) (hdout : p.seq.length / 4 ≤ s.params.pDout) :
    ∃ u, evalInstr (.decrypt (.supported k)) s = .ok u
      ∧ u.dout = bytesOfSymbols (unsubstitute s.params.table p.seq (deriveKeyStream s.key p.seq.length).ks)
      ∧ u.doutLen = some (BitVec.ofNat 32 (p.seq.length / 4))
      ∧ u.mt = p.mt ∧ u.mtLen = some (BitVec.ofNat 32 p.mt.length) :=
  ⟨_, (evalDecrypt_ok _ s _).mpr ⟨k, p, rfl, hdin, hkey.2, hkey.ne_zero, hkey.1, hparse, hsym, hmt, hdout, _, _, rfl,
    rfl, rfl⟩, rfl, rfl, rfl, rfl⟩

/-- DECRYPT of the received container gives back the payload and the media type (R244): parsing, substituting back and
unpacking undo the three steps of ENCRYPT. -/
theorem State.RoundTripReady.evalDecrypt_received {s s' : State} {untag : Bool} (h : s.RoundTripReady untag)
    (hr : s.Received s' untag) (k : PayloadKind) :
    ∃ u, evalInstr (.decrypt (.supported k)) s' = .ok u ∧ u.dout = s.din ∧ u.doutLen = some s.regs.dinLen
      ∧ u.mt = s.returnedMediaType untag k ∧ u.mtLen = some (BitVec.ofNat 32 u.mt.length) := by
  obtain ⟨_, _, _, _, _, _, _, _, _, hpMt, _, _, _, _, _, _, hlatin⟩ := (paramsLegal_iff _).mp h.legal
  have hparse : parseContainer s'.din k = .ok ⟨s.cipherSymbols, s.returnedMediaType untag k⟩ := by
    rw [hr.din]; exact State.parseContainer_cipherContainer (h.media.imp_right And.right) k
  have hcount : s.cipherSymbols.length / 4 = s.regs.dinLen.toNat := by rw [State.length_cipherSymbols]; omega
  have hroom : s.regs.dinLen.toNat ≤ s.params.pDout := by
    have hfits := h.fitsDout
    rw [State.length_cipherContainer] at hfits
    have hlonger := s.le_containerLength (4 * s.regs.dinLen.toNat) untag
    omega
  obtain ⟨u, heval, hdout, hdoutLen, hmt, hmtLen⟩ := evalDecrypt_dout (s := s') (k := k)
    (by rw [← State.length_din, hr.din, hr.params]; exact h.fitsDin)
    (by rw [State.KeyAccepted, hr.keyLen, hr.params]; exact h.key) hparse
    (by rw [State.length_cipherSymbols, hr.params]; exact h.symbols)
    (by rw [hr.params]; exact State.length_returnedMediaType_le hpMt (h.media.imp_right And.left) k)
    (by rw [hcount, hr.params]; exact hroom)
  refine ⟨u, heval, ?dout, ?doutLen, hmt, by rw [hmtLen, hmt]⟩
  case dout => rw [hdout, hr.params, hr.key, State.bytesOfSymbols_unsubstitute_cipherSymbols hlatin]
  case doutLen => rw [hdoutLen, hcount, BitVec.ofNat_toNat, BitVec.setWidth_eq]

/-- A command that writes DOUT with its length leaves both to be copied into another DIN. -/
theorem State.din_eq_of_copy {s s' : State} {u : Update} (hfits : u.Fits)
    (hdoutLen : u.doutLen = some (BitVec.ofNat 32 u.dout.length)) (hlen : s'.regs.dinLen = (s.succeed u).regs.doutLen)
    (hcopy : ∀ i, i < (s.succeed u).regs.doutLen.toNat →
      s'.mem.byte (dinWin + i) = (s.succeed u).mem.byte (doutWin + i)) : s'.din = u.dout := by
  have hlength : (s.succeed u).regs.doutLen.toNat = u.dout.length := by
    have hshort := hfits.dout
    rw [State.succeed_doutLen, hdoutLen, Option.getD_some, BitVec.toNat_ofNat, Nat.mod_eq_of_lt (by omega)]
  exact State.din_eq (by rw [hlen, hlength]) fun i hi =>
    (hcopy i (hlength ▸ hi)).trans (Memory.dout_applyUpdate s.mem u hfits i hi)

/-- Settles O58: ENCRYPT leaves its container in DOUT, the copy makes it the content of DIN, and DECRYPT undoes it. -/
theorem decryptUndoesEncrypt : Obligations.DecryptUndoesEncrypt := by
  intro s k k' untag hp hdin hkeyMin hkeyMax hmt hsym hfitsDout hfitsDin
  rw [← State.length_cipherContainer] at hfitsDout hfitsDin
  have hready : s.RoundTripReady untag := ⟨hp, hdin, ⟨hkeyMin, hkeyMax⟩, hmt, hsym, hfitsDout, hfitsDin⟩
  obtain ⟨u, heval, hdout, hdoutLen⟩ := hready.evalEncrypt_dout k
  refine ⟨_, exec_of_eval_ok heval, rfl, fun s' hparams hkey hkeyLen hlen hcopy => ?_⟩
  have hcontainer : s'.din = u.dout :=
    State.din_eq_of_copy ((evalInstr_within heval).fits hp) (by rw [hdoutLen, hdout]) hlen hcopy
  obtain ⟨u', heval', hdout', hdoutLen', hmt', hmtLen'⟩ :=
    hready.evalDecrypt_received ⟨hparams, hkey, hkeyLen, hcontainer.trans hdout⟩ k'
  have hfits' := (evalInstr_within heval').fits (by rw [hparams]; exact hp)
  refine ⟨_, exec_of_eval_ok heval', rfl, ?doutLen, fun i hi => ?dout, ?mt⟩
  case doutLen => rw [State.succeed_doutLen, hdoutLen', Option.getD_some]
  case dout =>
    have hi' : i < u'.dout.length := by rw [hdout', State.length_din]; exact hi
    calc (s'.succeed u').mem.byte (doutWin + i)
      _ = u'.dout[i] := Memory.dout_applyUpdate s'.mem u' hfits' i hi'
      _ = s.mem.byte (dinWin + i) := by simp only [hdout', State.getElem_din]
  case mt => exact (State.mt_succeed s' hmtLen' hfits'.mt).trans hmt'

end Sys2Proof.Machine
end

section
/-! The decoder and the encoder of command words (spec/30_encoding.md R100 to R109). -/

namespace Sys2Proof

/-! ### Kinds (R102) -/

theorem decodeKind_encodeKind {k : Kind} (h : k.wellFormed = true) : decodeKind (encodeKind k) = k := by
  cases k with
  | supported p => cases p <;> rfl
  | other n =>
    obtain ⟨hlo, hhi⟩ : 2 ≤ n ∧ n ≤ 15 := by simpa [Kind.wellFormed] using h
    interval_cases n <;> rfl

theorem encodeKind_decodeKind (k : BitVec 4) : encodeKind (decodeKind k) = k := by
  revert k; decide

theorem wellFormed_decodeKind (k : BitVec 4) : (decodeKind k).wellFormed = true := by
  revert k; decide

/-! ### The fields of a word (R100) -/

/-- The four fields of the word `w` are those of the word of the command `i`. -/
structure FieldsOf (w : Word) (i : Instr) : Prop where
  op : fieldOp w = opcode i
  kind : fieldKind w = kindField i
  untag : fieldUntag w = untagField i
  rsv : fieldRsv w = 0

theorem fieldsOf_encode (i : Instr) : FieldsOf (encode i) i :=
  ⟨fieldOp_encode i, fieldKind_encode i, fieldUntag_encode i, fieldRsv_encode i⟩

/-- The four fields cover the word: every bit lies in one of them. -/
theorem eq_of_fields_eq {w w' : Word} (hop : fieldOp w = fieldOp w') (hkind : fieldKind w = fieldKind w')
    (huntag : fieldUntag w = fieldUntag w') (hrsv : fieldRsv w = fieldRsv w') : w = w' := by
  have extract : ∀ {lo len j : Nat}, w.extractLsb' lo len = w'.extractLsb' lo len → lo ≤ j → j < lo + len →
      w.getLsbD j = w'.getLsbD j := by
    intro lo len j heq hlo hhi
    have hbit := congrArg (BitVec.getLsbD · (j - lo)) heq
    simpa [show j - lo < len by omega, show lo + (j - lo) = j by omega] using hbit
  refine BitVec.eq_of_getLsbD_eq fun j hj => ?_
  rcases (by omega : j < 8 ∨ (8 ≤ j ∧ j < 12) ∨ j = 12 ∨ 13 ≤ j) with h | ⟨hlo, hhi⟩ | rfl | h
  · exact extract hop (Nat.zero_le j) (by omega)
  · exact extract hkind hlo (by omega)
  · exact huntag
  · exact extract hrsv h (by omega)

theorem FieldsOf.encode_eq {w : Word} {i : Instr} (h : FieldsOf w i) : encode i = w :=
  eq_of_fields_eq ((fieldOp_encode i).trans h.op.symm) ((fieldKind_encode i).trans h.kind.symm)
    ((fieldUntag_encode i).trans h.untag.symm) ((fieldRsv_encode i).trans h.rsv.symm)

/-! ### The decoder in terms of the fields (R101, R105) -/

theorem decodePlain_eq_ok_iff {w : Word} {i j : Instr} :
    decodePlain w i = .ok j ↔ fieldKind w = 0 ∧ fieldUntag w = false ∧ i = j := by
  unfold decodePlain; split_ifs <;> simp_all

theorem decodeUntagged_eq_ok_iff {w : Word} {f : Bool → Instr} {j : Instr} :
    decodeUntagged w f = .ok j ↔ fieldKind w = 0 ∧ f (fieldUntag w) = j := by
  unfold decodeUntagged; split_ifs <;> simp_all

theorem decodeKinded_eq_ok_iff {w : Word} {f : Kind → Instr} {j : Instr} :
    decodeKinded w f = .ok j ↔ fieldUntag w = false ∧ f (decodeKind (fieldKind w)) = j := by
  unfold decodeKinded; split_ifs <;> simp_all

theorem decodeBoth_eq_ok_iff {w : Word} {f : Kind → Bool → Instr} {j : Instr} :
    decodeBoth w f = .ok j ↔ f (decodeKind (fieldKind w)) (fieldUntag w) = j := by
  rw [decodeBoth, Except.ok.injEq]

theorem fieldsOf_of_decodePlain {w : Word} {i j : Instr} (h : decodePlain w i = .ok j) (hrsv : fieldRsv w = 0)
    (hop : (fieldOp w).toNat = (opcode i).toNat) (hkind : kindField i = 0) (huntag : untagField i = false)
    (hwf : i.wellFormed = true) : FieldsOf w j ∧ j.wellFormed = true := by
  obtain ⟨hk, hu, rfl⟩ := decodePlain_eq_ok_iff.mp h
  exact ⟨⟨BitVec.eq_of_toNat_eq hop, hk.trans hkind.symm, hu.trans huntag.symm, hrsv⟩, hwf⟩

theorem fieldsOf_of_decodeKinded {w : Word} {f : Kind → Instr} {j : Instr} (h : decodeKinded w f = .ok j)
    (hrsv : fieldRsv w = 0) (hop : ∀ k, (fieldOp w).toNat = (opcode (f k)).toNat)
    (hkind : ∀ k, kindField (f k) = encodeKind k) (huntag : ∀ k, untagField (f k) = false)
    (hwf : ∀ k, (f k).wellFormed = k.wellFormed) : FieldsOf w j ∧ j.wellFormed = true := by
  obtain ⟨hu, rfl⟩ := decodeKinded_eq_ok_iff.mp h
  refine ⟨⟨BitVec.eq_of_toNat_eq (hop _), ?_, ?_, hrsv⟩, ?_⟩
  · rw [hkind, encodeKind_decodeKind]
  · rw [hu, huntag]
  · rw [hwf, wellFormed_decodeKind]

/-- A word that decodes has the fields of its command, and the decoder builds well-formed commands only. -/
theorem fieldsOf_of_decode {w : Word} {i : Instr} (h : decode w = .ok i) : FieldsOf w i ∧ i.wellFormed = true := by
  unfold decode at h
  split at h
  · cases h
  rename_i hrsv
  have hrsv : fieldRsv w = 0 := not_not.mp hrsv
  split at h
  iterate 6 next hop => exact fieldsOf_of_decodePlain h hrsv hop rfl rfl rfl
  next hop =>
    obtain ⟨hk, rfl⟩ := decodeUntagged_eq_ok_iff.mp h
    exact ⟨⟨BitVec.eq_of_toNat_eq hop, hk, rfl, hrsv⟩, rfl⟩
  next hop =>
    exact fieldsOf_of_decodeKinded h hrsv (fun _ => hop) (fun _ => rfl) (fun _ => rfl) fun _ => rfl
  next hop =>
    obtain rfl := decodeBoth_eq_ok_iff.mp h
    exact ⟨⟨BitVec.eq_of_toNat_eq hop, (encodeKind_decodeKind _).symm, rfl, hrsv⟩, wellFormed_decodeKind _⟩
  next hop =>
    exact fieldsOf_of_decodeKinded h hrsv (fun _ => hop) (fun _ => rfl) (fun _ => rfl) fun _ => rfl
  next => cases h

/-- The fields of a well-formed command's word decode to it, field by field. -/
theorem decode_of_fieldsOf {w : Word} {i : Instr} (h : FieldsOf w i) (hwf : i.wellFormed = true) :
    decode w = .ok i := by
  obtain ⟨hop, hkind, huntag, hrsv⟩ := h
  have hkindOf : ∀ k : Kind, kindField i = encodeKind k → k.wellFormed = true → decodeKind (fieldKind w) = k :=
    fun k hk hkwf => by rw [hkind, hk, decodeKind_encodeKind hkwf]
  rw [decode, if_neg (not_not.mpr hrsv), hop]
  cases i with
  | nop | pack | unpack | derive | subst | unsubst => exact decodePlain_eq_ok_iff.mpr ⟨hkind, huntag, rfl⟩
  | frame untag => exact decodeUntagged_eq_ok_iff.mpr ⟨hkind, congrArg _ huntag⟩
  | unframe k | decrypt k => exact decodeKinded_eq_ok_iff.mpr ⟨huntag, congrArg _ (hkindOf k rfl hwf)⟩
  | encrypt k untag => exact decodeBoth_eq_ok_iff.mpr (congrArg₂ _ (hkindOf k rfl hwf) huntag)

/-- Settles O1: the four fields of an encoded word are the command's, and the decoder reads nothing else. -/
theorem decodeOfEncodeIsTheCommand : Obligations.DecodeOfEncodeIsTheCommand := fun i hwf =>
  decode_of_fieldsOf (fieldsOf_encode i) hwf

/-- Settles O2: the decoder checks every field, and the fields make up the word. -/
theorem encodeOfDecodedWordIsTheWord : Obligations.EncodeOfDecodedWordIsTheWord := fun _ _ h =>
  ⟨(fieldsOf_of_decode h).2, (fieldsOf_of_decode h).1.encode_eq⟩

/-- Settles O4: the listed commands are well formed and encode to the listed words. -/
theorem listedSpellingsHaveTheirWords : Obligations.ListedSpellingsHaveTheirWords := by
  intro p hp
  have hlisted : p.1.wellFormed = true ∧ encode p.1 = p.2 := by
    revert p; decide
  obtain ⟨hwf, hword⟩ := hlisted
  exact ⟨hword ▸ decodeOfEncodeIsTheCommand p.1 hwf, hword⟩

/-! ### Illegal words (R105) -/

/-- The word breaks no rule of R105: its opcode is assigned, KIND and UNTAG are 0 where the opcode does not use them, and
RSV is 0. -/
structure LegalWord (w : Word) : Prop where
  op : (fieldOp w).toNat < 0x0A
  kind : fieldKind w = 0 ∨ (fieldOp w).toNat ∈ [0x07, 0x08, 0x09]
  untag : fieldUntag w = false ∨ (fieldOp w).toNat ∈ [0x06, 0x08]
  rsv : fieldRsv w = 0

theorem FieldsOf.legalWord {w : Word} {i : Instr} (h : FieldsOf w i) : LegalWord w := by
  obtain ⟨hop, hkind, huntag, hrsv⟩ := h
  refine ⟨?op, ?kind, ?untag, hrsv⟩ <;> rw [hop]
  case op => cases i <;> simp [opcode]
  case kind => rw [hkind]; cases i <;> simp [kindField, opcode]
  case untag => rw [huntag]; cases i <;> simp [untagField, opcode]

/-- The command of an opcode, with the operands in the fields of the word (R101). -/
def commandOf (w : Word) : Nat → Instr
  | 0x00 => .nop
  | 0x01 => .pack
  | 0x02 => .unpack
  | 0x03 => .derive
  | 0x04 => .subst
  | 0x05 => .unsubst
  | 0x06 => .frame (fieldUntag w)
  | 0x07 => .unframe (decodeKind (fieldKind w))
  | 0x08 => .encrypt (decodeKind (fieldKind w)) (fieldUntag w)
  | _ => .decrypt (decodeKind (fieldKind w))

theorem opcode_commandOf (w : Word) {n : Nat} (h : n < 0x0A) : (opcode (commandOf w n)).toNat = n := by
  interval_cases n <;> rfl

theorem wellFormed_commandOf (w : Word) (n : Nat) : (commandOf w n).wellFormed = true := by
  unfold commandOf; split <;> simp [Instr.wellFormed, wellFormed_decodeKind]

theorem kindField_commandOf (w : Word) {n : Nat} (h : n < 0x0A) :
    kindField (commandOf w n) = if n ∈ [0x07, 0x08, 0x09] then fieldKind w else 0 := by
  interval_cases n <;> simp [commandOf, kindField, encodeKind_decodeKind]

theorem untagField_commandOf (w : Word) {n : Nat} (h : n < 0x0A) :
    untagField (commandOf w n) = if n ∈ [0x06, 0x08] then fieldUntag w else false := by
  interval_cases n <;> simp [commandOf, untagField]

theorem LegalWord.exists_decode {w : Word} (h : LegalWord w) : ∃ i, decode w = .ok i := by
  obtain ⟨hop, hkind, huntag, hrsv⟩ := h
  refine ⟨commandOf w (fieldOp w).toNat, decode_of_fieldsOf ⟨?op, ?kind, ?untag, hrsv⟩ (wellFormed_commandOf w _)⟩
  case op => exact BitVec.eq_of_toNat_eq (opcode_commandOf w hop).symm
  case kind => rw [kindField_commandOf w hop]; split <;> simp_all
  case untag => rw [untagField_commandOf w hop]; split <;> simp_all

theorem exists_decode_error_iff (w : Word) : (∃ e, decode w = .error e) ↔ ¬ LegalWord w := by
  constructor
  · rintro ⟨e, he⟩ hlegal
    obtain ⟨i, hi⟩ := hlegal.exists_decode
    simp [he] at hi
  · intro hillegal
    cases h : decode w with
    | error e => exact ⟨e, rfl⟩
    | ok i => exact absurd (fieldsOf_of_decode h).1.legalWord hillegal

/-- Settles O3: the words the decoder accepts are the legal ones, and the four clauses negate the four conditions. -/
theorem decoderRefusesExactlyIllegalWords : Obligations.DecoderRefusesExactlyIllegalWords := by
  intro w
  rw [exists_decode_error_iff]
  have hlegal : LegalWord w ↔ (fieldOp w).toNat < 0x0A ∧ fieldRsv w = 0
      ∧ (fieldKind w = 0 ∨ (fieldOp w).toNat ∈ [0x07, 0x08, 0x09])
      ∧ (fieldUntag w = false ∨ (fieldOp w).toNat ∈ [0x06, 0x08]) :=
    ⟨fun ⟨hop, hkind, huntag, hrsv⟩ => ⟨hop, hrsv, hkind, huntag⟩,
      fun ⟨hop, hrsv, hkind, huntag⟩ => ⟨hop, hkind, huntag, hrsv⟩⟩
  rw [hlegal, not_and_or, not_and_or, not_and_or, not_or, not_or, not_lt, Bool.not_eq_false]
  rfl

end Sys2Proof
end

section
/-! One step: the next event, or the engine's turn (spec/40_command_execution.md R120 to R123). -/

namespace Sys2Proof.Machine

/-! ### The step of a legal block, by its next event -/

theorem step_of_pending_nil {s : State} (hp : paramsLegal s.params = true) (he : s.pending = []) :
    step s = engineTurn s := by
  rw [step, if_pos hp, nextEvent, he]

theorem step_of_pending_cons {s : State} {e : Event} {rest : List Event} (hp : paramsLegal s.params = true)
    (he : s.pending = e :: rest) : step s = performEvent e { s with pending := rest } := by
  rw [step, if_pos hp, nextEvent, he]

theorem engineTurn_idle {s : State} (h : s.regs.status.busy = false) : engineTurn s = .next s := by
  rw [engineTurn, h]; rfl

theorem engineTurn_busy {s : State} (h : s.regs.status.busy = true) :
    engineTurn s = .next (s.complete (evalWord s.regs.cmd s)) := by
  rw [engineTurn_eq, if_pos h]

theorem State.with_pending_self {s : State} {rest : List Event} (h : s.pending = rest) :
    { s with pending := rest } = s := by
  rw [← h]

/-- The engine's turn comes by its event, or because no event is left; either way the event list is then `rest`
(log 2). -/
theorem step_of_engine_next {s : State} {rest : List Event} (hp : paramsLegal s.params = true)
    (h : (s.pending = [] ∧ rest = []) ∨ s.pending = .engine :: rest) :
    step s = engineTurn { s with pending := rest } := by
  rcases h with ⟨hnil, rfl⟩ | hengine
  · rw [step_of_pending_nil hp hnil, State.with_pending_self hnil]
  · exact step_of_pending_cons hp hengine

theorem evalWord_of_decode_ok {v : Word} {i : Instr} (h : decode v = .ok i) (s : State) :
    evalWord v s = evalInstr i s := by
  rw [evalWord, h]

theorem evalWord_of_decode_error {v : Word} {e : DecodeError} (h : decode v = .error e) (s : State) :
    evalWord v s = .error ⟨.illegalCmd, 0⟩ := by
  rw [evalWord, h]

/-- The engine's turn of a busy block is the meaning of the command in flight (R122). -/
theorem engineTurn_of_decode_ok {s : State} {i : Instr} (hbusy : s.regs.status.busy = true)
    (h : decode s.regs.cmd = .ok i) : engineTurn s = exec i s := by
  rw [engineTurn_busy hbusy, evalWord_of_decode_ok h, exec_eq_complete]

/-- The engine's turn with an illegal word in flight reports ILLEGAL_CMD at 0 (R105). -/
theorem engineTurn_of_decode_error {s : State} {e : DecodeError} (hbusy : s.regs.status.busy = true)
    (h : decode s.regs.cmd = .error e) : engineTurn s = .next (s.takeError ⟨.illegalCmd, 0⟩) := by
  rw [engineTurn_busy hbusy, evalWord_of_decode_error h, State.complete_error]

/-- Settles O5: both ways to the engine's turn complete the command that CMD decodes to. -/
theorem stepRunsTheDecodedCommand : Obligations.StepRunsTheDecodedCommand := by
  intro s i hp hbusy hdecode
  refine ⟨fun hnil => ?_, fun rest hengine => ?_⟩
  · rw [step_of_pending_nil hp hnil, engineTurn_of_decode_ok hbusy hdecode]
  · rw [step_of_engine_next hp (.inr hengine)]
    exact engineTurn_of_decode_ok hbusy hdecode

/-- Settles O6: both ways to the engine's turn complete the illegal word with its one error. -/
theorem stepCompletesIllegalWord : Obligations.StepCompletesIllegalWord := by
  intro s e hp hbusy hdecode rest hnext
  rw [step_of_engine_next hp hnext]
  exact engineTurn_of_decode_error hbusy hdecode

/-- Settles O7: the four kinds of step that run no command. -/
theorem stepPerformsTheNextEvent : Obligations.StepPerformsTheNextEvent := by
  refine fun s rest => ⟨fun hp a he => ?host, fun hp hidle he => ?engine, fun hp hidle he => ?none, fun hp => ?illegal⟩
  case host => exact step_of_pending_cons hp he
  case engine => rw [step_of_engine_next hp (.inr he)]; exact engineTurn_idle hidle
  case none => rw [step_of_pending_nil hp he, engineTurn_idle hidle]
  case illegal => simp [step, hp]

/-- Settles O15: the power-on event is performed as the power-on reset. -/
theorem powerOnEventRestoresTheResetState : Obligations.PowerOnEventRestoresTheResetState := fun _ _ hp he =>
  ⟨_, step_of_pending_cons hp he, rfl, rfl, rfl, rfl⟩

/-! ### What every step does to the parameters and to the event list -/

@[simp] theorem State.afterTurn_params (s : State) : s.afterTurn.params = s.params := by
  unfold State.afterTurn; split <;> simp

@[simp] theorem State.afterTurn_pending (s : State) : s.afterTurn.pending = s.pending := by
  unfold State.afterTurn; split <;> simp

theorem State.afterTurn_busy (s : State) : s.afterTurn.regs.status.busy = false := by
  unfold State.afterTurn; split <;> simp_all

/-- No step writes the parameters, and each takes one event from the list. -/
theorem step_frame {s t : State} (h : step s = .next t) : t.params = s.params ∧ t.pending = s.pending.tail := by
  obtain ⟨_, ⟨he, rfl⟩ | ⟨rest, he, rfl⟩ | ⟨a, rest, he, rfl⟩ | ⟨rest, he, rfl⟩⟩ := step_cases h
  · simp [he]
  · simp [he]
  · simp [he, State.performAccess_frame]
  · simp [he]

/-- Settles O11: of all that a step can do, nothing writes the parameters. -/
theorem noStepChangesTheParameters : Obligations.NoStepChangesTheParameters := fun _ _ h => (step_frame h).1

/-- The turn on the empty list leaves the block idle. -/
theorem step_idle_of_pending_nil {s t : State} (h : step s = .next t) (he : s.pending = []) :
    t.regs.status.busy = false := by
  obtain ⟨hp, _⟩ := step_cases h
  rw [step_of_pending_nil hp he, engineTurn_eq] at h
  cases h
  exact s.afterTurn_busy

/-- Settles O8: every step uses up one event, and the step after the last one is the engine's turn. -/
theorem blockIsIdleOnceEventsAreUsedUp : Obligations.BlockIsIdleOnceEventsAreUsedUp := by
  intro s hp
  induction he : s.pending generalizing s with
  | nil =>
    obtain ⟨t, hstep⟩ := step_legal hp
    have hpending : t.pending = [] := by rw [(step_frame hstep).2, he, List.tail_nil]
    exact ⟨t, core_run_of_step 0 hstep, hpending, step_idle_of_pending_nil hstep he⟩
  | cons e rest ih =>
    obtain ⟨t, hstep⟩ := step_legal hp
    obtain ⟨hparams, hpending⟩ := step_frame hstep
    obtain ⟨t', hrun, hdone⟩ := ih t (hparams ▸ hp) (by rw [hpending, he, List.tail_cons])
    exact ⟨t', (core_run_of_step _ hstep).trans hrun, hdone⟩

end Sys2Proof.Machine
end

section
/-! The register interface: where an access goes, what a read returns, what a write does (spec/10_state.md R32 to R49;
spec/20_memory.md R70 to R78; spec/70_reset_and_hazards.md R300, R301). -/

namespace Sys2Proof.Machine

/-! ### Addresses and offsets -/

theorem Reg.ofOffset_offset (r : Reg) : Reg.ofOffset r.offset = some r := by
  cases r <;> rfl

theorem Reg.offset_aligned (r : Reg) : r.offset % 4 = 0 := by
  cases r <;> rfl

theorem Reg.offset_lt (r : Reg) : r.offset < 0x001000 := by
  cases r <;> decide

theorem offsetOf_base_add (p : Params) {off : Nat} (h : off < 0x1000000) : offsetOf p (p.base + off) = some off := by
  rw [offsetOf, if_pos (by omega), Nat.add_sub_cancel_left]

theorem offsetOf_outside (p : Params) {addr : Nat} (h : addr < p.base ∨ p.base + 0x1000000 ≤ addr) :
    offsetOf p addr = none := by
  rw [offsetOf, if_neg (by omega)]

/-- Settles O28: the address map translates `BASE + offset` to `offset`, and no other address. -/
theorem accessesReachTheirOffset : Obligations.AccessesReachTheirOffset := by
  refine fun s off width v => ⟨fun h => ?_, fun addr h => ?_⟩
  · simp only [State.performAccess, offsetOf_base_add _ h, and_self]
  · simp only [State.performAccess, offsetOf_outside _ h, and_self]

/-- All windows lie above the registers. -/
theorem InMappedWindow.le {p : Params} {off : Nat} (h : InMappedWindow p off) : 0x001000 ≤ off := by
  unfold InMappedWindow at h; omega

/-! ### Accesses to a register by its name -/

theorem State.hostRead_offset (s : State) (r : Reg) :
    s.hostRead r.offset 32
      = if s.regs.status.busy && !r.exactWhileBusy then s.answerFree else s.answer (s.readReg r) :=
  s.hostRead_reg r.ofOffset_offset r.offset_aligned r.offset_lt

theorem State.hostWrite_offset (s : State) (r : Reg) (v : Word) : s.hostWrite r.offset 32 v = s.writeReg r v :=
  s.hostWrite_reg v r.ofOffset_offset r.offset_aligned r.offset_lt

theorem State.hostRead_inMappedWindow (s : State) {off : Nat} (h : InMappedWindow s.params off) (h4 : off % 4 = 0) :
    s.hostRead off 32 = if s.regs.status.busy then s.answerFree else s.answer (s.mem.word off) :=
  s.hostRead_window h.le h4 ((windowMapped_iff_inMappedWindow _ _).mpr h)

theorem State.hostWrite_inMappedWindow (s : State) {off : Nat} (v : Word) (h : InMappedWindow s.params off)
    (h4 : off % 4 = 0) :
    s.hostWrite off 32 v = if s.regs.status.busy then s.setWib else { s with mem := s.mem.storeWord off v } :=
  s.hostWrite_window v h.le h4 ((windowMapped_iff_inMappedWindow _ _).mpr h)

/-! ### The words of CTRL and STATUS -/

theorem ctrlWord_eq (ie : Bool) : ctrlWord ie = if ie then 1 else 0 := by
  cases ie <;> rfl

theorem ctrlWord_getLsbD_zero (ie : Bool) : (ctrlWord ie).getLsbD 0 = ie := by
  cases ie <;> rfl

/-- Above the five flags stands ERRCODE, in bits 8 to 15 (R36). -/
theorem Status.getLsbD_toWord_of_le (st : Status) {j : Nat} (h : 5 ≤ j) :
    st.toWord.getLsbD j = (decide (8 ≤ j) && decide (j < 32) && st.errcode.getLsbD (j - 8)) := by
  simp only [Status.toWord, BitVec.getLsbD_or, BitVec.getLsbD_shiftLeft, BitVec.getLsbD_setWidth]
  grind

/-- Settles O23: each field of STATUS is shifted to its own bits. -/
theorem statusWordLayout : Obligations.StatusWordLayout := by
  intro st
  refine ⟨?_, ?_, ?_, ?_, ?_, ?gap, ?errcode, ?rest⟩
  iterate 5 simp [Status.toWord]
  all_goals refine BitVec.eq_of_getLsbD_eq fun j hj => ?_
  all_goals rw [BitVec.getLsbD_extractLsb', st.getLsbD_toWord_of_le (by omega)]
  case gap => simp; omega
  case errcode => simp [hj, show 8 + j < 32 by omega]
  case rest => simp [show 8 ≤ 16 + j - 8 by omega]

/-- Settles O25: bit 0 of CTRL is IE, bit 1 of STATUS is DONE. -/
theorem interruptIsEnableAndDone : Obligations.InterruptIsEnableAndDone := by
  intro s
  obtain ⟨_, hdone, _⟩ := statusWordLayout s.regs.status
  rw [State.irq, State.readReg, State.readReg, ctrlWord_getLsbD_zero, hdone]

/-! ### Reads -/

/-- The registers a busy block reads exactly (R301). -/
def exactRegs : List Reg := [.id, .version, .ctrl, .status, .cmd, .errpos, .capDin, .capDout, .capKey, .capMt, .capSym]

/-- The registers whose reads a busy block leaves open (R301). -/
def openRegs : List Reg := [.dinLen, .keyLen, .mtLen, .doutLen, .symLen, .ksLen, .ksReq, .hash, .lcg]

theorem State.hostRead_exact (s : State) {r : Reg} (h : s.regs.status.busy = false ∨ r.exactWhileBusy = true) :
    s.hostRead r.offset 32 = s.answer (s.readReg r) := by
  rw [State.hostRead_offset]
  rcases h with h | h <;> simp [h]

theorem State.hostRead_open (s : State) {r : Reg} (hbusy : s.regs.status.busy = true)
    (h : r.exactWhileBusy = false) : s.hostRead r.offset 32 = s.answerFree := by
  simp [State.hostRead_offset, hbusy, h]

/-- Settles O21: the address map leads each offset to a register of one of the two lists, or to a window. -/
theorem busyReads : Obligations.BusyReads := by
  intro s off hbusy
  constructor
  case left =>
    have hexact : ∀ p ∈ exactRegs.map fun r => (r.offset, s.readReg r), s.hostRead p.1 32 = s.answer p.2 := by
      refine List.forall_mem_map.mpr fun r hr => s.hostRead_exact (.inr ?_)
      revert r; decide
    rw [← ctrlWord_eq]
    exact hexact
  case right =>
    rintro (hreg | ⟨h4, hwindow⟩)
    · obtain ⟨r, hr, rfl⟩ : ∃ r ∈ openRegs, r.offset = off := by revert off; decide
      exact ⟨_, s.hostRead_open hbusy (by revert r; decide)⟩
    · exact ⟨_, by rw [s.hostRead_inMappedWindow hwindow h4, if_pos hbusy]; rfl⟩

/-- Settles O22: an idle block answers with the register at the offset, or with the word of the window. -/
theorem idleReadsReturnTheState : Obligations.IdleReadsReturnTheState := by
  intro s hidle
  constructor
  case left =>
    rw [← ctrlWord_eq]
    have hread : ∀ p ∈ ([.id, .version, .ctrl, .status, .cmd, .errpos, .dinLen, .keyLen, .mtLen, .doutLen, .symLen,
        .ksLen, .ksReq, .hash, .lcg, .capDin, .capDout, .capKey, .capMt, .capSym] : List Reg).map
        fun r => (r.offset, s.readReg r), s.hostRead p.1 32 = s.answer p.2 :=
      List.forall_mem_map.mpr fun r _ => s.hostRead_exact (.inl hidle)
    exact hread
  case right =>
    intro off h4 hwindow
    rw [s.hostRead_inMappedWindow hwindow h4, if_neg (by simp [hidle])]
    rfl

/-! ### Writes -/

/-- The registers that ignore writes (R33, R34, R38, R42, R46 to R48). -/
def readOnlyRegs : List Reg :=
  [.id, .version, .errpos, .doutLen, .hash, .lcg, .capDin, .capDout, .capKey, .capMt, .capSym]

/-- The registers that a busy block does not write (R300). -/
def idleOnlyRegs : List Reg := [.cmd, .dinLen, .keyLen, .mtLen, .symLen, .ksLen, .ksReq]

theorem State.writeReg_readOnly (s : State) {r : Reg} (h : r ∈ readOnlyRegs) (v : Word) : s.writeReg r v = s := by
  cases r with
  | id | version | errpos | doutLen | hash | lcg | capDin | capDout | capKey | capMt | capSym => rfl
  | ctrl | status | cmd | dinLen | keyLen | mtLen | symLen | ksLen | ksReq => simp [readOnlyRegs] at h

theorem State.writeIdle_busy {s : State} (h : s.regs.status.busy = true) (r : Regs) : s.writeIdle r = s.setWib := by
  rw [State.writeIdle, if_pos h]

theorem State.writeIdle_idle {s : State} (h : s.regs.status.busy = false) (r : Regs) :
    s.writeIdle r = { s with regs := r } := by
  rw [State.writeIdle, if_neg (by simp [h])]

theorem State.writeReg_busy {s : State} (hbusy : s.regs.status.busy = true) {r : Reg} (h : r ∈ idleOnlyRegs)
    (v : Word) : s.writeReg r v = s.setWib := by
  cases r with
  | cmd => exact if_pos hbusy
  | dinLen | keyLen | mtLen | symLen | ksLen | ksReq => exact State.writeIdle_busy hbusy _
  | id | version | ctrl | status | errpos | doutLen | hash | lcg | capDin | capDout | capKey | capMt | capSym =>
    simp [idleOnlyRegs] at h

/-- Settles O18: the write reaches a register that only the idle block writes, or a window. -/
theorem busyWritesAreLostAndSetWib : Obligations.BusyWritesAreLostAndSetWib := by
  rintro s off v hbusy (hreg | ⟨h4, hwindow⟩)
  · obtain ⟨r, hr, rfl⟩ : ∃ r ∈ idleOnlyRegs, r.offset = off := by revert off; decide
    exact (s.hostWrite_offset r v).trans (State.writeReg_busy hbusy hr v)
  · exact (s.hostWrite_inMappedWindow v hwindow h4).trans (if_pos hbusy)

/-- Settles O19: the write reaches a read-only register or a reserved offset. -/
theorem readOnlyWritesChangeNothing : Obligations.ReadOnlyWritesChangeNothing := by
  rintro s off v (hreg | ⟨hlo, hhi, h4⟩)
  · obtain ⟨r, hr, rfl⟩ : ∃ r ∈ readOnlyRegs, r.offset = off := by revert off; decide
    exact (s.hostWrite_offset r v).trans (s.writeReg_readOnly hr v)
  · exact s.hostWrite_reserved v hlo hhi h4

/-- Settles O26: the idle block stores the value in the register of the offset. -/
theorem lengthRegistersStoreAnyValue : Obligations.LengthRegistersStoreAnyValue := by
  intro s v hidle
  have store : ∀ {r : Reg} {regs : Regs}, s.writeReg r v = s.writeIdle regs →
      s.hostWrite r.offset 32 v = { s with regs := regs } := fun h =>
    (s.hostWrite_offset _ v).trans (h.trans (State.writeIdle_idle hidle _))
  exact ⟨store (r := .dinLen) rfl, store (r := .keyLen) rfl, store (r := .mtLen) rfl, store (r := .symLen) rfl,
    store (r := .ksLen) rfl, store (r := .ksReq) rfl⟩

/-- Settles O24: STATUS clears the flags written 1, and CTRL without bit 1 only stores IE. -/
theorem statusAndControlWrites : Obligations.StatusAndControlWrites := by
  intro s v
  constructor
  case left =>
    have hclear : ∀ flag bit : Bool, (flag && !bit) = if bit then false else flag := by decide
    refine (s.hostWrite_offset .status v).trans ?_
    simp only [State.writeReg, State.acknowledge, Status.acknowledged, hclear]
  case right =>
    intro hreset
    exact (s.hostWrite_offset .ctrl v).trans (if_neg (Bool.eq_false_iff.mp hreset))

/-- Settles O16: a write to CMD of an idle block is the issue; the word is evaluated as on the state before, because
the issue changes only CMD, STATUS and ERRPOS. -/
theorem commandWriteIssues : Obligations.CommandWriteIssues := by
  intro s v
  refine ⟨fun hbusy => ?busy, fun hidle => ?idle⟩
  case busy => exact (s.hostWrite_offset .cmd v).trans (if_pos hbusy)
  case idle =>
    have hissue : s.hostWrite 0x010 32 v = s.issue v :=
      (s.hostWrite_offset .cmd v).trans (if_neg (by simp [hidle]))
    rw [hissue]
    refine ⟨rfl, by simp [State.irq], fun hp rest hnext => ?_, fun e he => evalWord_of_decode_error he s⟩
    have heval : evalWord v { s.issue v with pending := rest } = evalWord v s :=
      evalWord_congr v rfl rfl ⟨_, _, _, _, rfl⟩
    have hturn := engineTurn_busy (s := { s.issue v with pending := rest }) rfl
    rw [step_of_engine_next (s := s.issue v) hp hnext, hturn, ← heval]
    rfl

/-! ### Resets -/

/-- A write to CTRL with bit 1 set is the soft reset, whatever its other bits (R35). -/
theorem State.hostWrite_softReset (s : State) {v : Word} (h : v.getLsbD 1 = true) :
    s.hostWrite 0x008 32 v = s.softReset :=
  (s.hostWrite_offset .ctrl v).trans (if_pos h)

/-- Settles O13: what the soft reset does to each part of the state. -/
theorem softResetRestoresEveryRegister : Obligations.SoftResetRestoresEveryRegister := by
  intro s v hv
  rw [s.hostWrite_softReset hv]
  exact ⟨s.softReset_regs, s.softReset_params, s.softReset_pending, by simp [State.irq, Regs.reset],
    s.softReset_mem_idle⟩

/-- Settles O12: the registers at reset, one by one. -/
theorem registersAtReset : Obligations.RegistersAtReset := by
  refine ⟨?_, rfl, rfl⟩
  decide

end Sys2Proof.Machine
end

section
/-! Everything a host access can do (spec/20_memory.md R75 to R77; spec/70_reset_and_hazards.md R300, R301). -/

namespace Sys2Proof.Machine

/-- A read answers a word, or a free value while the block is busy, or it is rejected. -/
theorem State.hostRead_cases (s : State) (off width : Nat) :
    (∃ v, s.hostRead off width = s.answer v)
      ∨ (s.regs.status.busy = true ∧ s.hostRead off width = s.answerFree)
      ∨ s.hostRead off width = s.setAerr.answer 0 := by
  unfold State.hostRead
  split
  · split
    · split
      · exact .inr (.inl ⟨by simp_all, rfl⟩)
      · exact .inl ⟨_, rfl⟩
    · exact .inl ⟨_, rfl⟩
    · split
      · exact .inr (.inl ⟨by assumption, rfl⟩)
      · exact .inl ⟨_, rfl⟩
    · exact .inr (.inr rfl)
  · exact .inr (.inr rfl)

theorem windowMapped_of_placeAt {p : Params} {off : Nat} (h : placeAt p off = .window) :
    windowMapped p off = true := by
  unfold placeAt at h
  split at h
  · split at h <;> cases h
  · split at h
    · assumption
    · cases h

/-- A write reaches a register, or a reserved offset, or a window of the busy or the idle block, or it is rejected. -/
theorem State.hostWrite_cases (s : State) (off width : Nat) (v : Word) :
    (∃ r, s.hostWrite off width v = s.writeReg r v)
      ∨ s.hostWrite off width v = s
      ∨ (s.regs.status.busy = true ∧ s.hostWrite off width v = s.setWib)
      ∨ (s.regs.status.busy = false ∧ off % 4 = 0 ∧ windowMapped s.params off = true
        ∧ s.hostWrite off width v = { s with mem := s.mem.storeWord off v })
      ∨ s.hostWrite off width v = s.setAerr := by
  unfold State.hostWrite
  split
  · rename_i haccepted
    split
    · exact .inl ⟨_, rfl⟩
    · exact .inr (.inl rfl)
    · rename_i hplace
      have h4 : off % 4 = 0 := by simp_all [accessAccepted]
      split
      · exact .inr (.inr (.inl ⟨by assumption, rfl⟩))
      · exact .inr (.inr (.inr (.inl ⟨by simp_all, h4, windowMapped_of_placeAt hplace, rfl⟩)))
    · exact .inr (.inr (.inr (.inr rfl)))
  · exact .inr (.inr (.inr (.inr rfl)))

/-- An access is a read or a write at some offset, or not this block's. -/
theorem State.performAccess_cases (s : State) (a : Access) :
    (∃ off width, s.performAccess a = s.hostRead off width)
      ∨ (∃ off width v, s.performAccess a = s.hostWrite off width v)
      ∨ s.performAccess a = s := by
  cases a with
  | read addr width =>
    simp only [State.performAccess]
    split
    · exact .inl ⟨_, _, rfl⟩
    · exact .inr (.inr rfl)
  | write addr width v =>
    simp only [State.performAccess]
    split
    · exact .inr (.inl ⟨_, _, _, rfl⟩)
    · exact .inr (.inr rfl)

end Sys2Proof.Machine
end

section
/-! The invariant (State.Inv): the parts of it that speak of the buffers and of the registers, and what keeps each. -/

namespace Sys2Proof.Machine

/-- The part of the invariant about the buffers. -/
structure Memory.Inv (p : Params) (m : Memory) : Prop where
  wf : m.wf = true
  mapped : ∀ c ∈ m.cells, windowMapped p c.1 = true

/-- The part of the invariant about the registers. -/
structure Regs.Inv (p : Params) (r : Regs) : Prop where
  noErrNoCode : r.status.err = false → r.status.errcode = 0
  errHasCode : r.status.err = true → r.status.errcode ∈ assignedCodes
  busyClean : r.status.busy = true → r.status.done = false ∧ r.status.err = false ∧ r.errpos = 0
  doutFits : r.doutLen.toNat ≤ p.pDout
  lcgRange : r.lcg.toNat < 233280 ∨ r.lcg = r.hash

theorem State.inv_iff (s : State) :
    s.Inv ↔ paramsLegal s.params = true ∧ s.mem.Inv s.params ∧ s.regs.Inv s.params := by
  constructor
  · rintro ⟨hp, hwf, hmapped, hno, hhas, hbusy, hdout, hlcg⟩
    exact ⟨hp, ⟨hwf, hmapped⟩, ⟨hno, hhas, hbusy, hdout, hlcg⟩⟩
  · rintro ⟨hp, ⟨hwf, hmapped⟩, ⟨hno, hhas, hbusy, hdout, hlcg⟩⟩
    exact ⟨hp, hwf, hmapped, hno, hhas, hbusy, hdout, hlcg⟩

/-! ### The buffers -/

theorem Memory.inv_empty (p : Params) (gen : Nat) : Memory.Inv p { gen := gen, cells := [] } :=
  ⟨rfl, by simp⟩

/-- The four bytes of a mapped word are mapped: the windows and the capacities are multiples of 4 (R7, R71). -/
theorem windowMapped_of_word {p : Params} (hp : paramsLegal p = true) {off x : Nat} (h4 : off % 4 = 0)
    (hoff : windowMapped p off = true) (hx : off ≤ x ∧ x < off + 4) : windowMapped p x = true := by
  obtain ⟨_, _, hdin, _, _, hdout, _, _, hkey, _, _, hmt, _, _, hsym, _⟩ := (paramsLegal_iff p).mp hp
  rw [windowMapped_iff] at hoff ⊢
  omega

theorem Memory.Inv.storeWord {p : Params} {m : Memory} (h : m.Inv p) (hp : paramsLegal p = true) {off : Nat}
    (h4 : off % 4 = 0) (hoff : windowMapped p off = true) (v : Word) : (m.storeWord off v).Inv p := by
  refine ⟨m.wf_storeWord off v h.wf, fun c hc => ?_⟩
  rcases Memory.mem_cells_storeBytes hc with hnew | hold
  · exact windowMapped_of_word hp h4 hoff hnew
  · exact h.mapped c hold

/-- What fits the buffers is written to mapped offsets only. -/
theorem Memory.Inv.applyUpdate {p : Params} {m : Memory} (h : m.Inv p) (hp : paramsLegal p = true) {u : Update}
    (hu : u.Within p) : (m.applyUpdate u).Inv p := by
  refine ⟨m.wf_applyUpdate u h.wf, fun c hc => ?_⟩
  obtain ⟨hsym, hks, hdout, hmt, _, _⟩ := hu
  obtain ⟨_, _, _, _, _, _, _, _, _, _, _, _, _, _, hpSym, _⟩ := (paramsLegal_iff p).mp hp
  have hcell := Memory.mem_cells_applyUpdate hc
  simp only [symWin, ksWin, doutWin, mtWin] at hcell
  rcases hcell with hnew | hnew | hnew | hnew | hold
  iterate 4 rw [windowMapped_iff]; omega
  exact h.mapped c hold

/-! ### The registers -/

theorem Regs.inv_reset (p : Params) : Regs.reset.Inv p :=
  ⟨fun _ => rfl, nofun, nofun, Nat.zero_le _, .inl (by decide)⟩

/-- The invariant speaks of few registers; a write to another one keeps it. -/
theorem Regs.Inv.of_eq {p : Params} {r r' : Regs} (h : r.Inv p) (herr : r'.status.err = r.status.err)
    (hcode : r'.status.errcode = r.status.errcode) (hbusy : r'.status.busy = r.status.busy)
    (hdone : r'.status.done = r.status.done) (hpos : r'.errpos = r.errpos) (hdout : r'.doutLen = r.doutLen)
    (hlcg : r'.lcg = r.lcg) (hhash : r'.hash = r.hash) : r'.Inv p := by
  obtain ⟨hno, hhas, hclean, hfits, hrange⟩ := h
  constructor <;> simpa only [herr, hcode, hbusy, hdone, hpos, hdout, hlcg, hhash]

theorem ErrCode.toByte_mem (c : ErrCode) : c.toByte ∈ assignedCodes := by
  cases c <;> decide

theorem State.inv_issue {s : State} (h : s.regs.Inv s.params) (v : Word) : (s.issue v).regs.Inv s.params where
  noErrNoCode _ := rfl
  errHasCode := nofun
  busyClean _ := ⟨rfl, rfl, rfl⟩
  doutFits := h.doutFits
  lcgRange := h.lcgRange

/-- The acknowledgement clears ERR and ERRCODE together. -/
theorem State.inv_acknowledge {s : State} (h : s.regs.Inv s.params) (v : Word) :
    (s.acknowledge v).regs.Inv s.params where
  noErrNoCode herr := by
    simp only [State.acknowledge, Status.acknowledged] at herr ⊢
    split
    · rfl
    · exact h.noErrNoCode (by simp_all)
  errHasCode herr := by
    obtain ⟨hold, hbit⟩ : s.regs.status.err = true ∧ v.getLsbD 2 = false := by
      simpa [State.acknowledge, Status.acknowledged] using herr
    simp only [State.acknowledge, Status.acknowledged, hbit]
    exact h.errHasCode hold
  busyClean hbusy := by
    obtain ⟨hdone, herr, hpos⟩ := h.busyClean hbusy
    exact ⟨by simp [State.acknowledge, Status.acknowledged, hdone],
      by simp [State.acknowledge, Status.acknowledged, herr], hpos⟩
  doutFits := h.doutFits
  lcgRange := h.lcgRange

theorem State.inv_takeError {s : State} (h : s.regs.Inv s.params) (e : CmdError) :
    (s.takeError e).regs.Inv s.params where
  noErrNoCode := nofun
  errHasCode _ := e.code.toByte_mem
  busyClean := nofun
  doutFits := h.doutFits
  lcgRange := h.lcgRange

/-- A completion sets DOUT_LEN, HASH and LCG to what its results allow, or leaves them. -/
theorem State.inv_succeed {s : State} (h : s.regs.Inv s.params) {u : Update} (hu : u.Within s.params) :
    (s.succeed u).regs.Inv s.params where
  noErrNoCode := h.noErrNoCode
  errHasCode := h.errHasCode
  busyClean := nofun
  doutFits := by
    rw [State.succeed_doutLen]
    cases hv : u.doutLen with
    | none => exact h.doutFits
    | some v => exact hu.doutLen v hv
  lcgRange := by
    rcases hu.lcg with ⟨hlcg, hhash⟩ | ⟨l, k, hlcg, hhash, hrange⟩
    · simpa [State.succeed, Regs.applyUpdate, hlcg, hhash] using h.lcgRange
    · simpa [State.succeed, Regs.applyUpdate, hlcg, hhash] using hrange

/-! ### The whole state -/

theorem State.Inv.complete {s : State} (h : s.Inv) {v : Word} : (s.complete (evalWord v s)).Inv := by
  obtain ⟨hp, hmem, hregs⟩ := s.inv_iff.mp h
  rw [State.inv_iff]
  cases heval : evalWord v s with
  | error e => exact ⟨hp, hmem, State.inv_takeError hregs e⟩
  | ok u => exact ⟨hp, hmem.applyUpdate hp (evalWord_within heval), State.inv_succeed hregs (evalWord_within heval)⟩

theorem State.Inv.afterTurn {s : State} (h : s.Inv) : s.afterTurn.Inv := by
  unfold State.afterTurn
  split
  · exact h.complete
  · exact h

theorem State.Inv.softReset {s : State} (h : s.Inv) : s.softReset.Inv := by
  obtain ⟨hp, hmem, hregs⟩ := s.inv_iff.mp h
  refine (State.inv_iff _).mpr ⟨by simpa using hp, ?_, by simpa using Regs.inv_reset s.params⟩
  rw [State.softReset_params]
  cases hbusy : s.regs.status.busy with
  | false => rw [s.softReset_mem_idle hbusy]; exact hmem
  | true =>
    rw [s.softReset_mem_busy hbusy]
    exact hmem.applyUpdate hp (s.abandonedExtent_free_within s.fresh)

theorem State.Inv.powerCycle {s : State} (h : s.Inv) : s.powerCycle.Inv :=
  (State.inv_iff _).mpr ⟨h.params, Memory.inv_empty _ _, Regs.inv_reset _⟩

/-- A change of registers alone needs only their part of the invariant. -/
theorem State.Inv.with_regs {s : State} (h : s.Inv) {r : Regs} (hr : r.Inv s.params) :
    State.Inv { s with regs := r } := by
  obtain ⟨hp, hmem, _⟩ := s.inv_iff.mp h
  exact (State.inv_iff _).mpr ⟨hp, hmem, hr⟩

theorem State.Inv.setWib {s : State} (h : s.Inv) : s.setWib.Inv :=
  h.with_regs ((s.inv_iff.mp h).2.2.of_eq rfl rfl rfl rfl rfl rfl rfl rfl)

theorem State.Inv.setAerr {s : State} (h : s.Inv) : s.setAerr.Inv :=
  h.with_regs ((s.inv_iff.mp h).2.2.of_eq rfl rfl rfl rfl rfl rfl rfl rfl)

/-- What a read returns, and the counter of free values, are outside the invariant. -/
theorem State.Inv.of_read {s t : State} (h : s.Inv) (hp : t.params = s.params) (hmem : t.mem = s.mem)
    (hregs : t.regs = s.regs) : t.Inv := by
  rw [State.inv_iff] at h ⊢
  rwa [hp, hmem, hregs]

theorem State.Inv.writeIdle {s : State} (h : s.Inv) {r : Regs} (hr : r.Inv s.params) : (s.writeIdle r).Inv := by
  unfold State.writeIdle
  split
  · exact h.setWib
  · exact h.with_regs hr

theorem State.Inv.writeReg {s : State} (h : s.Inv) (r : Reg) (v : Word) : (s.writeReg r v).Inv := by
  obtain ⟨hp, hmem, hregs⟩ := s.inv_iff.mp h
  cases r with
  | ctrl =>
    simp only [State.writeReg]
    split
    · exact h.softReset
    · exact h.with_regs (hregs.of_eq rfl rfl rfl rfl rfl rfl rfl rfl)
  | status => exact h.with_regs (State.inv_acknowledge hregs v)
  | cmd =>
    simp only [State.writeReg]
    split
    · exact h.setWib
    · exact h.with_regs (State.inv_issue hregs v)
  | dinLen | keyLen | mtLen | symLen | ksLen | ksReq =>
    exact h.writeIdle (hregs.of_eq rfl rfl rfl rfl rfl rfl rfl rfl)
  | id | version | errpos | doutLen | hash | lcg | capDin | capDout | capKey | capMt | capSym => exact h

theorem State.Inv.hostRead {s : State} (h : s.Inv) (off width : Nat) : (s.hostRead off width).Inv := by
  rcases s.hostRead_cases off width with ⟨v, heq⟩ | ⟨_, heq⟩ | heq <;> rw [heq]
  · exact h.of_read rfl rfl rfl
  · exact h.of_read rfl rfl rfl
  · exact h.setAerr.of_read rfl rfl rfl

theorem State.Inv.hostWrite {s : State} (h : s.Inv) (off width : Nat) (v : Word) : (s.hostWrite off width v).Inv := by
  obtain ⟨hp, hmem, hregs⟩ := s.inv_iff.mp h
  rcases s.hostWrite_cases off width v with ⟨r, heq⟩ | heq | ⟨_, heq⟩ | ⟨_, h4, hwindow, heq⟩ | heq <;> rw [heq]
  · exact h.writeReg r v
  · exact h
  · exact h.setWib
  · exact (State.inv_iff _).mpr ⟨hp, hmem.storeWord hp h4 hwindow v, hregs⟩
  · exact h.setAerr

theorem State.Inv.performAccess {s : State} (h : s.Inv) (a : Access) : (s.performAccess a).Inv := by
  rcases s.performAccess_cases a with ⟨off, width, heq⟩ | ⟨off, width, v, heq⟩ | heq <;> rw [heq]
  · exact h.hostRead off width
  · exact h.hostWrite off width v
  · exact h

/-- The event list is outside the invariant. -/
theorem State.Inv.with_pending {s : State} (h : s.Inv) (rest : List Event) : State.Inv { s with pending := rest } :=
  h.of_read rfl rfl rfl

/-- Settles O9: each of the four kinds of step keeps the invariant. -/
theorem everyStepKeepsTheInvariant : Obligations.EveryStepKeepsTheInvariant := by
  intro s t h hstep
  obtain ⟨_, ⟨_, rfl⟩ | ⟨rest, _, rfl⟩ | ⟨a, rest, _, rfl⟩ | ⟨rest, _, rfl⟩⟩ := step_cases hstep
  · exact h.afterTurn
  · exact (h.with_pending rest).afterTurn
  · exact (h.with_pending rest).performAccess a
  · exact (h.with_pending rest).powerCycle

/-- Settles O10: the default parameters are legal, nothing is written, and the registers are at reset. -/
theorem resetMeetsTheInvariant : Obligations.ResetMeetsTheInvariant :=
  (State.inv_iff _).mpr ⟨by decide, Memory.inv_empty _ _, Regs.inv_reset _⟩

end Sys2Proof.Machine
end

section
/-! A word write to a window, element by element (spec/20_memory.md R72 to R74). -/

namespace Sys2Proof.Machine

/-- The element of R72: byte lane `j` of the word. -/
theorem Memory.byte_storeWord_lane (m : Memory) (off : Nat) (v : Word) {j : Nat} (hj : j < 4) :
    (m.storeWord off v).byte (off + j) = v.extractLsb' (8 * j) 8 := by
  rw [Memory.byte_storeWord, if_pos (by omega), Nat.add_sub_cancel_left]

/-- The element of R73: code unit `j` of the word is its half `j`. -/
theorem Memory.unit_storeWord (m : Memory) (win w : Nat) (v : Word) {j : Nat} (hj : j < 2) :
    (m.storeWord (win + 4 * w) v).unit win (2 * w + j) = v.extractLsb' (16 * j) 16 := by
  have hlow := m.byte_storeWord_lane (win + 4 * w) v (j := 2 * j) (by omega)
  have hhigh := m.byte_storeWord_lane (win + 4 * w) v (j := 2 * j + 1) (by omega)
  rw [Memory.unit, show win + 2 * (2 * w + j) + 1 = win + 4 * w + (2 * j + 1) by omega,
    show win + 2 * (2 * w + j) = win + 4 * w + 2 * j by omega, hhigh, hlow, show 8 * (2 * j) = 16 * j by omega]
  exact BitVec.extractLsb'_append_extractLsb'_eq_extractLsb' (by omega)

/-- A field of a field is a field of the whole. -/
theorem extractLsb'_extractLsb'_of_add_le {n : Nat} (x : BitVec n) {lo len lo' len' : Nat} (h : lo' + len' ≤ len) :
    (x.extractLsb' lo len).extractLsb' lo' len' = x.extractLsb' (lo + lo') len' := by
  refine BitVec.eq_of_getLsbD_eq fun i hi => ?_
  simp only [BitVec.getLsbD_extractLsb', hi, show lo' + i < len by omega, decide_true, Bool.true_and, Nat.add_assoc]

/-- The element of R74: symbol `q` of byte lane `j`. -/
theorem Memory.sym_storeWord (m : Memory) (win w : Nat) (v : Word) {j q : Nat} (hj : j < 4) (hq : q < 4) :
    (m.storeWord (win + 4 * w) v).sym win (16 * w + 4 * j + q) = v.extractLsb' (8 * j + 6 - 2 * q) 2 := by
  have hlane := m.byte_storeWord_lane (win + 4 * w) v hj
  rw [Memory.sym, show win + (16 * w + 4 * j + q) / 4 = win + 4 * w + j by omega,
    show (16 * w + 4 * j + q) % 4 = q by omega, hlane, laneSymbol,
    show 8 * j + 6 - 2 * q = 8 * j + (6 - 2 * q) by omega]
  exact extractLsb'_extractLsb'_of_add_le v (by omega)

/-- Settles O27: the block stores the value's four bytes, and every element of the word lies in them. -/
theorem windowWritesStoreTheElements : Obligations.WindowWritesStoreTheElements := by
  intro s off w v hidle h4 hwindow
  have hwrite : s.hostWrite off 32 v = { s with mem := s.mem.storeWord off v } := by
    rw [s.hostWrite_inMappedWindow v hwindow h4, if_neg (by simp [hidle])]
  refine ⟨s.mem.storeWord off v, hwrite, ?readBack, fun a ha => ?outside, fun j => s.mem.byte_storeWord_lane off v,
    ?unit, ?sym, ?ks⟩
  case readBack =>
    rw [hwrite]
    refine (State.hostRead_inMappedWindow { s with mem := s.mem.storeWord off v } hwindow h4).trans ?_
    rw [if_neg (by simp [hidle]), Memory.word_storeWord_self]
    rfl
  case outside => rw [Memory.byte_storeWord, if_neg ha]
  case unit => rintro rfl j hj; exact s.mem.unit_storeWord keyWin w v hj
  case sym => rintro rfl j q hj hq; exact s.mem.sym_storeWord symWin w v hj hq
  case ks => rintro rfl j q hj hq; exact s.mem.sym_storeWord ksWin w v hj hq

end Sys2Proof.Machine
end

section
/-! The command in flight (spec/20_memory.md R84; spec/70_reset_and_hazards.md R308). -/

namespace Sys2Proof.Machine

/-- `t` is `s` with the same command in flight: nothing differs but IE, flags and the model's own fields. -/
structure State.SameFlight (s t : State) : Prop where
  params : t.params = s.params
  mem : t.mem = s.mem
  regs : t.regs = { s.regs with ie := t.regs.ie, status := t.regs.status }
  busy : t.regs.status.busy = true

theorem State.SameFlight.refl {s : State} (h : s.regs.status.busy = true) : s.SameFlight s :=
  ⟨rfl, rfl, rfl, h⟩

theorem State.SameFlight.trans {s t u : State} (h : s.SameFlight t) (h' : t.SameFlight u) : s.SameFlight u :=
  ⟨h'.params.trans h.params, h'.mem.trans h.mem, by rw [h'.regs, h.regs], h'.busy⟩

theorem State.SameFlight.evalWord_eq {s t : State} (h : s.SameFlight t) :
    evalWord t.regs.cmd t = evalWord s.regs.cmd s := by
  rw [show t.regs.cmd = s.regs.cmd by rw [h.regs]]
  exact evalWord_congr _ h.params h.mem ⟨_, _, _, _, h.regs⟩

theorem State.sameFlight_setWib {s : State} (h : s.regs.status.busy = true) : s.SameFlight s.setWib :=
  ⟨rfl, rfl, rfl, h⟩

theorem State.sameFlight_setAerr {s : State} (h : s.regs.status.busy = true) : s.SameFlight s.setAerr :=
  ⟨rfl, rfl, rfl, h⟩

theorem State.sameFlight_hostRead {s : State} (h : s.regs.status.busy = true) (off width : Nat) :
    s.SameFlight (s.hostRead off width) := by
  rcases s.hostRead_cases off width with ⟨v, heq⟩ | ⟨_, heq⟩ | heq <;> rw [heq] <;> exact ⟨rfl, rfl, rfl, h⟩

/-- Only the soft reset ends the command; every other write to a register leaves it in flight (R300). -/
theorem State.sameFlight_writeReg {s : State} (h : s.regs.status.busy = true) (r : Reg) (v : Word)
    (hafter : (s.writeReg r v).regs.status.busy = true) : s.SameFlight (s.writeReg r v) := by
  cases r with
  | ctrl =>
    simp only [State.writeReg] at hafter ⊢
    split
    · simp_all [Regs.reset, Status.reset]
    · exact ⟨rfl, rfl, rfl, h⟩
  | status => exact ⟨rfl, rfl, rfl, h⟩
  | cmd | dinLen | keyLen | mtLen | symLen | ksLen | ksReq =>
    rw [State.writeReg_busy h (by decide)]
    exact State.sameFlight_setWib h
  | id | version | errpos | doutLen | hash | lcg | capDin | capDout | capKey | capMt | capSym =>
    exact .refl h

theorem State.sameFlight_performAccess {s : State} (h : s.regs.status.busy = true) (a : Access)
    (hafter : (s.performAccess a).regs.status.busy = true) : s.SameFlight (s.performAccess a) := by
  rcases s.performAccess_cases a with ⟨off, width, heq⟩ | ⟨off, width, v, heq⟩ | heq
  · rw [heq]; exact State.sameFlight_hostRead h off width
  · rw [heq] at hafter ⊢
    rcases s.hostWrite_cases off width v with ⟨r, hw⟩ | hw | ⟨_, hw⟩ | ⟨hidle, _⟩ | hw
    · rw [hw] at hafter ⊢; exact State.sameFlight_writeReg h r v hafter
    · rw [hw]; exact .refl h
    · rw [hw]; exact State.sameFlight_setWib h
    · simp [h] at hidle
    · rw [hw]; exact State.sameFlight_setAerr h
  · rw [heq]; exact .refl h

theorem State.sameFlight_foldl {s : State} {accesses : List Access}
    (h : ∀ n, n ≤ accesses.length → ((accesses.take n).foldl State.performAccess s).regs.status.busy = true) :
    s.SameFlight (accesses.foldl State.performAccess s) := by
  induction accesses generalizing s with
  | nil => exact .refl (h 0 le_rfl)
  | cons a rest ih =>
    have hfirst : s.SameFlight (s.performAccess a) :=
      State.sameFlight_performAccess (h 0 (Nat.zero_le _)) a (h 1 (by simp))
    exact hfirst.trans (ih fun n hn => h (n + 1) (by simpa using hn))

theorem Status.eq_of_busy {st : Status} (h : st.busy = true) :
    ∃ done err wib aerr errcode, st = ⟨true, done, err, wib, aerr, errcode⟩ := by
  cases st; cases h; exact ⟨_, _, _, _, _, rfl⟩

/-- Settles O29: no access of the list ends the command, and nothing it reads or writes has changed. -/
theorem hostCannotDisturbACommandInFlight : Obligations.HostCannotDisturbACommandInFlight := by
  intro s accesses h
  have hflight := State.sameFlight_foldl h
  obtain ⟨done, err, wib, aerr, errcode, hstatus⟩ := Status.eq_of_busy hflight.busy
  exact ⟨hflight.evalWord_eq, hflight.mem, _, done, err, wib, aerr, errcode, hstatus ▸ hflight.regs⟩

end Sys2Proof.Machine
end

section
/-! What a store to the start of a window changes, and what it leaves (spec/40_command_execution.md R106). -/

namespace Sys2Proof.Machine

theorem symBytes_four_mul (n : Nat) : symBytes (4 * n) = n := by
  unfold symBytes; omega

theorem Memory.sameOutside_storeSyms (m : Memory) (win : Nat) {qs : List Symbol} {n : Nat} (h : qs.length = n) :
    SameOutside m (m.storeSyms win 0 qs) win (symBytes n) := by
  subst h
  intro a ha
  unfold symBytes at ha
  exact m.byte_storeSyms_out win 0 a qs (by omega)

theorem Memory.sameOutside_storeBytes (m : Memory) (win : Nat) {bs : List Byte} {n : Nat} (h : bs.length = n) :
    SameOutside m (m.storeBytes win bs) win n := by
  subst h
  exact fun a ha => m.byte_storeBytes_out win a bs ha

theorem Memory.sameSymbolsFrom_storeSyms (m : Memory) (win cap : Nat) {qs : List Symbol} {n : Nat}
    (h : qs.length = n) : SameSymbolsFrom m (m.storeSyms win 0 qs) win n cap := by
  subst h
  exact fun i hi _ => m.sym_storeSyms_out win i qs hi

end Sys2Proof.Machine
end

section
/-! The results of the commands that write one buffer (spec/40_command_execution.md R123, R129; spec/41_codec.md R147,
R148; spec/42_keystream.md R164; spec/43_substitution.md R185, R186; spec/44_framer.md R211). -/

namespace Sys2Proof.Machine

/-- Settles O30: NOP succeeds with no writes. -/
theorem nopOnlyCompletes : Obligations.NopOnlyCompletes := fun _ => exec_of_eval_ok (i := .nop) rfl

/-! ### Codec -/

theorem State.getElem_symbolsOfBytes_din (s : State) (i : Nat) (h : i < (symbolsOfBytes s.din).length) :
    (symbolsOfBytes s.din)[i] = s.dinSymbol i := by
  rw [getElem_symbolsOfBytes, State.getElem_din]; rfl

/-- Settles O31: PACK stores the symbols of DIN at the start of SYM. -/
theorem packResult : Obligations.PackResult := by
  intro s hdin hsym
  refine ⟨s.mem.storeSyms symWin 0 (symbolsOfBytes s.din),
    exec_of_eval_ok (i := .pack) ((evalPack_ok s _).mpr ⟨hdin, hsym, rfl⟩), fun i hi => ?sym, ?frame⟩
  case sym =>
    have hi' : i < (symbolsOfBytes s.din).length := by simpa using hi
    rw [Memory.sym_storeSyms_in _ _ _ _ hi', State.getElem_symbolsOfBytes_din]
  case frame =>
    have hlength : (symbolsOfBytes s.din).length = 4 * s.regs.dinLen.toNat := by simp
    have hframe := s.mem.sameOutside_storeSyms symWin hlength
    rwa [symBytes_four_mul] at hframe

/-- Settles O32: UNPACK stores the bytes of SYM at the start of DOUT. -/
theorem unpackResult : Obligations.UnpackResult := by
  intro s hsym hdout
  refine ⟨s.mem.storeBytes doutWin (bytesOfSymbols s.symbols),
    exec_of_eval_ok (i := .unpack) ((evalUnpack_ok s _).mpr ⟨hsym, hdout, rfl⟩), fun i hi => ?byte, ?frame⟩
  case byte =>
    have hi' : i < (bytesOfSymbols s.symbols).length := by simpa using hi
    simp only [Memory.byte_storeBytes_in _ _ _ _ hi', getElem_bytesOfSymbols, State.getElem_symbols]
  case frame => exact s.mem.sameOutside_storeBytes doutWin (by simp)

/-! ### Key stream -/

theorem State.hashOfKey_eq (s : State) : s.hashOfKey = passHash s.key := rfl

theorem stateAfter_eq (h j : Nat) : stateAfter h j = lcgNext^[j] h := rfl

theorem State.deriveKeyStream_state (s : State) (n : Nat) :
    (deriveKeyStream s.key n).state = stateAfter s.hashOfKey n := by
  rw [deriveKeyStream_state_eq, drawSymbols_state, stateAfter_eq, State.hashOfKey_eq]

/-- Symbol `j` of the key stream is drawn in the state after `j + 1` steps (R161). -/
theorem State.getElem_deriveKeyStream (s : State) (n j : Nat) (h : j < (deriveKeyStream s.key n).ks.length) :
    (deriveKeyStream s.key n).ks[j] = BitVec.ofNat 2 (stateAfter s.hashOfKey (j + 1) / 58320) := by
  simp only [deriveKeyStream_ks, getElem_drawSymbols]
  rw [lcgSymbol, stateAfter_eq, State.hashOfKey_eq]

/-- Settles O33: DERIVE stores the key stream at the start of KS. -/
theorem deriveResult : Obligations.DeriveResult := by
  intro s hkey hreq hne
  have heval := (evalDerive_ok s _).mpr ⟨hkey, hreq, hne, rfl⟩
  have hlength : (deriveKeyStream s.key s.regs.ksReq.toNat).ks.length = s.regs.ksReq.toNat :=
    length_deriveKeyStream _ _
  refine ⟨s.mem.storeSyms ksWin 0 (deriveKeyStream s.key s.regs.ksReq.toNat).ks, ?exec, fun j hj => ?sym, ?rest, ?frame⟩
  case exec =>
    rw [← State.deriveKeyStream_state]
    exact exec_of_eval_ok (i := .derive) heval
  case sym => rw [Memory.sym_storeSyms_in _ _ _ _ (hlength.symm ▸ hj), State.getElem_deriveKeyStream]
  case rest => exact s.mem.sameSymbolsFrom_storeSyms ksWin _ hlength
  case frame => exact s.mem.sameOutside_storeSyms ksWin hlength

/-! ### Substitution -/

theorem State.checkKeyStream_iff (s : State) : (s.regs.symLen.toNat = 0 ∨ 0 < s.regs.ksLen.toNat) ↔
    (s.regs.symLen = 0 ∨ s.regs.ksLen ≠ 0) := by
  rw [← BitVec.toNat_inj, Nat.pos_iff_ne_zero, ne_eq, ne_eq, ← BitVec.toNat_inj]; rfl

/-- Where there is a symbol to transform there is a key symbol (R185). -/
theorem State.keySymbol_keyStream {s : State} {i : Nat} (hi : i < s.regs.symLen.toNat)
    (h : s.regs.symLen = 0 ∨ s.regs.ksLen ≠ 0) :
    keySymbol s.keyStream i = s.mem.sym ksWin (i % s.regs.ksLen.toNat) := by
  have hks : 0 < s.regs.ksLen.toNat := by
    refine (s.checkKeyStream_iff.mpr h).resolve_left fun hzero => ?_
    omega
  rw [keySymbol_eq _ _ (by rwa [State.length_keyStream]), State.getElem_keyStream]
  simp only [State.length_keyStream]

/-- Settles O34: SUBST stores the substituted symbols over the symbols of SYM. -/
theorem substResult : Obligations.SubstResult := by
  intro s hsym hks hkey
  have heval := (evalSubst_ok s _).mpr ⟨hsym, hks, s.checkKeyStream_iff.mpr hkey, rfl⟩
  have hlength : (substitute s.params.table s.symbols s.keyStream).length = s.regs.symLen.toNat := by simp
  refine ⟨s.mem.storeSyms symWin 0 (substitute s.params.table s.symbols s.keyStream),
    exec_of_eval_ok (i := .subst) heval, fun i hi => ?sym, ?rest, ?frame⟩
  case sym =>
    rw [Memory.sym_storeSyms_in _ _ _ _ (hlength.symm ▸ hi), getElem_substitute, State.getElem_symbols,
      State.keySymbol_keyStream hi hkey]
  case rest => exact s.mem.sameSymbolsFrom_storeSyms symWin _ hlength
  case frame => exact s.mem.sameOutside_storeSyms symWin hlength

theorem isLatin_of_legal {p : Params} (h : paramsLegal p = true) : isLatin p.table = true := by
  obtain ⟨_, _, _, _, _, _, _, _, _, _, _, _, _, _, _, _, hlatin⟩ := (paramsLegal_iff p).mp h
  exact hlatin

/-- Settles O35: UNSUBST stores the symbols mapped back, which the table of a legal block maps forth again. -/
theorem unsubstResult : Obligations.UnsubstResult := by
  intro s hp hsym hks hkey
  have heval := (evalUnsubst_ok s _).mpr ⟨hsym, hks, s.checkKeyStream_iff.mpr hkey, rfl⟩
  have hlength : (unsubstitute s.params.table s.symbols s.keyStream).length = s.regs.symLen.toNat := by simp
  refine ⟨s.mem.storeSyms symWin 0 (unsubstitute s.params.table s.symbols s.keyStream),
    exec_of_eval_ok (i := .unsubst) heval, fun i hi => ?sym, ?rest, ?frame⟩
  case sym =>
    rw [Memory.sym_storeSyms_in _ _ _ _ (hlength.symm ▸ hi), getElem_unsubstitute, State.getElem_symbols,
      State.keySymbol_keyStream hi hkey, tableAt_tableInv (isLatin_of_legal hp)]
  case rest => exact s.mem.sameSymbolsFrom_storeSyms symWin _ hlength
  case frame => exact s.mem.sameOutside_storeSyms symWin hlength

/-! ### Framer -/

/-- The container, character by character as R205 and R208 spell it. -/
theorem State.encodeContainer_eq (s : State) (seq : List Symbol) (untag : Bool) : encodeContainer seq s.mt untag =
    if untag then b64enc (seq.map symbolChar)
    else b64enc ([0x7B, 0x22, 0x74, 0x79, 0x70, 0x65, 0x22, 0x3A, 0x22]
        ++ (if s.regs.mtLen = 0 then [0x74, 0x65, 0x78, 0x74, 0x2F, 0x70, 0x6C, 0x61, 0x69, 0x6E] else s.mt)
        ++ [0x22, 0x7D]) ++ [0x3A] ++ b64enc (seq.map symbolChar) := by
  have hmedia : mediaTypeOr s.mt = if s.regs.mtLen = 0 then textPlain else s.mt := by
    simp only [← State.mt_eq_nil_iff]
    cases s.mt <;> rfl
  rw [encodeContainer, hmedia]; rfl

/-- Settles O36: FRAME stores the container at the start of DOUT. -/
theorem frameResult : Obligations.FrameResult := by
  intro s untag hsym hmt hdout
  have hlength := s.length_encodeContainer s.symbols untag
  rw [State.length_symbols] at hlength
  have heval := (evalFrame_ok untag s _).mpr ⟨hsym, hmt.imp_right And.left, hmt.imp_right And.right,
    hlength.trans_le hdout, rfl⟩
  refine ⟨s.mem.storeBytes doutWin (encodeContainer s.symbols s.mt untag), encodeContainer s.symbols s.mt untag, ?exec,
    hlength, s.encodeContainer_eq _ untag, fun i hi => s.mem.byte_storeBytes_in doutWin i _ hi,
    s.mem.sameOutside_storeBytes doutWin rfl⟩
  rw [← hlength]
  exact exec_of_eval_ok (i := .frame untag) heval

end Sys2Proof.Machine
end

section
/-! The results of the commands that write several buffers (spec/44_framer.md R212; spec/45_pipeline.md R240, R241). -/

namespace Sys2Proof.Machine

/-! ### The four prefixes of an update -/

theorem Memory.sym_applyUpdate_in (m : Memory) {u : Update} (hu : u.Fits) {i : Nat} (h : i < u.sym.length) :
    (m.applyUpdate u).sym symWin i = u.sym[i] := by
  have hfits := hu.sym
  rw [m.sym_applyUpdate u hu i (by omega), dif_pos h]

theorem Memory.ks_applyUpdate_in (m : Memory) {u : Update} (hu : u.Fits) {i : Nat} (h : i < u.ks.length) :
    (m.applyUpdate u).sym ksWin i = u.ks[i] := by
  have hfits := hu.ks
  rw [m.ks_applyUpdate u hu i (by omega), dif_pos h]

theorem Memory.sameSymbolsFrom_applyUpdate_sym (m : Memory) {u : Update} (hu : u.Fits) {n cap : Nat}
    (hn : u.sym.length = n) (hcap : cap ≤ 8388608) : SameSymbolsFrom m (m.applyUpdate u) symWin n cap := by
  intro i hi hlt
  rw [m.sym_applyUpdate u hu i (by omega), dif_neg (by omega)]

theorem Memory.sameSymbolsFrom_applyUpdate_ks (m : Memory) {u : Update} (hu : u.Fits) {n cap : Nat}
    (hn : u.ks.length = n) (hcap : cap ≤ 8388608) : SameSymbolsFrom m (m.applyUpdate u) ksWin n cap := by
  intro i hi hlt
  rw [m.ks_applyUpdate u hu i (by omega), dif_neg (by omega)]

/-- A byte outside the four prefixes stays; the lengths of the prefixes as a statement gives them. -/
theorem Memory.byte_applyUpdate_outside (m : Memory) {u : Update} {nsym nks ndout nmt a : Nat}
    (hsym : u.sym.length = nsym) (hks : u.ks.length = nks) (hdout : u.dout.length = ndout) (hmt : u.mt.length = nmt)
    (h1 : ¬ (symWin ≤ a ∧ a < symWin + symBytes nsym)) (h2 : ¬ (ksWin ≤ a ∧ a < ksWin + symBytes nks))
    (h3 : ¬ (doutWin ≤ a ∧ a < doutWin + ndout)) (h4 : ¬ (mtWin ≤ a ∧ a < mtWin + nmt)) :
    (m.applyUpdate u).byte a = m.byte a := by
  subst hsym hks hdout hmt
  exact m.byte_applyUpdate_out u a h1 h2 h3 h4

/-- A legal block has at most 2^23 symbols in SYM and in KS (R7). -/
theorem pSym_le_of_legal {p : Params} (h : paramsLegal p = true) : p.pSym ≤ 8388608 := by
  obtain ⟨_, _, _, _, _, _, _, _, _, _, _, _, _, hpSym, _⟩ := (paramsLegal_iff p).mp h
  exact hpSym

/-! ### UNFRAME -/

/-- The results of UNFRAME on a container that holds `p` (R212). -/
def Parsed.unframeUpdate (p : Parsed) : Update where
  sym := p.seq
  symLen := some (BitVec.ofNat 32 p.seq.length)
  mt := p.mt
  mtLen := some (BitVec.ofNat 32 p.mt.length)

theorem evalInstr_unframe_ok {s : State} {k : PayloadKind} {p : Parsed} (hdin : s.regs.dinLen.toNat ≤ s.params.pDin)
    (hparse : parseContainer s.din k = .ok p) (hsym : p.seq.length ≤ s.params.pSym)
    (hmt : p.mt.length ≤ s.params.pMt) : evalInstr (.unframe (.supported k)) s = .ok p.unframeUpdate :=
  (evalUnframe_ok _ s _).mpr ⟨k, p, rfl, hdin, hparse, hsym, hmt, rfl⟩

/-- Settles O37: UNFRAME stores the parsed symbols and the media type at the start of SYM and MT. -/
theorem unframeResult : Obligations.UnframeResult := by
  intro s k p hp hdin hparse hsym hmt
  have heval := evalInstr_unframe_ok hdin hparse hsym hmt
  have hfits := (evalInstr_within heval).fits hp
  refine ⟨s.mem.applyUpdate p.unframeUpdate, exec_of_eval_ok heval, fun i hi => s.mem.sym_applyUpdate_in hfits hi,
    fun i hi => s.mem.mt_applyUpdate _ i hi, s.mem.sameSymbolsFrom_applyUpdate_sym hfits rfl (pSym_le_of_legal hp),
    fun a hsymOut hmtOut => s.mem.byte_applyUpdate_outside rfl rfl rfl rfl hsymOut ?ks ?dout hmtOut⟩
  case ks => simp [Parsed.unframeUpdate, symBytes]
  case dout => simp [Parsed.unframeUpdate]

/-! ### ENCRYPT -/

/-- The results of ENCRYPT (R240). -/
def State.encryptUpdate (s : State) (untag : Bool) : Update where
  sym := s.cipherSymbols
  symLen := some (BitVec.ofNat 32 (4 * s.regs.dinLen.toNat))
  ks := (deriveKeyStream s.key (4 * s.regs.dinLen.toNat)).ks
  ksLen := some (BitVec.ofNat 32 (4 * s.regs.dinLen.toNat))
  hash := some (BitVec.ofNat 32 (deriveKeyStream s.key (4 * s.regs.dinLen.toNat)).hash)
  lcg := some (BitVec.ofNat 32 (deriveKeyStream s.key (4 * s.regs.dinLen.toNat)).state)
  dout := s.cipherContainer untag
  doutLen := some (BitVec.ofNat 32 (s.cipherContainer untag).length)

/-- The checks that ENCRYPT passes (R240). -/
structure State.EncryptReady (s : State) (untag : Bool) : Prop where
  payload : s.regs.dinLen.toNat ≤ s.params.pDin
  key : s.KeyAccepted
  media : untag = true ∨ (s.regs.mtLen.toNat ≤ s.params.pMt ∧ ∀ c ∈ s.mt, mediaByteOk c = true)
  symbols : 4 * s.regs.dinLen.toNat ≤ s.params.pSym
  fitsDout : (s.cipherContainer untag).length ≤ s.params.pDout

theorem evalInstr_encrypt_ok_iff {s : State} {k : PayloadKind} {untag : Bool} {u : Update} :
    evalInstr (.encrypt (.supported k) untag) s = .ok u ↔ s.EncryptReady untag ∧ u = s.encryptUpdate untag := by
  refine (evalEncrypt_ok _ untag s u).trans ⟨?_, ?_⟩
  · rintro ⟨_, _, hdin, hkey, hmtLen, _, hmin, hmt, hsym, _, _, _, rfl, rfl, rfl, hdout, rfl⟩
    exact ⟨⟨hdin, ⟨hmin, hkey⟩, or_and_left.mpr ⟨hmtLen, hmt⟩, hsym, hdout⟩, rfl⟩
  · rintro ⟨⟨hdin, hkey, hmt, hsym, hdout⟩, rfl⟩
    exact ⟨k, rfl, hdin, hkey.2, hmt.imp_right And.left, hkey.ne_zero, hkey.1, hmt.imp_right And.right, hsym,
      _, _, _, rfl, rfl, rfl, hdout, rfl⟩

theorem keySymbol_of_lt {ks : List Symbol} {i : Nat} (h : i < ks.length) : keySymbol ks i = ks[i] := by
  simp only [keySymbol_eq ks i (by omega), Nat.mod_eq_of_lt h]

/-- Cipher symbol `j` is payload symbol `j` under key symbol `j`: the key stream is as long as the payload. -/
theorem State.getElem_cipherSymbols (s : State) {j : Nat} (hj : j < 4 * s.regs.dinLen.toNat)
    (h : j < s.cipherSymbols.length) :
    s.cipherSymbols[j] = tableAt s.params.table
      ((deriveKeyStream s.key (4 * s.regs.dinLen.toNat)).ks[j]'(by simpa using hj)) (s.dinSymbol j) := by
  simp only [State.cipherSymbols, getElem_substitute, State.getElem_symbolsOfBytes_din]
  rw [keySymbol_of_lt]

/-- Settles O38: ENCRYPT stores key stream, cipher symbols and container, each at the start of its buffer. -/
theorem encryptResult : Obligations.EncryptResult := by
  intro s k untag hp hdin hkeyMax hkeyMin hmt hsym hdout
  have hcontainer := s.length_cipherContainer untag
  have heval : evalInstr (.encrypt (.supported k) untag) s = .ok (s.encryptUpdate untag) :=
    evalInstr_encrypt_ok_iff.mpr ⟨⟨hdin, ⟨hkeyMin, hkeyMax⟩, hmt, hsym, hcontainer.trans_le hdout⟩, rfl⟩
  have hfits := (evalInstr_within heval).fits hp
  have hks : ∀ j (h : j < 4 * s.regs.dinLen.toNat), (s.mem.applyUpdate (s.encryptUpdate untag)).sym ksWin j
      = (deriveKeyStream s.key (4 * s.regs.dinLen.toNat)).ks[j]'(by simpa using h) := fun j h =>
    s.mem.ks_applyUpdate_in hfits _
  have hsyms : ∀ j (h : j < s.cipherSymbols.length), (s.mem.applyUpdate (s.encryptUpdate untag)).sym symWin j
      = s.cipherSymbols[j] := fun j h => s.mem.sym_applyUpdate_in hfits h
  refine ⟨s.mem.applyUpdate (s.encryptUpdate untag), s.cipherContainer untag, ?exec, fun j hj => ?ks, fun j hj => ?sym,
    ?container, hcontainer, fun i hi => s.mem.dout_applyUpdate _ hfits i hi, fun a hsymOut hksOut hdoutOut => ?frame⟩
  case exec =>
    rw [← hcontainer, ← State.deriveKeyStream_state]
    exact exec_of_eval_ok heval
  case ks => rw [hks j hj, State.getElem_deriveKeyStream]
  case sym =>
    have hj' : j < s.cipherSymbols.length := by simpa using hj
    rw [hsyms j hj', hks j hj, s.getElem_cipherSymbols hj]
  case container =>
    rw [State.cipherContainer]
    congr 1
    exact List.ext_getElem (by simp) fun j hj _ => by simp [hsyms j hj]
  case frame =>
    rw [← symBytes_four_mul s.regs.dinLen.toNat] at hsymOut hksOut
    exact s.mem.byte_applyUpdate_outside s.length_cipherSymbols (length_deriveKeyStream _ _) rfl rfl hsymOut hksOut
      hdoutOut (by simp [State.encryptUpdate])

/-! ### DECRYPT -/

/-- The symbols of the container with the substitution undone (R241). -/
def State.plainSymbols (s : State) (p : Parsed) : List Symbol :=
  unsubstitute s.params.table p.seq (deriveKeyStream s.key p.seq.length).ks

@[simp] theorem State.length_plainSymbols (s : State) (p : Parsed) : (s.plainSymbols p).length = p.seq.length := by
  simp [State.plainSymbols]

/-- The results of DECRYPT on a container that holds `p` (R241). -/
def State.decryptUpdate (s : State) (p : Parsed) : Update where
  sym := s.plainSymbols p
  symLen := some (BitVec.ofNat 32 p.seq.length)
  ks := (deriveKeyStream s.key p.seq.length).ks
  ksLen := some (BitVec.ofNat 32 p.seq.length)
  hash := some (BitVec.ofNat 32 (deriveKeyStream s.key p.seq.length).hash)
  lcg := some (BitVec.ofNat 32 (deriveKeyStream s.key p.seq.length).state)
  dout := bytesOfSymbols (s.plainSymbols p)
  doutLen := some (BitVec.ofNat 32 (p.seq.length / 4))
  mt := p.mt
  mtLen := some (BitVec.ofNat 32 p.mt.length)

/-- The checks that DECRYPT passes on a container that holds `p` (R241). -/
structure State.DecryptReady (s : State) (k : PayloadKind) (p : Parsed) : Prop where
  payload : s.regs.dinLen.toNat ≤ s.params.pDin
  key : s.KeyAccepted
  parse : parseContainer s.din k = .ok p
  symbols : p.seq.length ≤ s.params.pSym
  media : p.mt.length ≤ s.params.pMt
  fitsDout : p.seq.length / 4 ≤ s.params.pDout

theorem evalInstr_decrypt_ok_iff {s : State} {k : PayloadKind} {u : Update} :
    evalInstr (.decrypt (.supported k)) s = .ok u ↔ ∃ p, s.DecryptReady k p ∧ u = s.decryptUpdate p := by
  refine (evalDecrypt_ok _ s u).trans ⟨?_, ?_⟩
  · rintro ⟨_, p, hk, hdin, hkey, _, hmin, hparse, hsym, hmt, hdout, _, _, rfl, rfl, rfl⟩
    cases hk
    exact ⟨p, ⟨hdin, ⟨hmin, hkey⟩, hparse, hsym, hmt, hdout⟩, rfl⟩
  · rintro ⟨p, ⟨hdin, hkey, hparse, hsym, hmt, hdout⟩, rfl⟩
    exact ⟨k, p, rfl, hdin, hkey.2, hkey.ne_zero, hkey.1, hparse, hsym, hmt, hdout, _, _, rfl, rfl, rfl⟩

/-- The table maps each plain symbol back to the container's symbol, under key symbol `j` (R182). -/
theorem State.tableAt_plainSymbols {s : State} (h : isLatin s.params.table = true) (p : Parsed) {j : Nat}
    (hj : j < p.seq.length) :
    tableAt s.params.table ((deriveKeyStream s.key p.seq.length).ks[j]'(by simpa using hj))
      ((s.plainSymbols p)[j]'(by simpa using hj)) = p.seq[j] := by
  simp only [State.plainSymbols, getElem_unsubstitute]
  rw [keySymbol_of_lt (by simpa using hj), tableAt_tableInv h]

/-- Settles O39: DECRYPT stores key stream, plain symbols, bytes and media type, each at the start of its buffer. -/
theorem decryptResult : Obligations.DecryptResult := by
  intro s k p hp hdin hkeyMax hkeyMin hparse hsym hmt hdout
  have heval : evalInstr (.decrypt (.supported k)) s = .ok (s.decryptUpdate p) :=
    evalInstr_decrypt_ok_iff.mpr ⟨p, ⟨hdin, ⟨hkeyMin, hkeyMax⟩, hparse, hsym, hmt, hdout⟩, rfl⟩
  have hfits := (evalInstr_within heval).fits hp
  have hks : ∀ j (h : j < p.seq.length), (s.mem.applyUpdate (s.decryptUpdate p)).sym ksWin j
      = (deriveKeyStream s.key p.seq.length).ks[j]'(by simpa using h) := fun j h => s.mem.ks_applyUpdate_in hfits _
  have hsyms : ∀ j (h : j < p.seq.length), (s.mem.applyUpdate (s.decryptUpdate p)).sym symWin j
      = (s.plainSymbols p)[j]'(by simpa using h) := fun j h => s.mem.sym_applyUpdate_in hfits _
  refine ⟨s.mem.applyUpdate (s.decryptUpdate p), ?exec, fun j hj => ?ks, fun j hj => ?sym, fun i hi => ?dout,
    fun i hi => s.mem.mt_applyUpdate _ i hi,
    s.mem.sameSymbolsFrom_applyUpdate_sym hfits (s.length_plainSymbols p) (pSym_le_of_legal hp),
    s.mem.sameSymbolsFrom_applyUpdate_ks hfits (length_deriveKeyStream _ _) (pSym_le_of_legal hp),
    fun a => s.mem.byte_applyUpdate_outside (s.length_plainSymbols p) (length_deriveKeyStream _ _) ?bytes rfl⟩
  case exec =>
    rw [← State.deriveKeyStream_state]
    exact exec_of_eval_ok heval
  case ks => rw [hks j hj, State.getElem_deriveKeyStream]
  case sym => rw [hks j hj, hsyms j hj, State.tableAt_plainSymbols (isLatin_of_legal hp) p hj]
  case dout =>
    have hi' : i < (bytesOfSymbols (s.plainSymbols p)).length := by simpa using hi
    refine (s.mem.dout_applyUpdate _ hfits i hi').trans ?_
    rw [hsyms _ (by omega), hsyms _ (by omega), hsyms _ (by omega), hsyms _ (by omega)]
    exact getElem_bytesOfSymbols (s.plainSymbols p) i hi'
  case bytes => simp [State.decryptUpdate]

/-! ### Failed commands -/

/-- Settles O40: a success leaves ERR as it was, and a failure writes only STATUS and ERRPOS. -/
theorem failedCommandChangesOnlyTheReport : Obligations.FailedCommandChangesOnlyTheReport := by
  intro i s t hclear hexec herr
  cases heval : evalInstr i s with
  | ok u =>
    rw [exec_of_eval_ok heval] at hexec
    cases hexec
    simp [hclear] at herr
  | error e =>
    rw [exec_of_eval_error heval] at hexec
    cases hexec
    exact ⟨e.code.toByte_mem, rfl⟩

end Sys2Proof.Machine
end

section
/-! The checks that stop a command, with the error each reports (spec/40_command_execution.md R126 to R128;
spec/60_exceptions.md R263). -/

namespace Sys2Proof.Machine

/-- A command whose evaluation fails completes with the code and the position of the failing check. -/
theorem completesWithError {i : Instr} {s : State} {c : ErrCode} {pos : Nat}
    (h : evalInstr i s = .error ⟨c, BitVec.ofNat 32 pos⟩) : CompletesWithError i s c.toByte pos :=
  exec_of_eval_error h

/-! ### Each check, passed or failed -/

theorem State.checkKeyPresent_pass {s : State} (h : s.regs.keyLen ≠ 0) : s.checkKeyPresent = .ok () :=
  (s.checkKeyPresent_ok ()).mpr h

theorem State.checkKeyPresent_fail {s : State} (h : s.regs.keyLen = 0) :
    s.checkKeyPresent = .error ⟨.missingInput, BitVec.ofNat 32 Reg.keyLen.offset⟩ := by
  rw [State.checkKeyPresent, if_pos h]

theorem State.checkKeyLong_pass {s : State} (h : 8 ≤ s.regs.keyLen.toNat) : s.checkKeyLong = .ok () :=
  (s.checkKeyLong_ok ()).mpr h

theorem State.keyLen_ne_zero {s : State} (h : 8 ≤ s.regs.keyLen.toNat) : s.regs.keyLen ≠ 0 := by
  intro hzero
  simp [hzero] at h

theorem State.checkKeyLong_fail {s : State} (h : s.regs.keyLen.toNat < 8) :
    s.checkKeyLong = .error ⟨.keyTooShort, 0⟩ := by
  rw [State.checkKeyLong, if_pos (by exact h)]

theorem State.checkKeyStream_fail {s : State} (hsym : s.regs.symLen ≠ 0) (hks : s.regs.ksLen = 0) :
    s.checkKeyStream = .error ⟨.missingInput, BitVec.ofNat 32 Reg.ksLen.offset⟩ := by
  have hpos : 0 < s.regs.symLen.toNat := Nat.pos_of_ne_zero fun h => hsym (BitVec.eq_of_toNat_eq h)
  rw [State.checkKeyStream, if_pos ⟨hpos, by rw [hks]; rfl⟩]

theorem State.checkMediaLen_pass {s : State} {untag : Bool} (h : untag = true ∨ s.regs.mtLen.toNat ≤ s.params.pMt) :
    s.checkMediaLen untag = .ok () :=
  (s.checkMediaLen_ok untag ()).mpr h

theorem State.checkMediaLen_fail {s : State} (h : s.params.pMt < s.regs.mtLen.toNat) :
    s.checkMediaLen false = .error ⟨.lenRange, BitVec.ofNat 32 Reg.mtLen.offset⟩ :=
  State.checkLen_fail (r := .mtLen) h

theorem State.checkMediaBytes_pass {s : State} {untag : Bool}
    (h : untag = true ∨ ∀ c ∈ s.mt, mediaByteOk c = true) : s.checkMediaBytes untag = .ok () :=
  (s.checkMediaBytes_ok untag ()).mpr h

/-- The least invalid byte of MT is the one that the search finds (R211). -/
theorem State.checkMediaBytes_fail {s : State} {i : Nat} (hi : i < s.regs.mtLen.toNat)
    (hbad : mediaByteOk (s.mem.byte (mtWin + i)) = false)
    (hgood : ∀ j, j < i → mediaByteOk (s.mem.byte (mtWin + j)) = true) :
    s.checkMediaBytes false = .error ⟨.badMediaType, BitVec.ofNat 32 i⟩ := by
  have hfind : s.mt.findIdx? (fun c => !mediaByteOk c) = some i := by
    refine List.findIdx?_eq_some_iff_getElem.mpr ⟨by rwa [State.length_mt], ?_, fun j hj => ?_⟩
    · rw [State.getElem_mt, hbad]; rfl
    · rw [State.getElem_mt, hgood j hj]; decide
  simp only [State.checkMediaBytes, Bool.false_eq_true, if_false, hfind]

/-- How the parse of the container in DIN fails (R209). -/
theorem PayloadSegment.parseContainer_error {c r : List Byte} {base : Nat} (h : PayloadSegment c r base)
    (k : PayloadKind) :
    (∀ e, b64dec r = .error e → parseContainer c k = .error ⟨.containerDecode, BitVec.ofNat 32 (base + e)⟩)
      ∧ ∀ bytes j, b64dec r = .ok bytes → symbolsOfChars bytes = .error j →
        parseContainer c k = .error ⟨.symbolDecode, BitVec.ofNat 32 j⟩ := by
  obtain ⟨mt, hparse⟩ := h.parseContainer_eq k
  exact ⟨fun e he => by rw [hparse, parsePayload_of_error he],
    fun bytes j hb hj => by rw [hparse, parsePayload_of_symbol_error hb hj]⟩

end Sys2Proof.Machine
end

section
/-! The errors of the commands, in check order (spec/41_codec.md R147, R148; spec/42_keystream.md R164;
spec/43_substitution.md R185, R186; spec/44_framer.md R211, R212; spec/45_pipeline.md R240, R241). -/

namespace Sys2Proof.Machine

/-- Settles O41: the length of the input is checked before the room for the output. -/
theorem codecErrors : Obligations.CodecErrors := by
  refine fun s => ⟨fun h => ?packLen, fun hlen h => ?packCap, fun h => ?unpackLen, fun hlen h => ?unpackCap⟩
  case packLen =>
    have hfail := s.checkLen_fail (r := .dinLen) h
    exact completesWithError (c := .lenRange) (by simp only [evalInstr, evalPack, hfail, error_bind]; rfl)
  case packCap =>
    have hpass := s.checkLen_pass (r := .dinLen) hlen
    exact completesWithError (c := .capacity)
      (by simp only [evalInstr, evalPack, hpass, checkCap_fail h, ok_bind, error_bind])
  case unpackLen =>
    have hfail := s.checkLen_fail (r := .symLen) h
    exact completesWithError (c := .lenRange) (by simp only [evalInstr, evalUnpack, hfail, error_bind]; rfl)
  case unpackCap =>
    have hpass := s.checkLen_pass (r := .symLen) hlen
    exact completesWithError (c := .capacity)
      (by simp only [evalInstr, evalUnpack, hpass, checkCap_fail h, ok_bind, error_bind])

/-- Settles O42: the two lengths are checked before the presence of the passphrase, and one code unit is enough. -/
theorem deriveErrors : Obligations.DeriveErrors := by
  refine fun s => ⟨fun h => ?keyLen, fun hkey h => ?ksReq, fun hreq h => ?absent, fun hreq h hcap => ?one⟩
  case keyLen =>
    have hfail := s.checkLen_fail (r := .keyLen) h
    exact completesWithError (c := .lenRange) (by simp only [evalInstr, evalDerive, hfail, error_bind]; rfl)
  case ksReq =>
    have hpass := s.checkLen_pass (r := .keyLen) hkey
    have hfail := s.checkLen_fail (r := .ksReq) h
    exact completesWithError (c := .lenRange)
      (by simp only [evalInstr, evalDerive, hpass, hfail, ok_bind, error_bind]; rfl)
  case absent =>
    have hkey := s.checkLen_pass (r := .keyLen) (cap := s.params.pKey) (by simp [State.readReg, h])
    have hreq := s.checkLen_pass (r := .ksReq) hreq
    exact completesWithError (c := .missingInput)
      (by simp only [evalInstr, evalDerive, hkey, hreq, State.checkKeyPresent_fail h, ok_bind, error_bind]; rfl)
  case one =>
    have heval := (evalDerive_ok s _).mpr ⟨by simpa [h] using hcap, hreq, by simp [h], rfl⟩
    exact ⟨_, exec_of_eval_ok (i := .derive) heval, rfl⟩

/-- Settles O43: SUBST and UNSUBST make the same checks, both lengths before the presence of a key stream. -/
theorem substitutionErrors : Obligations.SubstitutionErrors := by
  intro s i hi
  have stop : ∀ e, (do s.checkLen .symLen s.params.pSym; s.checkLen .ksLen s.params.pSym; s.checkKeyStream) = .error e →
      evalInstr i s = .error e := by
    intro e he
    rcases hi with rfl | rfl
    · simpa [evalInstr, evalSubst, bind_eq_error, pure, Except.pure] using he
    · simpa [evalInstr, evalUnsubst, bind_eq_error, pure, Except.pure] using he
  refine ⟨fun h => ?symLen, fun hsym h => ?ksLen, fun hsym hne hks => ?missing⟩
  case symLen => exact completesWithError (c := .lenRange) (stop _ (by rw [s.checkLen_fail (r := .symLen) h]; rfl))
  case ksLen =>
    exact completesWithError (c := .lenRange)
      (stop _ (by rw [s.checkLen_pass (r := .symLen) hsym, s.checkLen_fail (r := .ksLen) h]; rfl))
  case missing =>
    have hlen : (s.readReg .ksLen).toNat ≤ s.params.pSym := by simp [State.readReg, hks]
    refine completesWithError (c := .missingInput) (stop _ ?_)
    rw [s.checkLen_pass (r := .symLen) hsym, s.checkLen_pass hlen, State.checkKeyStream_fail hne hks]
    rfl

/-- Settles O44: the symbols' length, then the media type of a tagged container, then the room for the container. -/
theorem frameErrors : Obligations.FrameErrors := by
  refine fun s untag => ⟨fun h => ?symLen, fun hsym h => ?mtLen, fun hsym hmt i hi hbad hgood => ?mtByte,
    fun hsym hmt h => ?capacity⟩
  case symLen =>
    have hfail := s.checkLen_fail (r := .symLen) h
    exact completesWithError (c := .lenRange) (by simp only [evalInstr, evalFrame, hfail, error_bind]; rfl)
  case mtLen =>
    have hsym := s.checkLen_pass (r := .symLen) hsym
    exact completesWithError (c := .lenRange)
      (by simp only [evalInstr, evalFrame, hsym, State.checkMediaLen_fail h, ok_bind, error_bind]; rfl)
  case mtByte =>
    have hsym := s.checkLen_pass (r := .symLen) hsym
    exact completesWithError (c := .badMediaType) (by simp only [evalInstr, evalFrame, hsym,
      State.checkMediaLen_pass (.inr hmt), State.checkMediaBytes_fail hi hbad hgood, ok_bind, error_bind])
  case capacity =>
    rw [← State.length_symbols, ← State.length_encodeContainer] at h ⊢
    have hsym := s.checkLen_pass (r := .symLen) hsym
    exact completesWithError (c := .capacity) (by simp only [evalInstr, evalFrame, hsym,
      State.checkMediaLen_pass (hmt.imp_right And.left), State.checkMediaBytes_pass (hmt.imp_right And.right),
      checkCap_fail h, ok_bind, error_bind])

/-- Settles O45: the kind, the length, the parse, and the room for what the container holds. -/
theorem unframeErrors : Obligations.UnframeErrors := by
  refine fun s => ⟨fun n _ _ => ?kind, fun k => ⟨fun h => ?dinLen, fun hdin => ⟨fun r base hseg => ?parse,
    fun p hparse => ⟨fun h => ?symCap, fun hsym h => ?mtCap⟩⟩⟩⟩
  case kind => exact completesWithError (c := .unsupportedKind) rfl
  case dinLen =>
    have hfail := s.checkLen_fail (r := .dinLen) h
    exact completesWithError (c := .lenRange)
      (by simp only [evalInstr, evalUnframe, checkKind, hfail, ok_bind, error_bind]; rfl)
  all_goals have hdin := s.checkLen_pass (r := .dinLen) hdin
  case parse =>
    have stop : ∀ e, parseContainer s.din k = .error e → evalInstr (.unframe (.supported k)) s = .error e := fun e he =>
      by simp only [evalInstr, evalUnframe, checkKind, hdin, he, ok_bind, error_bind]
    obtain ⟨hb64, hsym⟩ := hseg.parseContainer_error k
    exact ⟨fun e he => completesWithError (c := .containerDecode) (stop _ (hb64 e he)),
      fun bytes j hb hj => completesWithError (c := .symbolDecode) (stop _ (hsym bytes j hb hj))⟩
  case symCap =>
    exact completesWithError (c := .capacity) (by simp only [evalInstr, evalUnframe, checkKind, hdin, hparse,
      checkCap_fail h, ok_bind, error_bind])
  case mtCap =>
    exact completesWithError (c := .capacity) (by simp only [evalInstr, evalUnframe, checkKind, hdin, hparse,
      checkCap_pass hsym, checkCap_fail h, ok_bind, error_bind])

/-- Settles O46: the kind, the three lengths, the passphrase, the media type, and the room for symbols and container. -/
theorem encryptErrors : Obligations.EncryptErrors := by
  refine fun s untag => ⟨fun n _ _ => ?kind, fun k => ⟨fun h => ?dinLen, fun hdin h => ?keyLen,
    fun hdin hkey h => ?mtLen, fun hdin hkey hmtLen => ⟨fun h => ?absent, fun hne h => ?short, ?mtByte, fun hmin hmt => ⟨fun h => ?symCap,
      fun hsym h => ?doutCap⟩⟩⟩⟩
  case kind => exact completesWithError (c := .unsupportedKind) rfl
  case dinLen =>
    have hfail := s.checkLen_fail (r := .dinLen) h
    exact completesWithError (c := .lenRange)
      (by simp only [evalInstr, evalEncrypt, checkKind, hfail, ok_bind, error_bind]; rfl)
  all_goals have hdin := s.checkLen_pass (r := .dinLen) hdin
  case keyLen =>
    have hfail := s.checkLen_fail (r := .keyLen) h
    exact completesWithError (c := .lenRange)
      (by simp only [evalInstr, evalEncrypt, checkKind, hdin, hfail, ok_bind, error_bind]; rfl)
  all_goals have hkey := s.checkLen_pass (r := .keyLen) hkey
  case mtLen =>
    exact completesWithError (c := .lenRange) (by simp only [evalInstr, evalEncrypt, checkKind, hdin, hkey,
      State.checkMediaLen_fail h, ok_bind, error_bind]; rfl)
  all_goals have hmtLen := State.checkMediaLen_pass hmtLen
  case absent =>
    exact completesWithError (c := .missingInput) (by simp only [evalInstr, evalEncrypt, checkKind, hdin, hkey, hmtLen,
      State.checkKeyPresent_fail h, ok_bind, error_bind]; rfl)
  case short =>
    exact completesWithError (c := .keyTooShort) (by simp only [evalInstr, evalEncrypt, checkKind, hdin, hkey, hmtLen,
      State.checkKeyPresent_pass hne, State.checkKeyLong_fail h, ok_bind, error_bind]; rfl)
  case mtByte =>
    rintro hmin rfl i hi hbad hgood
    exact completesWithError (c := .badMediaType) (by simp only [evalInstr, evalEncrypt, checkKind, hdin, hkey, hmtLen,
      State.checkKeyPresent_pass (State.keyLen_ne_zero hmin), State.checkKeyLong_pass hmin,
      State.checkMediaBytes_fail hi hbad hgood, ok_bind, error_bind])
  all_goals
    have hpresent := State.checkKeyPresent_pass (State.keyLen_ne_zero hmin)
    have hlong := State.checkKeyLong_pass hmin
    have hmt := State.checkMediaBytes_pass hmt
  case symCap =>
    exact completesWithError (c := .capacity) (by simp only [evalInstr, evalEncrypt, checkKind, hdin, hkey, hmtLen,
      hpresent, hlong, hmt, checkCap_fail h, ok_bind, error_bind])
  case doutCap =>
    rw [← State.length_cipherContainer] at h ⊢
    exact completesWithError (c := .capacity) (by simp only [evalInstr, evalEncrypt, checkKind, hdin, hkey, hmtLen,
      hpresent, hlong, hmt, checkCap_pass hsym, ok_bind]; exact congrArg (· >>= _) (checkCap_fail h))

/-- Settles O47: the kind, the two lengths, the passphrase, the parse, and the room for symbols, media type, bytes. -/
theorem decryptErrors : Obligations.DecryptErrors := by
  refine fun s => ⟨fun n _ _ => ?kind, fun k => ⟨fun h => ?dinLen, fun hdin h => ?keyLen, fun hdin hkey =>
    ⟨fun h => ?absent, fun hne h => ?short, fun hmin => ⟨fun r base hseg => ?parse, fun p hparse =>
      ⟨fun h => ?symCap, fun hsym h => ?mtCap, fun hsym hmt h => ?doutCap⟩⟩⟩⟩⟩
  case kind => exact completesWithError (c := .unsupportedKind) rfl
  case dinLen =>
    have hfail := s.checkLen_fail (r := .dinLen) h
    exact completesWithError (c := .lenRange)
      (by simp only [evalInstr, evalDecrypt, checkKind, hfail, ok_bind, error_bind]; rfl)
  all_goals have hdin := s.checkLen_pass (r := .dinLen) hdin
  case keyLen =>
    have hfail := s.checkLen_fail (r := .keyLen) h
    exact completesWithError (c := .lenRange)
      (by simp only [evalInstr, evalDecrypt, checkKind, hdin, hfail, ok_bind, error_bind]; rfl)
  all_goals have hkey := s.checkLen_pass (r := .keyLen) hkey
  case absent =>
    exact completesWithError (c := .missingInput) (by simp only [evalInstr, evalDecrypt, checkKind, hdin, hkey,
      State.checkKeyPresent_fail h, ok_bind, error_bind]; rfl)
  case short =>
    exact completesWithError (c := .keyTooShort) (by simp only [evalInstr, evalDecrypt, checkKind, hdin, hkey,
      State.checkKeyPresent_pass hne, State.checkKeyLong_fail h, ok_bind, error_bind]; rfl)
  all_goals
    have hpresent := State.checkKeyPresent_pass (State.keyLen_ne_zero hmin)
    have hlong := State.checkKeyLong_pass hmin
  case parse =>
    have stop : ∀ e, parseContainer s.din k = .error e → evalInstr (.decrypt (.supported k)) s = .error e := fun e he =>
      by simp only [evalInstr, evalDecrypt, checkKind, hdin, hkey, hpresent, hlong, he, ok_bind, error_bind]
    obtain ⟨hb64, hsym⟩ := hseg.parseContainer_error k
    exact ⟨fun e he => completesWithError (c := .containerDecode) (stop _ (hb64 e he)),
      fun bytes j hb hj => completesWithError (c := .symbolDecode) (stop _ (hsym bytes j hb hj))⟩
  case symCap =>
    exact completesWithError (c := .capacity) (by simp only [evalInstr, evalDecrypt, checkKind, hdin, hkey, hpresent,
      hlong, hparse, checkCap_fail h, ok_bind, error_bind])
  case mtCap =>
    exact completesWithError (c := .capacity) (by simp only [evalInstr, evalDecrypt, checkKind, hdin, hkey, hpresent,
      hlong, hparse, checkCap_pass hsym, checkCap_fail h, ok_bind, error_bind])
  case doutCap =>
    exact completesWithError (c := .capacity) (by simp only [evalInstr, evalDecrypt, checkKind, hdin, hkey, hpresent,
      hlong, hparse, checkCap_pass hsym, checkCap_pass hmt, checkCap_fail h, ok_bind, error_bind])

end Sys2Proof.Machine
end

section
/-! The strict base64 decoder: its checks and its bytes (spec/44_framer.md R202, R204). -/

namespace Sys2Proof.Machine

/-- Settles O54: the decoder undoes the encoder, whose characters are the alphabet's and the pad character. -/
theorem base64RoundTrip : Obligations.Base64RoundTrip := fun b => ⟨b64dec_b64enc b, colonChar_notMem_b64enc b⟩

/-! ### Characters -/

/-- A value belongs to one character only: the five ranges of R202 do not overlap. -/
theorem b64Char_of_b64Value {c : Byte} {v : BitVec 6} (h : b64Value c = some v) : b64Char v = c := by
  refine BitVec.eq_of_toNat_eq ?_
  unfold b64Value at h
  unfold b64Char
  split_ifs at h <;> cases h <;> simp [*] <;> grind

/-- The characters with a value are those of the table (R202). -/
theorem isSome_b64Value_iff (c : Byte) : (b64Value c).isSome ↔ c ∈ alphabet := by
  constructor
  · intro h
    obtain ⟨v, hv⟩ := Option.isSome_iff_exists.mp h
    exact List.mem_of_getElem? ((getElem?_alphabet v).trans (congrArg some (b64Char_of_b64Value hv)))
  · intro h
    obtain ⟨i, hi, rfl⟩ := List.getElem_of_mem h
    have hv := getElem?_alphabet (BitVec.ofNat 6 i)
    have hlength : alphabet.length = 64 := by decide
    rw [BitVec.toNat_ofNat, Nat.mod_eq_of_lt (by omega), List.getElem?_eq_getElem hi, Option.some.injEq] at hv
    rw [hv, b64Value_b64Char]; rfl

theorem b64Legal_iff (c : Byte) : b64Legal c = true ↔ c = padChar ∨ c ∈ alphabet := by
  rw [b64Legal, Bool.or_eq_true, beq_iff_eq, isSome_b64Value_iff, or_comm]

theorem isSome_b64Value {c : Byte} (hlegal : b64Legal c = true) (hpad : c ≠ padChar) : (b64Value c).isSome := by
  simpa [b64Legal, hpad] using hlegal

theorem ne_padChar_of_isSome {c : Byte} (h : (b64Value c).isSome) : c ≠ padChar := by
  rintro rfl
  simp [b64Value_padChar] at h

/-- The decoder's value of a character is the one the statement's table gives it. -/
theorem HasValue.exists_char {p : List Byte} {i : Nat} {v : BitVec 6} (h : HasValue p i v) :
    ∃ c, p[i]? = some c ∧ b64ValueOrZero c = v := by
  rcases h with hchar | ⟨hpad, rfl⟩
  · exact ⟨b64Char v, hchar.trans (getElem?_alphabet v), b64ValueOrZero_b64Char v⟩
  · exact ⟨padChar, hpad, rfl⟩

/-! ### Quartets -/

theorem length_b64Quartets : ∀ p : List Byte, (b64Quartets p).length = 3 * (p.length / 4)
  | [] | [_] | [_, _] | [_, _, _] => by simp [b64Quartets]
  | a :: b :: c :: d :: rest => by
    simp only [b64Quartets, List.length_cons, length_b64Quartets rest]
    omega

/-- Byte `t` of quartet `j` (R204, check 4). -/
theorem getElem?_b64Quartets {t : Nat} {a b c d : Byte} (ht : t < 3) : ∀ (p : List Byte) (j : Nat),
    p[4 * j]? = some a → p[4 * j + 1]? = some b → p[4 * j + 2]? = some c → p[4 * j + 3]? = some d →
    (b64Quartets p)[3 * j + t]? = some ((b64ValueOrZero a ++ b64ValueOrZero b ++ b64ValueOrZero c
      ++ b64ValueOrZero d).extractLsb' (16 - 8 * t) 8)
  | [], _, _, _, _, hd | [_], _, _, _, _, hd | [_, _], _, _, _, _, hd | [_, _, _], _, _, _, _, hd => by simp at hd
  | w :: x :: y :: z :: rest, 0, ha, hb, hc, hd => by
    cases ha; cases hb; cases hc; cases hd
    match t, ht with
    | 0, _ | 1, _ | 2, _ => rfl
  | w :: x :: y :: z :: rest, j + 1, ha, hb, hc, hd => by
    rw [show 3 * (j + 1) + t = 3 * j + t + 3 by omega]
    exact getElem?_b64Quartets ht rest j ha hb hc hd

/-! ### What the decoder accepts -/

/-- The payload `p` is whole quartets: characters of the alphabet, and behind them `n` pad characters, at most two. -/
structure PaddedQuartets (p : List Byte) (n : Nat) : Prop where
  length_mod : p.length % 4 = 0
  le_two : n ≤ 2
  eq_append : ∃ body, (∀ c ∈ body, (b64Value c).isSome) ∧ p = body ++ List.replicate n padChar

theorem PaddedQuartets.b64dec_eq {p : List Byte} {n : Nat} (h : PaddedQuartets p n) :
    b64dec p = .ok ((b64Quartets p).take ((b64Quartets p).length - n)) := by
  obtain ⟨hlength, hn, body, hbody, rfl⟩ := h
  exact b64dec_append_pad hbody hn hlength

/-- The pad characters that `padCount` counts stand at the end. -/
theorem eq_take_append_replicate_padCount (p : List Byte) :
    p = p.take (p.length - padCount p) ++ List.replicate (padCount p) padChar := by
  have hsplit : p.rdropWhile (· == padChar) ++ p.rtakeWhile (· == padChar) = p := List.rdropWhile_append_rtakeWhile
  have hpads : p.rtakeWhile (· == padChar) = List.replicate (padCount p) padChar :=
    List.eq_replicate_iff.mpr ⟨by simp [padCount, List.rtakeWhile], fun c hc => by
      simpa using List.mem_rtakeWhile_imp hc⟩
  rw [hpads] at hsplit
  have hlength : p.length - padCount p = (p.rdropWhile (· == padChar)).length := by
    have hsum := congrArg List.length hsplit
    rw [List.length_append, List.length_replicate] at hsum
    omega
  have hfront := List.take_left (l₁ := p.rdropWhile (· == padChar)) (l₂ := List.replicate (padCount p) padChar)
  rw [hsplit, ← hlength] at hfront
  rw [hfront, hsplit]

/-- The checks 2 and 3 on legal characters in whole quartets: a payload that fails is reported at its first pad
character. -/
theorem paddedQuartets_or_b64dec_error {p : List Byte} (hlegal : ∀ c ∈ p, b64Legal c = true)
    (h4 : p.length % 4 = 0) :
    (∃ n, PaddedQuartets p n) ∨ b64dec p = .error (p.findIdx (· == padChar)) := by
  have hnone : p.findIdx? (fun c => !b64Legal c) = none :=
    List.findIdx?_eq_none_iff.mpr fun c hc => by rw [hlegal c hc]; rfl
  by_cases hfail : padCount p > 2 ∨ (p.take (p.length - padCount p)).any (· == padChar)
  · right
    simp only [b64dec, hnone, h4, hfail, ne_eq, not_true_eq_false, if_false, if_true]
  · left
    obtain ⟨hcount, hfront⟩ := not_or.mp hfail
    refine ⟨padCount p, h4, not_lt.mp hcount, _, fun c hc => ?_, eq_take_append_replicate_padCount p⟩
    refine isSome_b64Value (hlegal c (List.mem_of_mem_take hc)) ?_
    rintro rfl
    exact hfront (List.any_eq_true.mpr ⟨_, hc, by simp⟩)

/-- The characters and the length that an accepted payload has (R204, checks 1 to 3). -/
theorem exists_paddedQuartets_of_ok {p r : List Byte} (h : b64dec p = .ok r) : ∃ n, PaddedQuartets p n := by
  cases hfind : p.findIdx? (fun c => !b64Legal c) with
  | some i => simp [b64dec, hfind] at h
  | none =>
    have hlegal : ∀ c ∈ p, b64Legal c = true := by simpa using List.findIdx?_eq_none_iff.mp hfind
    have h4 : p.length % 4 = 0 := by
      by_contra hlength
      simp [b64dec, hfind, hlength] at h
    refine (paddedQuartets_or_b64dec_error hlegal h4).resolve_right fun herr => ?_
    rw [h] at herr
    cases herr

/-- Behind the first pad character of an accepted payload stand only pad characters, two with it at most. -/
theorem PaddedQuartets.cons_eq_replicate {front back : List Byte} {n : Nat}
    (h : PaddedQuartets (front ++ padChar :: back) n) (hfront : padChar ∉ front) :
    padChar :: back = List.replicate n padChar := by
  obtain ⟨_, _, body, hbody, heq⟩ := h
  rcases List.append_eq_append_iff.mp heq with ⟨between, rfl, hback⟩ | ⟨between, rfl, hback⟩
  · cases between with
    | nil => exact hback
    | cons c rest =>
      obtain ⟨rfl, _⟩ := List.cons_eq_cons.mp hback
      exact absurd rfl (ne_padChar_of_isSome (hbody padChar (by simp)))
  · cases between with
    | nil => exact hback.symm
    | cons c rest =>
      have hc : c = padChar := List.eq_of_mem_replicate (n := n) (by simp [hback])
      exact absurd (by simp [hc]) hfront

/-- An accepted payload of `n` pad characters has `n` bytes fewer than its quartets hold. -/
theorem PaddedQuartets.count_eq {p : List Byte} {n : Nat} (h : PaddedQuartets p n) :
    p.count padChar = n ∧ n ≤ 3 * (p.length / 4) := by
  obtain ⟨h4, hn, body, hbody, rfl⟩ := h
  have hnone : body.count padChar = 0 := List.count_eq_zero.mpr fun hmem =>
    ne_padChar_of_isSome (hbody _ hmem) rfl
  refine ⟨by rw [List.count_append, hnone, List.count_replicate_self, Nat.zero_add], ?_⟩
  rw [List.length_append, List.length_replicate] at h4 ⊢
  omega

/-! ### The clauses of the statement -/

theorem eq_take_append_cons {p : List Byte} {i : Nat} (h : i < p.length) : p = p.take i ++ p[i] :: p.drop (i + 1) := by
  rw [← List.drop_eq_getElem_cons h, List.take_append_drop]

/-- Check 2 (R204). -/
theorem b64dec_of_length {p : List Byte} (hlegal : ∀ c ∈ p, b64Legal c = true) (h : p.length % 4 ≠ 0) :
    b64dec p = .error p.length := by
  have hnone : p.findIdx? (fun c => !b64Legal c) = none :=
    List.findIdx?_eq_none_iff.mpr fun c hc => by rw [hlegal c hc]; rfl
  simp only [b64dec, hnone, if_pos h]

theorem forall_mem_take {p : List Byte} {i : Nat} {P : Byte → Prop} (h : i < p.length)
    (hall : ∀ j (hj : j < i), P (p[j]'(Nat.lt_trans hj h))) : ∀ c ∈ p.take i, P c := by
  intro c hc
  obtain ⟨j, hj, rfl⟩ := List.mem_take_iff_getElem.mp hc
  exact hall j (Nat.lt_of_lt_of_le hj (Nat.min_le_left ..))

/-- Check 3 (R204): the first pad character is reported when it is followed by too many characters or by another one. -/
theorem b64dec_of_misplaced_pad {front back : List Byte}
    (hlegal : ∀ c ∈ front ++ padChar :: back, b64Legal c = true) (h4 : (front ++ padChar :: back).length % 4 = 0)
    (hfront : padChar ∉ front) (hbad : 2 < back.length + 1 ∨ ∃ c ∈ back, c ≠ padChar) :
    b64dec (front ++ padChar :: back) = .error front.length := by
  rcases paddedQuartets_or_b64dec_error hlegal h4 with ⟨n, hpadded⟩ | herr
  · have hback := hpadded.cons_eq_replicate hfront
    rcases hbad with hmany | ⟨c, hc, hother⟩
    · have htwo := hpadded.le_two
      have hlength := congrArg List.length hback
      rw [List.length_cons, List.length_replicate] at hlength
      omega
    · exact absurd (List.eq_of_mem_replicate (hback ▸ List.mem_cons_of_mem _ hc)) hother
  · have hindex : (front ++ padChar :: back).findIdx (· == padChar) = front.length :=
      (List.findIdx_eq (by simp)).mpr ⟨by simp, fun j hj => beq_eq_false_iff_ne.mpr fun heq =>
        hfront (by rw [← heq, List.getElem_append_left hj]; exact List.getElem_mem hj)⟩
    rw [herr, hindex]

/-- A payload that passes the three checks of R204 is decoded. -/
theorem exists_b64dec_ok {p : List Byte} (hlegal : ∀ c ∈ p, b64Legal c = true) (h4 : p.length % 4 = 0)
    (hplaced : ∀ front back, p = front ++ padChar :: back → back.length + 1 ≤ 2 ∧ ∀ c ∈ back, c = padChar) :
    ∃ r, b64dec p = .ok r := by
  by_cases hmem : padChar ∈ p
  · obtain ⟨body, back, rfl, hbody⟩ := List.eq_append_cons_of_mem hmem
    obtain ⟨htwo, hpads⟩ := hplaced body back rfl
    have hpadded : PaddedQuartets (body ++ padChar :: back) (back.length + 1) := by
      refine ⟨h4, htwo, body, fun c hc => ?_, ?_⟩
      · exact isSome_b64Value (hlegal c (List.mem_append_left _ hc)) (ne_of_mem_of_not_mem hc hbody)
      · rw [List.replicate_succ, ← List.eq_replicate_iff.mpr ⟨rfl, hpads⟩]
    exact ⟨_, hpadded.b64dec_eq⟩
  · have hpadded : PaddedQuartets p 0 := ⟨h4, Nat.zero_le 2, p, fun c hc =>
      isSome_b64Value (hlegal c hc) (ne_of_mem_of_not_mem hc hmem), by simp⟩
    exact ⟨_, hpadded.b64dec_eq⟩

/-- The bytes of an accepted payload (R204, check 4). -/
theorem getElem?_b64dec {p r : List Byte} (hr : b64dec p = .ok r) {j t : Nat} {v0 v1 v2 v3 : BitVec 6} (ht : t < 3)
    (hlt : 3 * j + t < r.length) (h0 : HasValue p (4 * j) v0) (h1 : HasValue p (4 * j + 1) v1)
    (h2 : HasValue p (4 * j + 2) v2) (h3 : HasValue p (4 * j + 3) v3) :
    r[3 * j + t]? = some ((v0 ++ v1 ++ v2 ++ v3).extractLsb' (16 - 8 * t) 8) := by
  obtain ⟨n, hpadded⟩ := exists_paddedQuartets_of_ok hr
  rw [hpadded.b64dec_eq] at hr
  cases hr
  obtain ⟨a, ha, rfl⟩ := h0.exists_char
  obtain ⟨b, hb, rfl⟩ := h1.exists_char
  obtain ⟨c, hc, rfl⟩ := h2.exists_char
  obtain ⟨d, hd, rfl⟩ := h3.exists_char
  rw [List.length_take] at hlt
  rw [List.getElem?_take_of_lt (by omega)]
  exact getElem?_b64Quartets ht p j ha hb hc hd

theorem length_b64dec {p r : List Byte} (hr : b64dec p = .ok r) :
    p.length % 4 = 0 ∧ r.length + p.count padChar = 3 * (p.length / 4) := by
  obtain ⟨n, hpadded⟩ := exists_paddedQuartets_of_ok hr
  obtain ⟨hcount, hle⟩ := hpadded.count_eq
  rw [hpadded.b64dec_eq] at hr
  cases hr
  refine ⟨hpadded.length_mod, ?_⟩
  rw [List.length_take, length_b64Quartets, hcount]
  omega

/-- Settles O55: an accepted payload is alphabet characters and at most two pad characters in whole quartets; what is
not of that form fails the first check that it breaks. -/
theorem base64DecoderChecks : Obligations.Base64DecoderChecks := by
  refine fun p => ⟨fun i hi hbad hgood => ?illegal, b64dec_of_length, fun hlegal h4 i hi hpad hfirst hbad => ?misplaced,
    fun hlegal h4 hplaced => exists_b64dec_ok hlegal h4 fun front back hp => ?placed, fun r hr => ?bytes, b64Legal_iff⟩
  case illegal =>
    have herr := b64dec_append_cons_of_not_legal (forall_mem_take hi hgood) hbad (p.drop (i + 1))
    rwa [← eq_take_append_cons hi, List.length_take_of_le (Nat.le_of_lt hi)] at herr
  case misplaced =>
    have hsplit : p = p.take i ++ padChar :: p.drop (i + 1) := by
      rw [show padChar = p[i] from hpad.symm]; exact eq_take_append_cons hi
    have hfront : padChar ∉ p.take i := fun hmem => forall_mem_take (P := (· ≠ padChar)) hi hfirst _ hmem rfl
    have hbehind : 2 < (p.drop (i + 1)).length + 1 ∨ ∃ c ∈ p.drop (i + 1), c ≠ padChar := by
      refine hbad.imp (fun hmany => by rw [List.length_drop]; omega) fun ⟨j, hj, hij, hother⟩ => ⟨p[j], ?_, hother⟩
      exact List.mem_drop_iff_getElem.mpr ⟨j - (i + 1), by omega, by congr 1; omega⟩
    have herr := b64dec_of_misplaced_pad (hsplit ▸ hlegal) (hsplit ▸ h4) hfront hbehind
    rwa [← hsplit, List.length_take_of_le (Nat.le_of_lt hi)] at herr
  case placed =>
    subst hp
    have hpadAt : (front ++ padChar :: back)[front.length]'(by simp) = padChar := by simp
    have hlength : (front ++ padChar :: back).length - front.length = back.length + 1 := by simp
    refine ⟨hlength ▸ (hplaced _ front.length (by simp) le_rfl hpadAt).1, fun c hc => ?_⟩
    obtain ⟨k, hk, rfl⟩ := List.getElem_of_mem hc
    have hat := (hplaced _ (front.length + (k + 1)) (by simpa using hk) (by omega) hpadAt).2
    simpa [padChar] using hat
  case bytes =>
    obtain ⟨hmod, hlength⟩ := length_b64dec hr
    exact ⟨hmod, hlength, fun j t v0 v1 v2 v3 => getElem?_b64dec hr⟩

end Sys2Proof.Machine
end

section
/-! Stores to different windows, in either order (spec/20_memory.md R71; spec/45_pipeline.md R242, R243). Memories are
compared byte by byte: the list of cells is the model's own form (log 6). -/

namespace Sys2Proof.Machine

/-- The two memories have the same bytes. -/
def Memory.SameBytes (m m' : Memory) : Prop := ∀ a, m.byte a = m'.byte a

theorem Memory.SameBytes.trans {m m' m'' : Memory} (h : m.SameBytes m') (h' : m'.SameBytes m'') : m.SameBytes m'' :=
  fun a => (h a).trans (h' a)

/-- The store `f` changes bytes of `[lo, hi)` only, and looks at no others. -/
structure LocalStore (f : Memory → Memory) (lo hi : Nat) : Prop where
  out : ∀ (m : Memory) (a : Nat), ¬ (lo ≤ a ∧ a < hi) → (f m).byte a = m.byte a
  local_eq : ∀ m m' : Memory, (∀ a, lo ≤ a → a < hi → m.byte a = m'.byte a) →
    ∀ a, lo ≤ a → a < hi → (f m).byte a = (f m').byte a

section
variable {f g : Memory → Memory} {lo hi lo' hi' : Nat}

theorem LocalStore.id : LocalStore (fun m => m) lo hi := ⟨fun _ _ _ => rfl, fun _ _ h => h⟩

theorem LocalStore.comp (hg : LocalStore g lo hi) (hf : LocalStore f lo hi) : LocalStore (fun m => g (f m)) lo hi :=
  ⟨fun m a ha => (hg.out _ a ha).trans (hf.out m a ha), fun m m' h => hg.local_eq _ _ (hf.local_eq m m' h)⟩

/-- A store does the same to memories of the same bytes. -/
theorem LocalStore.sameBytes (hf : LocalStore f lo hi) {m m' : Memory} (h : m.SameBytes m') :
    (f m).SameBytes (f m') := by
  intro a
  by_cases ha : lo ≤ a ∧ a < hi
  · exact hf.local_eq m m' (fun a _ _ => h a) a ha.1 ha.2
  · rw [hf.out _ a ha, hf.out _ a ha, h a]

/-- Stores to disjoint ranges commute. -/
theorem LocalStore.comm (hf : LocalStore f lo hi) (hg : LocalStore g lo' hi') (hdisjoint : hi ≤ lo' ∨ hi' ≤ lo)
    (m : Memory) : (f (g m)).SameBytes (g (f m)) := by
  intro a
  by_cases ha : lo ≤ a ∧ a < hi
  · rw [hg.out _ a (by omega)]
    exact hf.local_eq _ _ (fun b hlo hhi => hg.out m b (by omega)) a ha.1 ha.2
  by_cases ha' : lo' ≤ a ∧ a < hi'
  · rw [hf.out _ a ha]
    exact (hg.local_eq _ _ (fun b hlo hhi => hf.out m b (by omega)) a ha'.1 ha'.2).symm
  · rw [hf.out _ a ha, hg.out _ a ha', hg.out _ a ha', hf.out _ a ha]

end

theorem localStore_setSym {lo hi win i : Nat} (hlo : lo ≤ win + i / 4) (hhi : win + i / 4 < hi) (v : Symbol) :
    LocalStore (fun m => m.setSym win i v) lo hi := by
  refine ⟨fun m a ha => ?_, fun m m' h a ha ha' => ?_⟩
  · rw [Memory.byte_setSym, if_neg (by omega)]
  · rw [Memory.byte_setSym, Memory.byte_setSym, h _ hlo hhi, h a ha ha']

theorem localStore_storeSyms {lo hi win i : Nat} {qs : List Symbol} (hlo : lo ≤ win + i / 4)
    (hhi : win + (i + qs.length + 3) / 4 ≤ hi) : LocalStore (fun m => m.storeSyms win i qs) lo hi := by
  induction qs generalizing i with
  | nil => exact .id
  | cons q rest ih =>
    rw [List.length_cons] at hhi
    exact (ih (by omega) (by omega)).comp (localStore_setSym hlo (by omega) q)

theorem localStore_storeBytes {lo hi a : Nat} {bs : List Byte} (hlo : lo ≤ a) (hhi : a + bs.length ≤ hi) :
    LocalStore (fun m => m.storeBytes a bs) lo hi := by
  refine ⟨fun m x hx => m.byte_storeBytes_out a x bs (by omega), fun m m' h x hx hx' => ?_⟩
  rw [Memory.byte_storeBytes, Memory.byte_storeBytes, h x hx hx']

/-- The four symbols of a byte lane make up the byte (R74). -/
theorem laneSymbols_append (b : Byte) : laneSymbol b 0 ++ laneSymbol b 1 ++ laneSymbol b 2 ++ laneSymbol b 3 = b :=
  bitPairs_append b

theorem Memory.byte_eq_of_sym_eq {m m' : Memory} {win : Nat} (h : ∀ i, m.sym win i = m'.sym win i) (j : Nat) :
    m.byte (win + j) = m'.byte (win + j) := by
  have hlane : ∀ q, q < 4 → laneSymbol (m.byte (win + j)) q = laneSymbol (m'.byte (win + j)) q := by
    intro q hq
    have hsym := h (4 * j + q)
    rwa [Memory.sym, Memory.sym, show (4 * j + q) / 4 = j by omega, show (4 * j + q) % 4 = q by omega] at hsym
  rw [← laneSymbols_append (m.byte (win + j)), hlane 0 (by decide), hlane 1 (by decide), hlane 2 (by decide),
    hlane 3 (by decide), laneSymbols_append]

/-- Symbols written twice over the same places are those written last. -/
theorem Memory.storeSyms_storeSyms (m : Memory) (win : Nat) {qs rs : List Symbol} (h : qs.length = rs.length) :
    ((m.storeSyms win 0 qs).storeSyms win 0 rs).SameBytes (m.storeSyms win 0 rs) := by
  intro a
  by_cases ha : win ≤ a
  · obtain ⟨j, rfl⟩ := Nat.exists_eq_add_of_le ha
    refine Memory.byte_eq_of_sym_eq (fun i => ?_) j
    by_cases hi : i < rs.length
    · rw [Memory.sym_storeSyms_in _ _ _ _ hi, Memory.sym_storeSyms_in _ _ _ _ hi]
    · have hout : rs.length ≤ i := Nat.le_of_not_lt hi
      rw [Memory.sym_storeSyms_out _ _ _ _ hout, Memory.sym_storeSyms_out _ _ _ _ hout,
        Memory.sym_storeSyms_out _ _ _ _ (h ▸ hout)]
  · simp only [Memory.byte_storeSyms_out _ win 0 a _ (.inl (show a < win + 0 / 4 by omega))]

/-- The buffers after the chain of four commands are those after the one command: SYM is written twice, and the
windows are disjoint. -/
theorem Memory.sameBytes_chain (m : Memory) {qs rs ks : List Symbol} {dout mt : List Byte}
    (hlength : qs.length = rs.length) (hrs : rs.length ≤ 8388608) (hks : ks.length ≤ 8388608)
    (hdout : dout.length ≤ 4194304) (hmt : mt.length ≤ 4096) :
    (((((m.storeSyms symWin 0 qs).storeBytes mtWin mt).storeSyms ksWin 0 ks).storeSyms symWin 0 rs).storeBytes doutWin
        dout).SameBytes
      ((((m.storeSyms symWin 0 rs).storeSyms ksWin 0 ks).storeBytes doutWin dout).storeBytes mtWin mt) := by
  have hmtStore : LocalStore (fun m => m.storeBytes mtWin mt) 0x1000 0x2000 :=
    localStore_storeBytes le_rfl (by unfold mtWin; omega)
  have hdoutStore : LocalStore (fun m => m.storeBytes doutWin dout) 0x800000 0xC00000 :=
    localStore_storeBytes le_rfl (by unfold doutWin; omega)
  have hsymStore : LocalStore (fun m => m.storeSyms symWin 0 rs) 0xC00000 0xE00000 :=
    localStore_storeSyms le_rfl (by unfold symWin; omega)
  have hksStore : LocalStore (fun m => m.storeSyms ksWin 0 ks) 0xE00000 0x1000000 :=
    localStore_storeSyms le_rfl (by unfold ksWin; omega)
  have hsymFirst := (hsymStore.comm hksStore (.inl le_rfl) ((m.storeSyms symWin 0 qs).storeBytes mtWin mt)).trans
    (hksStore.sameBytes (hsymStore.comm hmtStore (.inr (by decide)) (m.storeSyms symWin 0 qs)))
  have honce := hksStore.sameBytes (hmtStore.sameBytes (m.storeSyms_storeSyms symWin hlength))
  have hmtLast := hksStore.comm hmtStore (.inr (by decide)) (m.storeSyms symWin 0 rs)
  exact (hdoutStore.sameBytes (hsymFirst.trans (honce.trans hmtLast))).trans
    (hdoutStore.comm hmtStore (.inr (by decide)) _)

end Sys2Proof.Machine
end

section
/-! The two pipeline commands as chains of four commands (spec/45_pipeline.md R242, R243). -/

namespace Sys2Proof.Machine

/-- A completion that leaves ERR clear is a success. -/
theorem exists_succeed_of_clear {i : Instr} {s t : State} (hexec : exec i s = .next t)
    (ht : t.regs.status.err = false) : ∃ u, evalInstr i s = .ok u ∧ t = s.succeed u := by
  cases heval : evalInstr i s with
  | ok u =>
    rw [exec_of_eval_ok heval] at hexec
    cases hexec
    exact ⟨u, rfl, rfl⟩
  | error e =>
    rw [exec_of_eval_error heval] at hexec
    cases hexec
    simp at ht

/-! ### What the next command of a chain reads -/

/-- A command that writes symbols leaves them to be read, where SYM_LEN is their number. -/
theorem State.symbols_succeed (s : State) {u : Update} (hu : u.Fits)
    (hlen : (s.succeed u).regs.symLen.toNat = u.sym.length) : (s.succeed u).symbols = u.sym :=
  List.ext_getElem (by rw [State.length_symbols, hlen]) fun i hi h =>
    (State.getElem_symbols _ i hi).trans (s.mem.sym_applyUpdate_in hu h)

theorem State.keyStream_succeed (s : State) {u : Update} (hu : u.Fits)
    (hlen : (s.succeed u).regs.ksLen.toNat = u.ks.length) : (s.succeed u).keyStream = u.ks :=
  List.ext_getElem (by rw [State.length_keyStream, hlen]) fun i hi h =>
    (State.getElem_keyStream _ i hi).trans (s.mem.ks_applyUpdate_in hu h)

/-- A command that writes no symbols leaves those of SYM. -/
theorem State.symbols_succeed_of_nil (s : State) {u : Update} (hu : u.Fits) (hsym : u.sym = []) (hlen : u.symLen = none)
    (hle : s.regs.symLen.toNat ≤ 8388608) : (s.succeed u).symbols = s.symbols := by
  have hregs : (s.succeed u).regs.symLen = s.regs.symLen := by simp [State.succeed, Regs.applyUpdate, hlen]
  refine List.ext_getElem (by rw [State.length_symbols, State.length_symbols, hregs]) fun i hi h => ?_
  rw [State.length_symbols] at h
  rw [State.getElem_symbols, State.getElem_symbols, State.succeed_mem, s.mem.sym_applyUpdate u hu i (by omega),
    dif_neg (by simp [hsym])]

/-- No command writes KEY (R106). -/
theorem State.key_succeed (s : State) {u : Update} (hu : u.Fits) (hle : s.regs.keyLen.toNat ≤ 4096) :
    (s.succeed u).key = s.key := by
  obtain ⟨_, _, _, hmt⟩ := hu
  have hbyte : ∀ j, j < 8192 → (s.succeed u).mem.byte (keyWin + j) = s.mem.byte (keyWin + j) := by
    intro j hj
    rw [State.succeed_mem]
    apply Memory.byte_applyUpdate_out <;> unfold keyWin
    · unfold symWin; omega
    · unfold ksWin; omega
    · unfold doutWin; omega
    · unfold mtWin; omega
  have hregs : (s.succeed u).regs.keyLen = s.regs.keyLen := rfl
  refine List.ext_getElem (by rw [State.length_key, State.length_key, hregs]) fun i hi h => ?_
  rw [State.length_key] at h
  rw [State.getElem_key, State.getElem_key, Memory.unit, Memory.unit, Nat.add_assoc,
    hbyte _ (by omega), hbyte _ (by omega)]

/-- A command that writes no media type leaves the one in MT. -/
theorem State.mt_succeed_of_nil (s : State) {u : Update} (hmt : u.mt = []) (hlen : u.mtLen = none)
    (hle : s.regs.mtLen.toNat ≤ 4096) : (s.succeed u).mt = s.mt := by
  have hregs : (s.succeed u).regs.mtLen = s.regs.mtLen := by simp [hlen]
  refine List.ext_getElem (by rw [State.length_mt, State.length_mt, hregs]) fun i hi h => ?_
  rw [State.length_mt] at h
  rw [State.getElem_mt, State.getElem_mt, State.succeed_mem]
  apply Memory.byte_applyUpdate_out <;> unfold mtWin
  · unfold symWin; omega
  · unfold ksWin; omega
  · unfold doutWin; omega
  · simp [hmt]

/-! ### The commands of the chains, on the operands the chain gives them -/

/-- The results of DERIVE for the passphrase `key` and `n` symbols (R164). -/
def deriveUpdate (key : List CodeUnit) (n : Nat) : Update where
  ks := (deriveKeyStream key n).ks
  ksLen := some (BitVec.ofNat 32 n)
  hash := some (BitVec.ofNat 32 (deriveKeyStream key n).hash)
  lcg := some (BitVec.ofNat 32 (deriveKeyStream key n).state)

theorem evalInstr_derive_ok {s : State} {n : Nat} (hreq : s.regs.ksReq = BitVec.ofNat 32 n) (hkey : s.KeyAccepted)
    (hn : n ≤ s.params.pSym) (hn32 : n < 4294967296) :
    evalInstr .derive s = .ok (deriveUpdate s.key n) := by
  have hreqNat : s.regs.ksReq.toNat = n := by rw [hreq, BitVec.toNat_ofNat, Nat.mod_eq_of_lt hn32]
  refine (evalDerive_ok s _).mpr ⟨hkey.2, by rwa [hreqNat], hkey.ne_zero, ?_⟩
  rw [hreqNat, hreq, deriveUpdate]

/-- The state with another KS_REQ, as the host writes it between the commands of a chain. -/
def State.withKsReq (s : State) (v : Word) : State := { s with regs := { s.regs with ksReq := v } }

theorem toNat_ofNat_of_le {n : Nat} (h : n ≤ 8388608) : (BitVec.ofNat 32 n).toNat = n := by
  rw [BitVec.toNat_ofNat, Nat.mod_eq_of_lt (by omega)]

/-- DERIVE with KS_REQ set to the number `n` of symbols in SYM draws a key symbol for each, and leaves SYM
(R242, R243). -/
theorem State.derive_for_symbols (s : State) {qs : List Symbol} {key : List CodeUnit} {n : Nat}
    (hp : paramsLegal s.params = true) (haccepted : s.KeyAccepted) (hsym : s.symbols = qs) (hkey : s.key = key)
    (hlength : qs.length = n) (hle : n ≤ s.params.pSym) :
    ∃ s2, s2 = (s.withKsReq (BitVec.ofNat 32 n)).succeed (deriveUpdate key n)
      ∧ exec .derive (s.withKsReq (BitVec.ofNat 32 n)) = .next s2
      ∧ s2.symbols = qs ∧ s2.keyStream = (deriveKeyStream key n).ks
      ∧ (s.regs.mtLen.toNat ≤ 4096 → s2.mt = s.mt) := by
  subst hsym hkey
  have hmax := hle.trans (pSym_le_of_legal hp)
  have heval : evalInstr .derive (s.withKsReq (BitVec.ofNat 32 n)) = .ok (deriveUpdate s.key n) :=
    evalInstr_derive_ok rfl haccepted hle (by omega)
  have hfits := (evalInstr_within heval).fits hp
  refine ⟨_, rfl, exec_of_eval_ok heval, ?symbols, ?keyStream,
    State.mt_succeed_of_nil (s.withKsReq _) (u := deriveUpdate s.key n) rfl rfl⟩
  case symbols =>
    exact State.symbols_succeed_of_nil _ hfits rfl rfl (by rw [← hlength, State.length_symbols] at hmax; exact hmax)
  case keyStream =>
    exact State.keyStream_succeed _ hfits ((toNat_ofNat_of_le hmax).trans (length_deriveKeyStream _ _).symm)

/-- SUBST and UNSUBST transform in place: the new symbols are read with the old SYM_LEN. -/
theorem State.symbols_succeed_of_length {s : State} {qs : List Symbol} (hp : paramsLegal s.params = true)
    (hlength : qs.length = s.symbols.length) (hle : qs.length ≤ s.params.pSym) :
    (s.succeed { sym := qs }).symbols = qs := by
  have hfits : ({ sym := qs } : Update).Fits :=
    ⟨hle.trans (pSym_le_of_legal hp), Nat.zero_le _, Nat.zero_le _, Nat.zero_le _⟩
  exact s.symbols_succeed hfits (by rw [hlength, State.length_symbols]; rfl)

/-- SUBST under a key stream as long as the symbols (R185). -/
theorem State.subst_in_place {s : State} {qs ks rs : List Symbol} (hp : paramsLegal s.params = true)
    (hsym : s.symbols = qs) (hks : s.keyStream = ks) (hlength : ks.length = qs.length)
    (hle : qs.length ≤ s.params.pSym) (hrs : substitute s.params.table qs ks = rs) :
    exec .subst s = .next (s.succeed { sym := rs }) ∧ (s.succeed { sym := rs }).symbols = rs := by
  subst hsym hks hrs
  refine ⟨exec_of_eval_ok (i := .subst) ((evalSubst_ok s _).mpr ?_),
    State.symbols_succeed_of_length hp (by simp) (by simpa using hle)⟩
  rw [State.length_keyStream, State.length_symbols] at hlength
  rw [State.length_symbols] at hle
  exact ⟨hle, hlength ▸ hle, by omega, rfl⟩

/-- UNSUBST under a key stream as long as the symbols (R186). -/
theorem State.unsubst_in_place {s : State} {qs ks rs : List Symbol} (hp : paramsLegal s.params = true)
    (hsym : s.symbols = qs) (hks : s.keyStream = ks) (hlength : ks.length = qs.length)
    (hle : qs.length ≤ s.params.pSym) (hrs : unsubstitute s.params.table qs ks = rs) :
    exec .unsubst s = .next (s.succeed { sym := rs }) ∧ (s.succeed { sym := rs }).symbols = rs := by
  subst hsym hks hrs
  refine ⟨exec_of_eval_ok (i := .unsubst) ((evalUnsubst_ok s _).mpr ?_),
    State.symbols_succeed_of_length hp (by simp) (by simpa using hle)⟩
  rw [State.length_keyStream, State.length_symbols] at hlength
  rw [State.length_symbols] at hle
  exact ⟨hle, hlength ▸ hle, by omega, rfl⟩

/-! ### ENCRYPT -/

/-- The results of PACK (R147). -/
def State.packUpdate (s : State) : Update where
  sym := symbolsOfBytes s.din
  symLen := some (BitVec.ofNat 32 (4 * s.regs.dinLen.toNat))

theorem encodeContainer_congr {seq : List Symbol} {mt mt' : List Byte} {untag : Bool} (h : untag = true ∨ mt = mt') :
    encodeContainer seq mt untag = encodeContainer seq mt' untag := by
  rcases h with rfl | rfl <;> rfl

/-- FRAME puts the cipher container in DOUT, where SYM holds the cipher symbols and MT what ENCRYPT reads there. -/
theorem evalInstr_frame_ok {s s3 : State} {untag : Bool} (hparams : s3.params = s.params)
    (hmtLen : s3.regs.mtLen = s.regs.mtLen) (hsym : s3.symbols = s.cipherSymbols) (hmt : untag = true ∨ s3.mt = s.mt)
    (hready : s.EncryptReady untag) : evalInstr (.frame untag) s3
      = .ok { dout := s.cipherContainer untag
              doutLen := some (BitVec.ofNat 32 (s.cipherContainer untag).length) } := by
  have hcontainer : encodeContainer s3.symbols s3.mt untag = s.cipherContainer untag := by
    rw [hsym, encodeContainer_congr hmt, State.cipherContainer]
  rw [← hcontainer]
  refine (evalFrame_ok untag s3 _).mpr ⟨?_, ?_, ?_, ?_, rfl⟩
  · rw [← State.length_symbols, hsym, State.length_cipherSymbols, hparams]; exact hready.symbols
  · rw [hmtLen, hparams]; exact hready.media.imp_right And.left
  · rcases hmt with huntag | hmt
    · exact .inl huntag
    · rw [hmt]; exact hready.media.imp_right And.right
  · rw [hcontainer, hparams]; exact hready.fitsDout

theorem State.KeyAccepted.le {s : State} (h : s.KeyAccepted) (hp : paramsLegal s.params = true) :
    s.regs.keyLen.toNat ≤ 4096 := by
  obtain ⟨_, _, _, _, _, _, _, hpKey, _⟩ := (paramsLegal_iff _).mp hp
  exact h.2.trans hpKey

/-- Settles O59: each command of the chain reads what the one before it left, and the last SYM, KS and DOUT are those
of ENCRYPT. -/
theorem encryptIsTheChain : Obligations.EncryptIsTheChain := by
  intro s t k untag hp _ hexec ht
  obtain ⟨_, heval, rfl⟩ := exists_succeed_of_clear hexec ht
  have hfits := (evalInstr_within heval).fits hp
  obtain ⟨hready, rfl⟩ := evalInstr_encrypt_ok_iff.mp heval
  have hmax := pSym_le_of_legal hp
  have hpack : evalInstr .pack s = .ok s.packUpdate := (evalPack_ok s _).mpr ⟨hready.payload, hready.symbols, rfl⟩
  have hpackFits := (evalInstr_within hpack).fits hp
  have hlength : (symbolsOfBytes s.din).length = 4 * s.regs.dinLen.toNat := by simp
  have hsym1 : (s.succeed s.packUpdate).symbols = symbolsOfBytes s.din :=
    s.symbols_succeed hpackFits ((toNat_ofNat_of_le (hready.symbols.trans hmax)).trans hlength.symm)
  have hkey1 : (s.succeed s.packUpdate).key = s.key := s.key_succeed hpackFits (hready.key.le hp)
  obtain ⟨s2, hs2, hderive, hsym2, hks2, hmt2⟩ :=
    (s.succeed s.packUpdate).derive_for_symbols hp hready.key hsym1 hkey1 hlength hready.symbols
  have hparams2 : s2.params = s.params := by rw [hs2]; rfl
  obtain ⟨hsubst, hsym3⟩ := State.subst_in_place (rs := s.cipherSymbols) (hparams2 ▸ hp) hsym2 hks2
    (by rw [hlength, length_deriveKeyStream]) (by rw [hlength, hparams2]; exact hready.symbols) (by rw [hparams2]; rfl)
  have hmt3 : untag = true ∨ (s2.succeed { sym := s.cipherSymbols }).mt = s.mt := by
    refine hready.media.imp_right fun ⟨hle, _⟩ => ?_
    obtain ⟨_, _, _, _, _, _, _, _, _, _, hpMt, _⟩ := (paramsLegal_iff _).mp hp
    have hshort := hle.trans hpMt
    calc (s2.succeed { sym := s.cipherSymbols }).mt
      _ = s2.mt := State.mt_succeed_of_nil _ rfl rfl (by rw [hs2]; exact hshort)
      _ = (s.succeed s.packUpdate).mt := hmt2 hshort
      _ = s.mt := State.mt_succeed_of_nil _ rfl rfl hshort
  have hframe := evalInstr_frame_ok (s3 := s2.succeed { sym := s.cipherSymbols }) hparams2 (by rw [hs2]; rfl) hsym3 hmt3
    hready
  refine ⟨_, s2, _, _, exec_of_eval_ok hpack, hderive, hsubst, exec_of_eval_ok hframe, ?regs,
    fun a => ?mem⟩
  case regs => rw [hs2]; rfl
  case mem =>
    rw [hs2]
    exact (s.mem.sameBytes_chain (mt := []) (hlength.trans s.length_cipherSymbols.symm) hfits.sym hfits.ks hfits.dout
      (Nat.zero_le _) a).symm

/-! ### DECRYPT -/

/-- Settles O60: as for ENCRYPT; UNFRAME leaves the container's symbols for the chain, and the media type. -/
theorem decryptIsTheChain : Obligations.DecryptIsTheChain := by
  intro s t k hp _ hexec ht
  obtain ⟨_, heval, rfl⟩ := exists_succeed_of_clear hexec ht
  have hfits := (evalInstr_within heval).fits hp
  obtain ⟨p, hready, rfl⟩ := evalInstr_decrypt_ok_iff.mp heval
  have hmax := pSym_le_of_legal hp
  have hunframe := evalInstr_unframe_ok hready.payload hready.parse hready.symbols hready.media
  have hunframeFits := (evalInstr_within hunframe).fits hp
  have hsym1 : (s.succeed p.unframeUpdate).symbols = p.seq :=
    s.symbols_succeed hunframeFits (toNat_ofNat_of_le (hready.symbols.trans hmax))
  have hkey1 : (s.succeed p.unframeUpdate).key = s.key := s.key_succeed hunframeFits (hready.key.le hp)
  obtain ⟨s2, hs2, hderive, hsym2, hks2, _⟩ :=
    (s.succeed p.unframeUpdate).derive_for_symbols hp hready.key hsym1 hkey1 rfl hready.symbols
  have hparams2 : s2.params = s.params := by rw [hs2]; rfl
  obtain ⟨hunsubst, hsym3⟩ := State.unsubst_in_place (rs := s.plainSymbols p) (hparams2 ▸ hp) hsym2 hks2
    (length_deriveKeyStream _ _) (by rw [hparams2]; exact hready.symbols) (by rw [hparams2]; rfl)
  have hunpack : evalInstr .unpack (s2.succeed { sym := s.plainSymbols p })
      = .ok { dout := bytesOfSymbols (s.plainSymbols p), doutLen := some (BitVec.ofNat 32 (p.seq.length / 4)) } := by
    have hlen : (s2.succeed { sym := s.plainSymbols p }).regs.symLen.toNat = p.seq.length := by
      rw [← State.length_symbols, hsym3, State.length_plainSymbols]
    refine (evalUnpack_ok _ _).mpr ⟨?_, ?_, by rw [hsym3, hlen]⟩
    · rw [hlen]; exact hparams2 ▸ hready.symbols
    · rw [hlen]; exact hparams2 ▸ hready.fitsDout
  refine ⟨_, s2, _, _, exec_of_eval_ok hunframe, hderive, hunsubst, exec_of_eval_ok hunpack, ?regs,
    fun a => ?mem⟩
  case regs => rw [hs2]; rfl
  case mem =>
    rw [hs2]
    exact (s.mem.sameBytes_chain (s.length_plainSymbols p).symm hfits.sym hfits.ks hfits.dout hfits.mt a).symm

end Sys2Proof.Machine
end

section
/-! An abandoned command's destinations (spec/70_reset_and_hazards.md R291, R292; spec/30_encoding.md R106). -/

namespace Sys2Proof.Machine

/-! ### What a command writes is what its rule names -/

theorem containerLen_eq_containerLength (s : State) (n : Nat) (untag : Bool) :
    containerLen n s.regs.mtLen.toNat untag = s.containerLength n untag := by
  have hmedia : (if s.regs.mtLen.toNat > 0 then s.regs.mtLen.toNat else 10)
      = if s.regs.mtLen.toNat = 0 then 10 else s.regs.mtLen.toNat := by
    split_ifs <;> omega
  cases untag with
  | true => rfl
  | false => simp only [containerLen, State.containerLength, b64Length, hmedia, Bool.false_eq_true, if_false]

/-- A successful command writes exactly the prefixes its rule names (R106). -/
theorem extent_eq_namedExtent {i : Instr} {s : State} {u : Update} (h : evalInstr i s = .ok u) :
    u.extent = namedExtent i s := by
  cases i with
  | nop => cases h; rfl
  | pack =>
    obtain ⟨_, _, rfl⟩ := (evalPack_ok s u).mp h
    simp [Update.extent, namedExtent]
  | unpack =>
    obtain ⟨_, _, rfl⟩ := (evalUnpack_ok s u).mp h
    simp [Update.extent, namedExtent]
  | derive =>
    obtain ⟨_, _, _, rfl⟩ := (evalDerive_ok s u).mp h
    simp [Update.extent, namedExtent]
  | subst =>
    obtain ⟨_, _, _, rfl⟩ := (evalSubst_ok s u).mp h
    simp [Update.extent, namedExtent]
  | unsubst =>
    obtain ⟨_, _, _, rfl⟩ := (evalUnsubst_ok s u).mp h
    simp [Update.extent, namedExtent]
  | frame untag =>
    obtain ⟨_, _, _, _, rfl⟩ := (evalFrame_ok untag s u).mp h
    simp [Update.extent, namedExtent, containerLen_eq_containerLength, State.length_encodeContainer]
  | unframe kind =>
    obtain ⟨k, p, rfl, hdin, hparse, _, _, rfl⟩ := (evalUnframe_ok kind s u).mp h
    simp [Update.extent, namedExtent_unframe hdin hparse]
  | encrypt kind untag =>
    obtain ⟨k, rfl, _⟩ := (evalEncrypt_ok kind untag s u).mp h
    obtain ⟨_, rfl⟩ := evalInstr_encrypt_ok_iff.mp h
    simp [Update.extent, namedExtent, State.encryptUpdate, containerLen_eq_containerLength,
      State.length_cipherContainer]
  | decrypt kind =>
    obtain ⟨k, _, rfl, _⟩ := (evalDecrypt_ok kind s u).mp h
    obtain ⟨p, hready, rfl⟩ := evalInstr_decrypt_ok_iff.mp h
    simp [Update.extent, namedExtent_decrypt hready.payload hready.parse, State.decryptUpdate]

/-! ### The abandoned prefixes -/

/-- In no buffer does `x` reach farther than `y`. -/
structure Extent.Le (x y : Extent) : Prop where
  sym : x.sym ≤ y.sym
  ks : x.ks ≤ y.ks
  dout : x.dout ≤ y.dout
  mt : x.mt ≤ y.mt

theorem Extent.clip_le (x : Extent) (p : Params) : (x.clip p).Le x :=
  ⟨Nat.min_le_left _ _, Nat.min_le_left _ _, Nat.min_le_left _ _, Nat.min_le_left _ _⟩

theorem State.abandonedExtent_of_error {s : State} {e : DecodeError} (h : decode s.regs.cmd = .error e) :
    s.abandonedExtent = {} := by
  rw [State.abandonedExtent, h]

theorem State.abandonedExtent_of_ok {s : State} {u : Update} (h : evalWord s.regs.cmd s = .ok u) :
    s.abandonedExtent = u.extent := by
  unfold evalWord at h
  unfold State.abandonedExtent
  cases hdecode : decode s.regs.cmd with
  | error e => simp [hdecode] at h
  | ok i =>
    rw [hdecode] at h
    simp only [h]

/-- Whether or not the command would have succeeded, at most the prefixes its rule names are disturbed. -/
theorem State.abandonedExtent_le_named {s : State} {i : Instr} (h : decode s.regs.cmd = .ok i) :
    s.abandonedExtent.Le (namedExtent i s) := by
  cases heval : evalInstr i s with
  | ok u =>
    rw [State.abandonedExtent_of_ok ((evalWord_of_decode_ok h s).trans heval), extent_eq_namedExtent heval]
    exact ⟨le_rfl, le_rfl, le_rfl, le_rfl⟩
  | error e =>
    have hclip : s.abandonedExtent = (namedExtent i s).clip s.params := by
      simp only [State.abandonedExtent, h, heval]
    exact hclip ▸ Extent.clip_le _ _

/-! ### Which prefixes a rule names (R106) -/

theorem namedExtent_sym_eq_zero (s : State) :
    ∀ i ∈ [.nop, .unpack, .derive, .frame false, .frame true], (namedExtent i s).sym = 0 := by
  simp [namedExtent]

theorem namedExtent_ks_eq_zero (s : State) :
    ∀ i ∈ [.nop, .pack, .unpack, .subst, .unsubst, .frame false, .frame true], (namedExtent i s).ks = 0 := by
  simp [namedExtent]

theorem namedExtent_dout_eq_zero (s : State) :
    ∀ i ∈ [.nop, .pack, .derive, .subst, .unsubst], (namedExtent i s).dout = 0 := by
  simp [namedExtent]

theorem namedExtent_mt_eq_zero (s : State) :
    ∀ i ∈ [.nop, .pack, .unpack, .derive, .subst, .unsubst, .frame false, .frame true], (namedExtent i s).mt = 0 := by
  simp [namedExtent]

theorem namedExtent_unframe_eq_zero (s : State) (k : Kind) :
    (namedExtent (.unframe k) s).ks = 0 ∧ (namedExtent (.unframe k) s).dout = 0 := by
  cases h : s.parsedLengths k <;> simp [namedExtent, h]

theorem namedExtent_encrypt (s : State) (k : Kind) (untag : Bool) : namedExtent (.encrypt k untag) s
    = { sym := 4 * s.regs.dinLen.toNat
        ks := 4 * s.regs.dinLen.toNat
        dout := s.containerLength (4 * s.regs.dinLen.toNat) untag } := by
  rw [namedExtent, containerLen_eq_containerLength]

/-- Settles O14: the soft reset writes free values over the abandoned prefixes, which are within the buffers and within
what the rule of the command names. -/
theorem abandonedCommandDisturbsOnlyItsDestinations : Obligations.AbandonedCommandDisturbsOnlyItsDestinations := by
  intro s v hp hv hbusy
  have hfits := (s.abandonedExtent_free_within s.fresh).fits hp
  have hmax := pSym_le_of_legal hp
  obtain ⟨hsymCap, hksCap, hdoutCap, hmtCap⟩ := s.abandonedExtent_le
  rw [s.hostWrite_softReset hv, s.softReset_mem_busy hbusy, State.abandonedMem]
  refine ⟨fun a => s.mem.byte_applyUpdate_outside ?_ ?_ ?_ ?_, s.mem.sameSymbolsFrom_applyUpdate_sym hfits ?_ hmax,
    s.mem.sameSymbolsFrom_applyUpdate_ks hfits ?_ hmax, fun u hu => ?success, fun e => State.abandonedExtent_of_error,
    hsymCap, hksCap, hdoutCap, hmtCap, fun i hi => ?named⟩
  case success => rw [State.abandonedExtent_of_ok hu]; exact ⟨rfl, rfl, rfl, rfl⟩
  case named =>
    obtain ⟨hsym, hks, hdout, hmt⟩ := State.abandonedExtent_le_named hi
    refine ⟨fun h => ?sym0, fun h => ?ks0, fun h => ?dout0, fun h => ?mt0, ?pack, ?unpack, ?derive, ?subst, ?frame,
      ?unframe, ?encrypt, fun k p hdin hparse => ⟨?unframeParsed, ?decryptParsed⟩⟩
    case sym0 => exact Nat.eq_zero_of_le_zero (namedExtent_sym_eq_zero s i h ▸ hsym)
    case ks0 => exact Nat.eq_zero_of_le_zero (namedExtent_ks_eq_zero s i h ▸ hks)
    case dout0 => exact Nat.eq_zero_of_le_zero (namedExtent_dout_eq_zero s i h ▸ hdout)
    case mt0 => exact Nat.eq_zero_of_le_zero (namedExtent_mt_eq_zero s i h ▸ hmt)
    case pack => rintro rfl; exact hsym
    case unpack => rintro rfl; exact hdout
    case derive => rintro rfl; exact hks
    case subst =>
      simp only [List.mem_cons, List.not_mem_nil, or_false]
      rintro (rfl | rfl) <;> exact hsym
    case frame => rintro untag rfl; rw [← containerLen_eq_containerLength]; exact hdout
    case unframe =>
      rintro k rfl
      obtain ⟨hks0, hdout0⟩ := namedExtent_unframe_eq_zero s k
      exact ⟨Nat.eq_zero_of_le_zero (hks0 ▸ hks), Nat.eq_zero_of_le_zero (hdout0 ▸ hdout)⟩
    case encrypt =>
      rintro k untag rfl
      rw [namedExtent_encrypt] at hsym hks hdout hmt
      exact ⟨Nat.eq_zero_of_le_zero hmt, hsym, hks, hdout⟩
    case unframeParsed => rintro rfl; rw [namedExtent_unframe hdin hparse] at hsym hmt; exact ⟨hsym, hmt⟩
    case decryptParsed =>
      rintro rfl
      rw [namedExtent_decrypt hdin hparse] at hsym hks hdout hmt
      exact ⟨hsym, hks, hdout, hmt⟩
  all_goals simp [Extent.free]

end Sys2Proof.Machine
end

section
/-! The default table (spec/43_substitution.md R180 to R182). -/

namespace Sys2Proof.Machine

theorem tableAt_xorTable (k d : Symbol) : tableAt Config.xorTable k d = k ^^^ d := by
  revert k d; decide

/-- Settles O51: the table's entries are the exclusive or, and so are the inverse table's. -/
theorem defaultTableIsXor : Obligations.DefaultTableIsXor :=
  ⟨tableAt_xorTable, fun k c => (tableInv_xorTable k c).trans (tableAt_xorTable k c), by decide⟩

end Sys2Proof.Machine
end
